-- ==== Sys2Proof/Word.lean ====
section
/-! DEFINITION. The data words of the block and the small records they are grouped in: 20_memory.md R60 and R62,
10_state.md R26, 30_encoding.md R104 and R112. -/

namespace Sys2Proof

/-- A control register: 32 bits (10_state.md R26). -/
abbrev Word := BitVec 32

/-- One byte of a port, one colour sample or one gamma entry: 8 bits, unsigned (00_scope.md R6). -/
abbrev Byte := BitVec 8

/-- A stored coefficient, `COEF32`: 32 bits, two's complement (30_encoding.md R112). -/
abbrev Coef := BitVec 32

/-- A mask cell word, `CELL11` (30_encoding.md R104). -/
abbrev CellWord := BitVec 11

/-- A line of a text stream, or a token of one: its bytes in order (20_memory.md R63). -/
abbrev Text := List Byte

/-- A pixel: four samples in the order R, G, B, A (20_memory.md R62). There is no word view of it. -/
structure Pixel where
  r : Byte
  g : Byte
  b : Byte
  a : Byte
  deriving DecidableEq, Repr, Inhabited

/-- One value for each of the three colour lanes R, G, B (43_resampler.md R225). -/
structure Chan (α : Type) where
  r : α
  g : α
  b : α
  deriving DecidableEq, Repr, Inhabited

/-- Four values, one for each tap `k` in `0 .. 3` (`NTAPS`, 00_scope.md R6); as coefficients, one row of a filter. -/
structure Quad (α : Type) where
  k0 : α
  k1 : α
  k2 : α
  k3 : α
  deriving DecidableEq, Repr, Inhabited

end Sys2Proof
end

