-- ==== Sys2Proof/Machine/Text.lean ====
section
/-! DEFINITION. Text streams: lines, trimming, tokens (30_encoding.md R96 to R100, R106, R107), and how a number or a cell is
written (R99, R104, R117). -/

namespace Sys2Proof.Text

/-- Line feed. -/
def lf : Byte := 0x0A#8

/-- Carriage return. -/
def cr : Byte := 0x0D#8

/-- The comma, which separates tokens (30_encoding.md R100). -/
def comma : Byte := 0x2C#8

/-- `#`, the first byte of a comment line. -/
def hash : Byte := 0x23#8

/-- The minus sign (30_encoding.md R99). -/
def minus : Byte := 0x2D#8

/-- `10bit` (30_encoding.md R101). -/
def tok10bit : Text := [0x31#8, 0x30#8, 0x62#8, 0x69#8, 0x74#8]

/-- `adaptive` (30_encoding.md R101). -/
def tokAdaptive : Text := [0x61#8, 0x64#8, 0x61#8, 0x70#8, 0x74#8, 0x69#8, 0x76#8, 0x65#8]

/-- `v2` (30_encoding.md R108). -/
def tokV2 : Text := [0x76#8, 0x32#8]

/-- `Resolution=` (30_encoding.md R108). -/
def tokResolution : Text :=
  [0x52#8, 0x65#8, 0x73#8, 0x6F#8, 0x6C#8, 0x75#8, 0x74#8, 0x69#8, 0x6F#8, 0x6E#8, 0x3D#8]

/-- The six white-space bytes of 30_encoding.md R98. -/
def isSpace (b : Byte) : Bool :=
  b == 0x20#8 || b == 0x09#8 || b == 0x0B#8 || b == 0x0C#8 || b == cr || b == lf

/-- Trimming (30_encoding.md R98). -/
def trim (t : Text) : Text :=
  ((t.dropWhile isSpace).reverse.dropWhile isSpace).reverse

/-- A stream cut into lines (30_encoding.md R96): CR LF, LF, and CR not followed by LF each end a line; what follows the last
terminator is the last line. A CR before an LF is dropped here, and the LF ends the line. -/
def lines : Text → List Text
  | [] => [[]]
  | b :: rest =>
    if b = lf then [] :: lines rest
    else if b = cr then (if rest.head? = some lf then lines rest else [] :: lines rest)
    else
      match lines rest with
      | [] => [[b]]
      | l :: ls => (b :: l) :: ls

/-- A line cut at every comma, the pieces not yet trimmed: `n` commas give `n + 1` pieces (30_encoding.md R100). -/
def cutCommas : Text → List Text
  | [] => [[]]
  | b :: rest =>
    if b = comma then [] :: cutCommas rest
    else
      match cutCommas rest with
      | [] => [[b]]
      | t :: ts => (b :: t) :: ts

/-- Splitting on commas (30_encoding.md R100): each piece trimmed. -/
def splitCommas (l : Text) : List Text :=
  (cutCommas l).map trim

/-- A decimal digit (30_encoding.md R99). -/
def isDigit (b : Byte) : Bool :=
  decide (0x30#8 ≤ b) && decide (b ≤ 0x39#8)

/-- One or more decimal digits as a number; `none` for anything else (30_encoding.md R99). -/
def digitsValue (t : Text) : Option Nat :=
  if t ≠ [] ∧ t.all isDigit = true then some (t.foldl (fun v b => 10 * v + (b.toNat - 0x30)) 0) else none

/-- The value of an integer token, `none` where the text is not one (30_encoding.md R99). -/
def intToken (t : Text) : Option Int :=
  match trim t with
  | [] => none
  | b :: ds =>
    if b = minus then (digitsValue ds).map (fun v : Nat => -(v : Int))
    else (digitsValue (b :: ds)).map (fun v : Nat => (v : Int))

/-- The value of a hexadecimal digit, both cases (30_encoding.md R107). -/
def hexDigit (b : Byte) : Option Nat :=
  if isDigit b then some (b.toNat - 0x30)
  else if decide (0x61#8 ≤ b) && decide (b ≤ 0x66#8) then some (b.toNat - 0x61 + 10)
  else if decide (0x41#8 ≤ b) && decide (b ≤ 0x46#8) then some (b.toNat - 0x41 + 10)
  else none

/-- The cell word of a cell token, `d1[2:0] ++ d2[3:0] ++ d3[3:0]`; `none` for a token that is not legal
(30_encoding.md R104, R107). -/
def cellToken (t : Text) : Option CellWord :=
  match trim t with
  | [b1, b2, b3] =>
    match hexDigit b1, hexDigit b2, hexDigit b3 with
    | some d1, some d2, some d3 =>
      if d1 ≤ 7 then some (BitVec.ofNat 3 d1 ++ BitVec.ofNat 4 d2 ++ BitVec.ofNat 4 d3) else none
    | _, _, _ => none
  | _ => none

/-! ### Writing -/

/-- The digits of `n` in front of `acc`; `fuel` bounds the number of digits. -/
def decimalAux : Nat → Nat → Text → Text
  | 0, _, acc => acc
  | fuel + 1, n, acc =>
    let acc' := BitVec.ofNat 8 (0x30 + n % 10) :: acc
    if n < 10 then acc' else decimalAux fuel (n / 10) acc'

/-- A natural number in decimal, without leading zeros. -/
def decimal (n : Nat) : Text :=
  decimalAux (n + 1) n []

/-- An integer as an integer token (30_encoding.md R99, R117). -/
def intText (v : Int) : Text :=
  if v < 0 then minus :: decimal v.natAbs else decimal v.natAbs

/-- A hexadecimal digit in lower case. -/
def hexText (d : Nat) : Byte :=
  if d < 10 then BitVec.ofNat 8 (0x30 + d) else BitVec.ofNat 8 (0x61 + (d - 10))

/-- A cell word as a cell token (30_encoding.md R104). -/
def cellText (cw : CellWord) : Text :=
  [hexText (cw.toNat / 256), hexText (cw.toNat / 16 % 16), hexText (cw.toNat % 16)]

/-- Pieces joined by commas (30_encoding.md R117). -/
def joinCommas : List Text → Text
  | [] => []
  | [t] => t
  | t :: ts => t ++ comma :: joinCommas ts

end Sys2Proof.Text
end

