-- ==== Sys2Proof/Syntax.lean ====
section
/-! DEFINITION. The instructions of the block, one constructor for each row of spec/opcode_table.json: host commands, variants
of `PLACE`, line kinds of the three text streams, element words (00_scope.md R1, 30_encoding.md R90). -/

namespace Sys2Proof

/-- A token of a line: its value, or `none` where the text is not a legal token of its kind (30_encoding.md R99, R107). An
illegal token is an operand like any other: it is the instruction's own rule that says which error it raises. -/
abbrev Token (α : Type) := Option α

/-- One instruction. -/
inductive Instr where
  /-- `NOP`, 0x00 (47_pipeline.md R321). -/
  | nop
  /-- `LDFRAME`, 0x01 (47_pipeline.md R322). -/
  | ldframe
  /-- `LDFILT.H`, 0x10 (40_filter_loader.md R140). -/
  | ldfiltH
  /-- `LDFILT.V`, 0x11 (40_filter_loader.md R140). -/
  | ldfiltV
  /-- `LDMASK`, 0x12 (41_mask_loader.md R170). -/
  | ldmask
  /-- `LDGAMMA`, 0x13 (42_gamma_loader.md R200). -/
  | ldgamma
  /-- `GAMMA`, 0x20 (45_gamma_compositor.md R280). -/
  | gamma
  /-- `HRESAMPLE`, 0x21 (43_resampler.md R216). -/
  | hresample
  /-- `VRESAMPLE`, 0x22 (43_resampler.md R217). -/
  | vresample
  /-- `SELPAT`, 0x23 (41_mask_loader.md R190). -/
  | selpat
  /-- `MASK`, 0x24 (44_mask_compositor.md R260). -/
  | mask
  /-- `RUN`, 0x2F (47_pipeline.md R330). -/
  | run
  /-- `PLACE`, 0x30 (46_placement.md R290). -/
  | place
  /-- `PLACE.FULL`, `PLACE` with `SCALE_MODE = 0` (46_placement.md R294). -/
  | placeFull
  /-- `PLACE.FIT`, `PLACE` with `SCALE_MODE = 1` (46_placement.md R296). -/
  | placeFit
  /-- `PLACE.VSCALE`, `PLACE` with `SCALE_MODE = 2` (46_placement.md R300). -/
  | placeVscale
  /-- `FLT.BLANK` (40_filter_loader.md R144). -/
  | fltBlank
  /-- `FLT.10BIT` (40_filter_loader.md R143). -/
  | flt10bit
  /-- `FLT.ADAPTIVE` (40_filter_loader.md R143). -/
  | fltAdaptive
  /-- `FLT.COMMENT`: the text after the `#` (40_filter_loader.md R144). -/
  | fltComment (text : Text)
  /-- `FLT.ROW`: the line's comma-separated tokens, integers (40_filter_loader.md R145). -/
  | fltRow (toks : List (Token Int))
  /-- `MSK.BLANK` (41_mask_loader.md R173). -/
  | mskBlank
  /-- `MSK.COMMENT`: the text after the `#` (41_mask_loader.md R173). -/
  | mskComment (text : Text)
  /-- `MSK.RES`: the integer after `Resolution=` (41_mask_loader.md R174). -/
  | mskRes (tok : Token Int)
  /-- `MSK.V2` (41_mask_loader.md R175). -/
  | mskV2
  /-- `MSK.DIMS`: the line's comma-separated tokens, integers (41_mask_loader.md R176). -/
  | mskDims (toks : List (Token Int))
  /-- `MSK.ROW`: the line's comma-separated tokens, cells (41_mask_loader.md R177). -/
  | mskRow (toks : List (Token CellWord))
  /-- `MSK.CELL`, one cell word (30_encoding.md R104). -/
  | mskCell (cw : CellWord)
  /-- `GAM.BLANK` (42_gamma_loader.md R202). -/
  | gamBlank
  /-- `GAM.COMMENT`: the text after the `#` (42_gamma_loader.md R202). -/
  | gamComment (text : Text)
  /-- `GAM.RGB`: the line's comma-separated tokens, integers (42_gamma_loader.md R203). -/
  | gamRgb (toks : List (Token Int))
  /-- `GAM.MONO`: the line as one integer token (42_gamma_loader.md R203). -/
  | gamMono (tok : Token Int)
  /-- `COEF32`, one coefficient as stored (30_encoding.md R112). -/
  | coef32 (v : Coef)
  /-- `GAM8`, one gamma entry as stored (30_encoding.md R112). -/
  | gam8 (v : Byte)
  /-- `PIX32`, one pixel (20_memory.md R62). -/
  | pix32 (p : Pixel)
  deriving DecidableEq, Repr

/-- The formats of 30_encoding.md R90. `cmd8reg` is the table's `CMD8+REG`: the command word together with the mode registers
of `PLACE`. -/
inductive Format where
  | cmd8
  | cmd8reg
  | fltLine
  | mskLine
  | gamLine
  | cell11
  | coef32
  | gam8
  | pix32
  deriving DecidableEq, Repr

/-- The states of the mask parser (41_mask_loader.md R172): decoding a mask line depends on it (30_encoding.md R114). -/
inductive MaskState where
  /-- A dimension line is expected. -/
  | dims
  /-- Some row lines of the current block are still to come. -/
  | rows
  /-- The current block has all its rows. -/
  | done
  deriving DecidableEq, Repr

/-- What decoding depends on beside the bytes (30_encoding.md R114; 46_placement.md R290). -/
structure Ctx where
  /-- Non-blank filter lines before this one. -/
  nb : Nat
  /-- The mask parser's state. -/
  maskState : MaskState
  /-- The register `SCALE_MODE`. -/
  scaleMode : Word
  /-- The register `VSCALE_MODE`. -/
  vscaleMode : Word
  deriving DecidableEq, Repr

/-- Why bytes are no instruction. -/
inductive Reject where
  /-- A command code that is not in 30_encoding.md R94: the command ends with `IllegalCommand` (R95). -/
  | illegalCommand
  /-- A data line of a mask stream where neither dimensions nor a row is expected: `BadMaskStructure` (41_mask_loader.md R180). -/
  | strayMaskLine
  /-- An element word or a command with the wrong number of bytes (the model's own encoding of words as bytes, log 11). -/
  | badLength
  /-- A cell word with a bit set above bit 10 (log 11). -/
  | reservedBits
  deriving DecidableEq, Repr

end Sys2Proof
end

