-- ==== Sys2Proof/WellFormed.lean ====
section
/-! DEFINITION. When an instruction is one a legal encoding stands for (30_encoding.md R101 to R112). An instruction that is
not well-formed still has its meaning: the error its rule names. -/

namespace Sys2Proof

/-- The text of a comment as a trimmed line leaves it: no line terminator, no trailing white space (30_encoding.md R96, R98). -/
def commentWf (t : Text) : Bool :=
  t.all (fun b => b != Text.lf && b != Text.cr) && (t.getLast?.all fun b => !Text.isSpace b)

/-- A coefficient that fits `COEF_BITS` (30_encoding.md R102, R112). -/
def coefFits (v : Int) : Bool :=
  decide (-2147483648 ≤ v) && decide (v ≤ 2147483647)

/-- The encodings admit this instruction (30_encoding.md R102, R107, R108, R110, R111). -/
def Instr.wf : Instr → Bool
  | .nop | .ldframe | .ldfiltH | .ldfiltV | .ldmask | .ldgamma | .gamma | .hresample | .vresample | .selpat | .mask
  | .run | .place | .placeFull | .placeFit | .placeVscale => true
  | .fltBlank | .flt10bit | .fltAdaptive => true
  | .fltComment t => commentWf t
  | .fltRow toks => decide (toks.length = 4) && toks.all (fun t => t.any coefFits)
  | .mskBlank | .mskV2 => true
  | .mskComment t => commentWf t
  | .mskRes tok => tok.any (fun v => decide (0 ≤ v))
  | .mskDims toks => decide (toks.length = 2) && toks.all (fun t => t.any fun v => decide (1 ≤ v))
  | .mskRow toks => decide (toks ≠ []) && toks.all Option.isSome
  | .mskCell _ => true
  | .gamBlank => true
  | .gamComment t => commentWf t
  | .gamRgb toks => decide (toks.length = 3) && toks.all Option.isSome
  | .gamMono tok => tok.isSome
  | .coef32 _ | .gam8 _ | .pix32 _ => true

end Sys2Proof
end

