-- ==== Sys2Proof/Decode.lean ====
section
/-! DEFINITION. Decoding (30_encoding.md), total on any bytes, rejecting by name; then the encoder. -/

namespace Sys2Proof

/-- The format an instruction is written in (30_encoding.md R90). -/
def Instr.format : Instr → Format
  | .nop | .ldframe | .ldfiltH | .ldfiltV | .ldmask | .ldgamma | .gamma | .hresample | .vresample | .selpat | .mask
  | .run | .place => .cmd8
  | .placeFull | .placeFit | .placeVscale => .cmd8reg
  | .fltBlank | .flt10bit | .fltAdaptive | .fltComment _ | .fltRow _ => .fltLine
  | .mskBlank | .mskComment _ | .mskRes _ | .mskV2 | .mskDims _ | .mskRow _ => .mskLine
  | .mskCell _ => .cell11
  | .gamBlank | .gamComment _ | .gamRgb _ | .gamMono _ => .gamLine
  | .coef32 _ => .coef32
  | .gam8 _ => .gam8
  | .pix32 _ => .pix32

/-! ### Commands -/

/-- The command of a code (30_encoding.md R94); every other code is reserved (R95). -/
def decodeCmd (code : Byte) : Except Reject Instr :=
  match code.toNat with
  | 0x00 => .ok .nop
  | 0x01 => .ok .ldframe
  | 0x10 => .ok .ldfiltH
  | 0x11 => .ok .ldfiltV
  | 0x12 => .ok .ldmask
  | 0x13 => .ok .ldgamma
  | 0x20 => .ok .gamma
  | 0x21 => .ok .hresample
  | 0x22 => .ok .vresample
  | 0x23 => .ok .selpat
  | 0x24 => .ok .mask
  | 0x2F => .ok .run
  | 0x30 => .ok .place
  | _ => .error .illegalCommand

/-- The variant of `PLACE` the mode registers select; `PLACE` itself where they select none, and then the command raises
`InvalidScalingMode` or `InvalidStepMode` (46_placement.md R290 to R292). -/
def placeVariant (c : Ctx) : Instr :=
  if c.scaleMode = 0#32 then .placeFull
  else if c.scaleMode = 1#32 then .placeFit
  else if c.scaleMode = 2#32 ∧ (c.vscaleMode = 1#32 ∨ c.vscaleMode = 2#32 ∨ c.vscaleMode = 3#32) then .placeVscale
  else .place

/-- A command word together with the mode registers: as `decodeCmd`, with `PLACE` resolved to its variant. -/
def decodeCmdReg (c : Ctx) (code : Byte) : Except Reject Instr :=
  if code = 0x30#8 then .ok (placeVariant c) else decodeCmd code

/-! ### Lines -/

/-- A filter-stream line (30_encoding.md R101): the first test that holds; `nb` counts the non-blank lines before it, so this
one, if it is not blank, is number `nb + 1`. -/
def decodeFlt (nb : Nat) (line : Text) : Instr :=
  match Text.trim line with
  | [] => .fltBlank
  | b :: rest =>
    if nb + 1 ≤ 5 ∧ b :: rest = Text.tok10bit then .flt10bit
    else if nb + 1 ≤ 5 ∧ b :: rest = Text.tokAdaptive then .fltAdaptive
    else if b = Text.hash then .fltComment rest
    else .fltRow ((Text.splitCommas (b :: rest)).map Text.intToken)

/-- A mask-stream line (30_encoding.md R108, 41_mask_loader.md R172). -/
def decodeMsk (st : MaskState) (line : Text) : Except Reject Instr :=
  match Text.trim line with
  | [] => .ok .mskBlank
  | b :: rest =>
    if b = Text.hash then .ok (.mskComment rest)
    else if (b :: rest).take 11 = Text.tokResolution then .ok (.mskRes (Text.intToken ((b :: rest).drop 11)))
    else
      match st with
      | .dims =>
        if b :: rest = Text.tokV2 then .ok .mskV2
        else .ok (.mskDims ((Text.splitCommas (b :: rest)).map Text.intToken))
      | .rows => .ok (.mskRow ((Text.splitCommas (b :: rest)).map Text.cellToken))
      | .done => .error .strayMaskLine

/-- A gamma-stream line (30_encoding.md R110). -/
def decodeGam (line : Text) : Instr :=
  match Text.trim line with
  | [] => .gamBlank
  | b :: rest =>
    if b = Text.hash then .gamComment rest
    else if Text.comma ∈ b :: rest then .gamRgb ((Text.splitCommas (b :: rest)).map Text.intToken)
    else .gamMono (Text.intToken (b :: rest))

/-! ### Words -/

/-- Bytes as one number, the first the least significant (the byte order of the model's own encoding of words, log 11). -/
def leNat : List Byte → Nat
  | [] => 0
  | b :: rest => b.toNat + 256 * leNat rest

/-- `n` as `k` bytes, the least significant first. -/
def leBytes : Nat → Nat → List Byte
  | 0, _ => []
  | k + 1, n => BitVec.ofNat 8 n :: leBytes k (n / 256)

/-- A cell word in two bytes (30_encoding.md R104; log 11). -/
def decodeCell (bs : List Byte) : Except Reject Instr :=
  if bs.length = 2 then
    if leNat bs < 2048 then .ok (.mskCell (BitVec.ofNat 11 (leNat bs))) else .error .reservedBits
  else .error .badLength

/-- A coefficient word in four bytes (30_encoding.md R112; log 11). -/
def decodeCoef (bs : List Byte) : Except Reject Instr :=
  if bs.length = 4 then .ok (.coef32 (BitVec.ofNat 32 (leNat bs))) else .error .badLength

/-- A gamma entry, one byte (30_encoding.md R112). -/
def decodeGam8 : List Byte → Except Reject Instr
  | [v] => .ok (.gam8 v)
  | _ => .error .badLength

/-- A pixel, bytes R, G, B, A in increasing index order (20_memory.md R62). -/
def decodePix : List Byte → Except Reject Instr
  | [r, g, b, a] => .ok (.pix32 ⟨r, g, b, a⟩)
  | _ => .error .badLength

/-- THE DECODER: the instruction that bytes of a format stand for in a context. -/
def decode (f : Format) (c : Ctx) (bs : List Byte) : Except Reject Instr :=
  match f with
  | .cmd8 =>
    match bs with
    | [code] => decodeCmd code
    | _ => .error .badLength
  | .cmd8reg =>
    match bs with
    | [code] => decodeCmdReg c code
    | _ => .error .badLength
  | .fltLine => .ok (decodeFlt c.nb bs)
  | .mskLine => decodeMsk c.maskState bs
  | .gamLine => .ok (decodeGam bs)
  | .cell11 => decodeCell bs
  | .coef32 => decodeCoef bs
  | .gam8 => decodeGam8 bs
  | .pix32 => decodePix bs

/-- The contexts in which an instruction's encoding stands for it (30_encoding.md R101, R108, R114; 46_placement.md R290). -/
def Instr.admittedIn (c : Ctx) : Instr → Bool
  | .nop | .ldframe | .ldfiltH | .ldfiltV | .ldmask | .ldgamma | .gamma | .hresample | .vresample | .selpat | .mask
  | .run | .place => true
  | .placeFull => decide (c.scaleMode = 0#32)
  | .placeFit => decide (c.scaleMode = 1#32)
  | .placeVscale =>
    decide (c.scaleMode = 2#32) && decide (c.vscaleMode = 1#32 ∨ c.vscaleMode = 2#32 ∨ c.vscaleMode = 3#32)
  | .flt10bit | .fltAdaptive => decide (c.nb < 5)
  | .fltBlank | .fltComment _ | .fltRow _ => true
  | .mskV2 | .mskDims _ => decide (c.maskState = .dims)
  | .mskRow _ => decide (c.maskState = .rows)
  | .mskBlank | .mskComment _ | .mskRes _ => true
  | .gamBlank | .gamComment _ | .gamRgb _ | .gamMono _ => true
  | .mskCell _ | .coef32 _ | .gam8 _ | .pix32 _ => true

/-! ### The encoder -/

/-- A token as text; an illegal token is written as the empty text, which is no legal token of any kind. -/
def tokenText {α : Type} (write : α → Text) : Token α → Text
  | some v => write v
  | none => []

/-- The bytes of an instruction: a command's code (30_encoding.md R94), a line as trimmed text (R101, R108, R110, R115), a word
in the model's byte order (log 11). -/
def encode : Instr → List Byte
  | .nop => [0x00#8]
  | .ldframe => [0x01#8]
  | .ldfiltH => [0x10#8]
  | .ldfiltV => [0x11#8]
  | .ldmask => [0x12#8]
  | .ldgamma => [0x13#8]
  | .gamma => [0x20#8]
  | .hresample => [0x21#8]
  | .vresample => [0x22#8]
  | .selpat => [0x23#8]
  | .mask => [0x24#8]
  | .run => [0x2F#8]
  | .place => [0x30#8]
  | .placeFull => [0x30#8]
  | .placeFit => [0x30#8]
  | .placeVscale => [0x30#8]
  | .fltBlank => []
  | .flt10bit => Text.tok10bit
  | .fltAdaptive => Text.tokAdaptive
  | .fltComment t => Text.hash :: t
  | .fltRow toks => Text.joinCommas (toks.map (tokenText Text.intText))
  | .mskBlank => []
  | .mskComment t => Text.hash :: t
  | .mskRes tok => Text.tokResolution ++ tokenText Text.intText tok
  | .mskV2 => Text.tokV2
  | .mskDims toks => Text.joinCommas (toks.map (tokenText Text.intText))
  | .mskRow toks => Text.joinCommas (toks.map (tokenText Text.cellText))
  | .mskCell cw => leBytes 2 cw.toNat
  | .gamBlank => []
  | .gamComment t => Text.hash :: t
  | .gamRgb toks => Text.joinCommas (toks.map (tokenText Text.intText))
  | .gamMono tok => tokenText Text.intText tok
  | .coef32 v => leBytes 4 v.toNat
  | .gam8 v => [v]
  | .pix32 p => [p.r, p.g, p.b, p.a]

/-! ### Words of the opcode table -/

/-- The format a word of `nbits` bits is read in: the table gives bits to the commands (8) and to the cell word (11, in two
bytes); a word of 32 bits is read as a coefficient (log 11). -/
def tableFormat (nbits : Nat) : Option Format :=
  if nbits ≤ 8 then some .cmd8
  else if nbits ≤ 16 then some .cell11
  else if nbits = 32 then some .coef32
  else none

/-- The bytes of a table word in that format, bits above `nbits` zero. -/
def tableBytes (nbits w : Nat) : List Byte :=
  leBytes ((nbits + 7) / 8) (w % 2 ^ nbits)

/-- A context for words, which no word's decoding depends on. -/
def Ctx.initial : Ctx := ⟨0, .dims, 0#32, 0#32⟩

/-- The instruction the decoder reads from a word of the opcode table. -/
def decodeTableWord (nbits w : Nat) : Option Instr :=
  match tableFormat nbits with
  | none => none
  | some f =>
    match decode f Ctx.initial (tableBytes nbits w) with
    | .ok i => some i
    | .error _ => none

end Sys2Proof
end

