-- ==== Sys2Proof/Machine/Work.lean ====
section
/-! DEFINITION. The datapath working registers (10_state.md R21) and the sequencer's coordinates (R22). They are transient:
written before they are read inside every command, of no specified value between commands (log 7). -/

namespace Sys2Proof.Machine

/-- The resampler's working registers for one destination element (10_state.md R21; 43_resampler.md R219 to R241).
`accL` is computed for an adaptive filter only and is a free value for any other (log 22). -/
structure ResampleRegs where
  /-- `I`, the destination coordinate. -/
  i : Nat
  /-- `N`, the scaled source position (R220). -/
  n : Int
  /-- `BASE` (R220). -/
  base : Int
  /-- `REM` (R220). -/
  rem : Int
  /-- `PHASE` (R220). -/
  phase : Nat
  /-- `A[0..3]`, the clamped tap coordinates (R224). -/
  a : Quad Nat
  /-- `T[c][0..3]`, the tap samples (R225). -/
  t : Chan (Quad Byte)
  /-- `ACC_D[c]`, the dark accumulators (R230). -/
  accD : Chan Int
  /-- `ACC_L[c]`, the light accumulators (R230, R233; log 22). -/
  accL : Chan Int
  /-- `NUM[c]` (R232, R233). -/
  num : Chan Int
  /-- `DEN` (R232, R233). -/
  den : Int
  /-- `Q[c]`, the quantised output (R240). -/
  q : Chan Byte
  deriving DecidableEq, Repr, Inhabited

/-- The mask compositor's working registers for one pixel (10_state.md R21; 44_mask_compositor.md R262 to R264). -/
structure MaskRegs where
  /-- `MX`, the mask column coordinate before the tiling (R262). -/
  mx : Nat
  /-- `MY`, the mask row coordinate before the tiling (R262). -/
  my : Nat
  /-- `CW`, the fetched cell word (R263). -/
  cw : CellWord
  /-- `ADD[c]` (R264). -/
  add : Chan Int
  /-- `SUB[c]` (R264). -/
  sub : Chan Int
  /-- `NEWV[c]` (R264). -/
  newv : Chan Int
  deriving DecidableEq, Repr, Inhabited

/-- The placement unit's working registers (10_state.md R21; 46_placement.md R300). -/
structure PlaceRegs where
  /-- `K`, the step count. -/
  k : Nat
  /-- `SW`, the scaled width. -/
  sw : Nat
  /-- `SH`, the scaled height. -/
  sh : Nat
  deriving DecidableEq, Repr, Inhabited

/-- All working registers, with the sequencer's coordinates `SEQ.Y` and `SEQ.X` (10_state.md R22). -/
structure Work where
  seqY : Nat
  seqX : Nat
  resample : ResampleRegs
  mask : MaskRegs
  place : PlaceRegs
  deriving DecidableEq, Repr, Inhabited

end Sys2Proof.Machine
end

