-- ==== Sys2Proof/Config.lean ====
section
/-! DEFINITION. What an implementation fixes (the OPEN parameters, 00_scope.md R6) and the free values the spec leaves open. -/

namespace Sys2Proof.Config

/-- The OPEN parameters of 00_scope.md R6: each a limit, or `none` where the implementation has no limit (R7). A `State`
holds one such record, so that a statement about every state is a statement about every choice of limits (log 4). -/
structure Limits where
  /-- `MAX_EXTENT`. -/
  maxExtent : Option Nat
  /-- `MASK_MAX_W`. -/
  maskMaxW : Option Nat
  /-- `MASK_MAX_H`. -/
  maskMaxH : Option Nat
  /-- `MASK_MAX_SETS`. -/
  maskMaxSets : Option Nat
  /-- `TXT_MAX_LEN`. -/
  txtMaxLen : Option Nat
  deriving DecidableEq, Repr

/-- No limit at all: 00_scope.md R7 and 93_implementation_defined.md U9 let a model take the limits as infinite. -/
def unlimited : Limits := ⟨none, none, none, none, none⟩

/-- FREE VALUE (log 8): what the host reads from a 32-bit register whose exact value needs more than 32 bits. The arguments
are the register's number and the exact value: the same state reads the same (70_reset_and_hazards.md R405). -/
opaque wideRegister : Nat → Nat → Word

/-- FREE VALUE (log 7): what the working registers and the sequencer's coordinates hold after a command that used them
(10_state.md R21: "each has an unspecified value at reset and between commands"). The argument is the state's draw counter. -/
opaque freeWork : Nat → Machine.Work

/-- FREE VALUE (log 22): what `ACC_L` holds in the working registers of an element of a non-adaptive filter, which does not write
it (43_resampler.md R219). -/
opaque unwrittenAccL : Chan Int

/-- FREE VALUE (log 21): the content of a byte of `TXT` that the host has not written since reset (10_state.md R42: "unspecified
content at reset"). The arguments are the number of platform resets so far and the byte's index: a byte reads the same until it
is written or the next reset (20_memory.md R67). -/
opaque unwrittenTxt : Nat → Nat → Byte

/-- FREE VALUE (log 21): the same for a byte of `FIN`. -/
opaque unwrittenFin : Nat → Nat → Byte

end Sys2Proof.Config
end

