-- ==== Sys2Proof/Machine/State.lean ====
section
/-! DEFINITION. The state of the block as plain data (10_state.md), the errors of its commands (60_exceptions.md R350), the
reasons a step can stop, and the state after reset (10_state.md R43, 70_reset_and_hazards.md R390). -/

namespace Sys2Proof.Machine

/-- The sixteen command errors (60_exceptions.md R350). -/
inductive CmdError where
  | malformedCoefficientRow
  | emptyFilter
  | oddAdaptiveRowCount
  | invalidPhaseCount
  | missingDimensions
  | noPatternsFound
  | gammaTableOverflow
  | gammaTableSizeMismatch
  | invalidScalingMode
  | invalidStepMode
  | illegalCommand
  | notReady
  | badToken
  | badMaskStructure
  | badGammaLine
  | limitExceeded
  deriving DecidableEq, Repr

/-- An error together with its information word (00_scope.md R12, 10_state.md R27). -/
structure Raise where
  code : CmdError
  info : Nat
  deriving DecidableEq, Repr

/-- The registers the host reads and writes (10_state.md R26, access RW). -/
structure HostRegs where
  /-- `CTRL`: bit 0 `GAMMA_EN`, bit 1 `MASK_EN`, bit 2 `MASK_2X`; no other bit exists (R26, R28). -/
  ctrl : BitVec 3
  dstW : Word
  dstH : Word
  outW : Word
  outH : Word
  scaleMode : Word
  vscaleMode : Word
  aspectNum : Word
  aspectDen : Word
  srcW : Word
  srcH : Word
  txtLen : Word
  frmW : Word
  frmH : Word
  deriving DecidableEq, Repr

/-- `STATUS` and `ERRINFO` (10_state.md R23, R27). -/
structure Status where
  /-- `STATUS.ERR`, `none` for code 0. -/
  err : Option CmdError
  /-- `STATUS.DONE`. -/
  done : Bool
  /-- `STATUS.ESTICKY`. -/
  esticky : Bool
  /-- `ERRINFO`, as an exact number; the host reads it through a 32-bit register (log 8). -/
  info : Nat
  deriving DecidableEq, Repr

/-- What a valid filter slot holds (10_state.md R35). `NROWS` is the number of rows; `NPHASES` and `DIV` are derived. -/
structure FilterSlot where
  tenbit : Bool
  adaptive : Bool
  warn : Bool
  rows : List (Quad Coef)
  deriving DecidableEq, Repr

/-- One pattern set of the mask slot (10_state.md R37): `RES`, `W`, `H` and the cells, row by row. -/
structure PatternSet where
  res : Nat
  w : Nat
  h : Nat
  cells : List (List CellWord)
  deriving DecidableEq, Repr

/-- What a valid gamma slot holds: `GLUT[c][v]`, 256 entries for each channel (10_state.md R39). -/
structure GammaTable where
  r : List Byte
  g : List Byte
  b : List Byte
  deriving DecidableEq, Repr

/-- The four table slots; `none` is an invalid slot (10_state.md R34). -/
structure Tables where
  filtH : Option FilterSlot
  filtV : Option FilterSlot
  mask : Option (List PatternSet)
  gamma : Option GammaTable
  deriving DecidableEq, Repr

/-- The selection latch while it is valid: `MASK_SEL`, `MASK_SEL_RES`, `MASK_SEL_W`, `MASK_SEL_H` (10_state.md R38), as exact
numbers; the host reads them through 32-bit registers (log 8). -/
structure Selection where
  idx : Nat
  res : Nat
  w : Nat
  h : Nat
  deriving DecidableEq, Repr

/-- The placement result while it is valid: `PL_SNUM`, `PL_SDEN`, `PL_W`, `PL_H`, `PL_LEFT`, `PL_TOP` (10_state.md R32), as exact
numbers; the host reads them through 32-bit registers (log 8). -/
structure Placement where
  snum : Nat
  sden : Nat
  w : Nat
  h : Nat
  left : Nat
  top : Nat
  deriving DecidableEq, Repr

/-- A frame: width, height, and the pixels row by row, row 0 the top row (10_state.md R40, 20_memory.md R62). -/
structure Frame where
  w : Nat
  h : Nat
  px : List (List Pixel)
  deriving DecidableEq, Repr

/-- `SEQ.STAGE` (10_state.md R22). -/
inductive Stage where
  | idle
  | gamma
  | hresample
  | vresample
  | selpat
  | mask
  | load
  | place
  deriving DecidableEq, Repr

/-- The filter loader's working values (40_filter_loader.md R142). `cur` holds the coefficients of the row in flight. -/
structure FltWork where
  tenbit : Bool
  adaptive : Bool
  rows : List (Quad Coef)
  nb : Nat
  cur : List Coef
  deriving DecidableEq, Repr

/-- The mask loader's working values (41_mask_loader.md R172). `cells` holds the rows stored so far, `got` of them; `cur` holds
the cells of the row in flight. -/
structure MskWork where
  sets : List PatternSet
  res : Nat
  state : MaskState
  w : Nat
  h : Nat
  cells : List (List CellWord)
  cur : List CellWord
  deriving DecidableEq, Repr

/-- The gamma loader's working values (42_gamma_loader.md R202): the entries stored so far, `n` of them. `cur` holds the
channel values of the entry in flight. -/
structure GamWork where
  lut : List (Chan Byte)
  cur : List Byte
  deriving DecidableEq, Repr

/-- The loader's working values (60_exceptions.md R364): they live inside one command and are discarded when it ends. -/
structure Loader where
  /-- The number of the line being processed (30_encoding.md R97). -/
  ln : Nat
  flt : FltWork
  msk : MskWork
  gam : GamWork
  /-- The pixels `LDFRAME` has read so far, in row-major order (47_pipeline.md R322). -/
  pix : List Pixel
  deriving DecidableEq, Repr

/-- The working values a load command starts from (40_filter_loader.md R142, 41_mask_loader.md R172, 42_gamma_loader.md R202). -/
def Loader.start : Loader where
  ln := 0
  flt := ⟨false, false, [], 0, []⟩
  msk := ⟨[], 0, .dims, 0, 0, [], []⟩
  gam := ⟨[], []⟩
  pix := []

/-- A port memory: the bytes written since reset as (index, byte), indices strictly rising; an index that is not listed holds
no byte (10_state.md R42; log 9). -/
abbrev Memory := List Host.Cell

/-- What the host last read (the model's own latch, log 13). -/
structure HostRead where
  word : Word
  pixel : Pixel
  byte : Byte
  deriving DecidableEq, Repr

/-- One move of the host, or of the platform (10_state.md R26, R40, R42; 47_pipeline.md R323, R337; 70_reset_and_hazards.md R390). -/
inductive HostMove where
  /-- Write a control register by its number; a write of `CMD` (0x00) issues the command. -/
  | writeReg (n : Nat) (v : Word)
  /-- Read a control register by its number. -/
  | readReg (n : Nat)
  /-- Write bytes to `TXT` from an index on. -/
  | writeTxt (at_ : Nat) (bytes : List Byte)
  /-- Write bytes to `FIN` from an index on. -/
  | writeFin (at_ : Nat) (bytes : List Byte)
  /-- Read one byte of `TXT`. -/
  | readTxt (i : Nat)
  /-- Read one byte of `FIN`. -/
  | readFin (i : Nat)
  /-- Read one pixel of the working frame. -/
  | readPixel (y x : Nat)
  /-- Read one byte of the working frame's byte view. -/
  | readFrameByte (k : Nat)
  /-- Platform reset. -/
  | reset
  deriving DecidableEq, Repr

/-- One entry of the feed: a move of the host, or one instruction a command is made of (a line, an element word) given to the
block on its own (log 2). -/
inductive FeedItem where
  | host (m : HostMove)
  | unit (f : Format) (bytes : List Byte)
  deriving DecidableEq, Repr

/-- The machine. -/
structure State where
  /-- The OPEN parameters (00_scope.md R6): fixed for the machine, no step changes them (log 4). -/
  lim : Config.Limits
  /-- The RW control registers (10_state.md R26). -/
  csr : HostRegs
  /-- `STATUS` and `ERRINFO` (10_state.md R23, R27). -/
  status : Status
  /-- The table slots (10_state.md R34). -/
  tables : Tables
  /-- The selection latch, `none` while `VALID_SEL = 0` (10_state.md R38). -/
  sel : Option Selection
  /-- The placement result, `none` while `VALID_PL = 0` (10_state.md R32). -/
  pl : Option Placement
  /-- The working frame, `none` while it is invalid (10_state.md R40). -/
  wf : Option Frame
  /-- The port `TXT` (10_state.md R42). -/
  txt : Memory
  /-- The port `FIN` (10_state.md R42). -/
  fin : Memory
  /-- `SEQ.STAGE` (10_state.md R22). -/
  seq : Stage
  /-- The working registers and `SEQ.Y`, `SEQ.X` (10_state.md R21, R22). -/
  work : Work
  /-- The loader's working values (60_exceptions.md R364). -/
  ld : Loader
  /-- MODEL'S OWN: what the host last read (log 13). -/
  rd : HostRead
  /-- MODEL'S OWN: how many times free values were drawn (log 7). -/
  freeCount : Nat
  /-- MODEL'S OWN: how many platform resets there were; unwritten port bytes are free anew after each (log 21). -/
  resets : Nat
  /-- MODEL'S OWN: what the host and the platform will do, the next move first (log 1). -/
  feed : List FeedItem
  deriving DecidableEq, Repr

/-- Why the machine stops with a fault. -/
inductive Fault where
  /-- The host reads a pixel, or a byte of a pixel, that is not in the working frame: the frame is invalid, or the row, the
  column or the byte's index is outside it (10_state.md R40: the host may read "any pixel of a valid WF"). Raised by the host
  moves `readPixel` and `readFrameByte` only, by no instruction. Safe: the machine stops where the spec gives the access no effect (log 12). -/
  | pixelOutsideFrame
  deriving DecidableEq, Repr

/-- Why a step has no meaning. -/
inductive Refusal where
  /-- An instruction that has no meaning in this model yet; raised by arms of `exec` only. Safe. -/
  | notModelled (mnemonic : String)
  /-- A feed entry of the model's own whose bytes are no word of its format. Raised by the fetch, by no instruction; no move of
  the host makes one. Safe (log 2). -/
  | notAWord (why : Reject)
  deriving DecidableEq, Repr

/-- All working registers at zero, the model's reset value for them (log 7). -/
def Work.zero : Work where
  seqY := 0
  seqX := 0
  resample :=
    { i := 0, n := 0, base := 0, rem := 0, phase := 0, a := ⟨0, 0, 0, 0⟩
      t := ⟨⟨0, 0, 0, 0⟩, ⟨0, 0, 0, 0⟩, ⟨0, 0, 0, 0⟩⟩
      accD := ⟨0, 0, 0⟩, accL := ⟨0, 0, 0⟩, num := ⟨0, 0, 0⟩, den := 0, q := ⟨0, 0, 0⟩ }
  mask := { mx := 0, my := 0, cw := 0, add := ⟨0, 0, 0⟩, sub := ⟨0, 0, 0⟩, newv := ⟨0, 0, 0⟩ }
  place := { k := 0, sw := 0, sh := 0 }

/-- The machine right after reset (10_state.md R43, 70_reset_and_hazards.md R390, R391): every register 0, every slot, the
frame, the placement result and the selection invalid, no port byte written, the sequencer idle. -/
def State.reset : State where
  lim := Config.unlimited
  csr := ⟨0, 0, 0, 0, 0, 0, 0, 0, 0, 0, 0, 0, 0, 0⟩
  status := ⟨none, false, false, 0⟩
  tables := ⟨none, none, none, none⟩
  sel := none
  pl := none
  wf := none
  txt := []
  fin := []
  seq := .idle
  work := Work.zero
  ld := Loader.start
  rd := ⟨0, ⟨0, 0, 0, 0⟩, 0⟩
  freeCount := 0
  resets := 0
  feed := []

end Sys2Proof.Machine
end

