-- ==== Sys2Proof/Machine/Flags.lean ====
section
/-! DEFINITION. The status flags, the register views of slots and results, and the control register file as the host reads and
writes it (10_state.md R23, R24, R26, R32, R35, R38; 93_implementation_defined.md U7). The datapath keeps no arithmetic flag
(R25). -/

namespace Sys2Proof

/-- All four coefficients of a row satisfy `p`. -/
def Quad.all {α : Type} (p : α → Bool) (q : Quad α) : Bool :=
  p q.k0 && p q.k1 && p q.k2 && p q.k3

end Sys2Proof

namespace Sys2Proof.Machine

/-! ### Error codes -/

/-- The code an error leaves in `STATUS.ERR` (60_exceptions.md R350). -/
def CmdError.code : CmdError → Byte
  | .malformedCoefficientRow => 1
  | .emptyFilter => 2
  | .oddAdaptiveRowCount => 3
  | .invalidPhaseCount => 4
  | .missingDimensions => 5
  | .noPatternsFound => 6
  | .gammaTableOverflow => 7
  | .gammaTableSizeMismatch => 8
  | .invalidScalingMode => 9
  | .invalidStepMode => 10
  | .illegalCommand => 16
  | .notReady => 17
  | .badToken => 18
  | .badMaskStructure => 19
  | .badGammaLine => 20
  | .limitExceeded => 21

/-- `STATUS.ERR` as a number: 0 is "no error" (60_exceptions.md R350). -/
def Status.errCode (st : Status) : Byte :=
  match st.err with
  | none => 0
  | some e => e.code

/-- The register `STATUS`: [7:0] `ERR`, [8] `DONE`, [9] `ESTICKY` (10_state.md R26). -/
def Status.word (st : Status) : Word :=
  0#22 ++ BitVec.ofBool st.esticky ++ BitVec.ofBool st.done ++ st.errCode

/-! ### Filter slots -/

/-- `NROWS` (10_state.md R35). -/
def FilterSlot.nrows (f : FilterSlot) : Nat :=
  f.rows.length

/-- `NPHASES`: `NROWS / (ADAPTIVE ? 2 : 1)` (10_state.md R35). -/
def FilterSlot.nphases (f : FilterSlot) : Nat :=
  f.rows.length / (if f.adaptive then 2 else 1)

/-- `DIV`: 128 in 9-bit mode, 256 in 10-bit mode (10_state.md R35, 43_resampler.md R232). -/
def FilterSlot.div (f : FilterSlot) : Nat :=
  if f.tenbit then 256 else 128

/-- The legal phase counts, `PHASE_SET` (00_scope.md R6). -/
def legalPhases (n : Nat) : Bool :=
  n == 4 || n == 8 || n == 16 || n == 64 || n == 256

/-- A coefficient inside the range of its mode: [-512, 511] in 10-bit mode, [-256, 255] in 9-bit mode
(40_filter_loader.md R152). -/
def inModeRange (tenbit : Bool) (v : Int) : Bool :=
  if tenbit then decide (-512 ≤ v) && decide (v ≤ 511) else decide (-256 ≤ v) && decide (v ≤ 255)

/-- The range warning `WARN` of a row list in a mode (10_state.md R24, 40_filter_loader.md R152). -/
def rangeWarning (tenbit : Bool) (rows : List (Quad Coef)) : Bool :=
  !rows.all (fun q => q.all (fun c => inModeRange tenbit c.toInt))

/-- `FILT_s_DESC` of a valid slot: [8:0] `NPHASES`, [16] `TENBIT`, [17] `ADAPTIVE`, [27:18] `NROWS` (10_state.md R26). -/
def FilterSlot.desc (f : FilterSlot) : Word :=
  0#4 ++ BitVec.ofNat 10 f.nrows ++ BitVec.ofBool f.adaptive ++ BitVec.ofBool f.tenbit ++ 0#7 ++ BitVec.ofNat 9 f.nphases

/-- `FILT_s_DESC`, 0 while the slot is invalid. -/
def filterDesc : Option FilterSlot → Word
  | none => 0
  | some f => f.desc

/-- `SLOTS.WARN_s`, 0 while the slot is invalid. -/
def filterWarn : Option FilterSlot → Bool
  | none => false
  | some f => f.warn

/-! ### Register views -/

/-- `CTRL.GAMMA_EN` (10_state.md R28). -/
def HostRegs.gammaEn (r : HostRegs) : Bool := r.ctrl.getLsbD 0

/-- `CTRL.MASK_EN` (10_state.md R28). -/
def HostRegs.maskEn (r : HostRegs) : Bool := r.ctrl.getLsbD 1

/-- `CTRL.MASK_2X` (10_state.md R28). -/
def HostRegs.mask2x (r : HostRegs) : Bool := r.ctrl.getLsbD 2

/-- `WF.W`, 0 while `WF` is invalid (10_state.md R26, R40). -/
def State.wfW (s : State) : Nat := (s.wf.map Frame.w).getD 0

/-- `WF.H`, 0 while `WF` is invalid (10_state.md R26, R40). -/
def State.wfH (s : State) : Nat := (s.wf.map Frame.h).getD 0

/-- The register `SLOTS` (10_state.md R26). -/
def State.slotsWord (s : State) : Word :=
  0#22 ++ BitVec.ofBool (filterWarn s.tables.filtV) ++ BitVec.ofBool (filterWarn s.tables.filtH) ++ 0#1
    ++ BitVec.ofBool s.sel.isSome ++ BitVec.ofBool s.pl.isSome ++ BitVec.ofBool s.wf.isSome
    ++ BitVec.ofBool s.tables.gamma.isSome ++ BitVec.ofBool s.tables.mask.isSome
    ++ BitVec.ofBool s.tables.filtV.isSome ++ BitVec.ofBool s.tables.filtH.isSome

/-- The number of pattern sets, 0 while the slot is invalid (10_state.md R26). -/
def maskNsets : Option (List PatternSet) → Nat
  | none => 0
  | some sets => sets.length

/-- A number of the selection latch, 0 while it is invalid (10_state.md R38). -/
def selField (get : Selection → Nat) (sel : Option Selection) : Nat :=
  (sel.map get).getD 0

/-- A number of the placement result, 0 while it is invalid (10_state.md R32). -/
def plField (get : Placement → Nat) (pl : Option Placement) : Nat :=
  (pl.map get).getD 0

/-- The number `n` read through the 32-bit register `reg`: `n` itself when it fits, else a free value (log 8). -/
def regView (reg n : Nat) : Word :=
  if n < 4294967296 then BitVec.ofNat 32 n else Config.wideRegister reg n

/-- What the host reads from a control register (10_state.md R26). A read of `CMD` and of a reserved number returns 0 (R26,
93_implementation_defined.md U7). Reading changes nothing (20_memory.md R67). -/
def State.regRead (s : State) (n : Nat) : Word :=
  match n with
  | 0x01 => s.status.word
  | 0x02 => regView 0x02 s.status.info
  | 0x03 => s.csr.ctrl.setWidth 32
  | 0x04 => s.csr.dstW
  | 0x05 => s.csr.dstH
  | 0x06 => s.csr.outW
  | 0x07 => s.csr.outH
  | 0x08 => s.csr.scaleMode
  | 0x09 => s.csr.vscaleMode
  | 0x0A => s.csr.aspectNum
  | 0x0B => s.csr.aspectDen
  | 0x0C => s.csr.srcW
  | 0x0D => s.csr.srcH
  | 0x0E => s.csr.txtLen
  | 0x0F => s.csr.frmW
  | 0x10 => s.csr.frmH
  | 0x11 => regView 0x11 s.wfW
  | 0x12 => regView 0x12 s.wfH
  | 0x13 => s.slotsWord
  | 0x14 => filterDesc s.tables.filtH
  | 0x15 => filterDesc s.tables.filtV
  | 0x16 => regView 0x16 (maskNsets s.tables.mask)
  | 0x17 => regView 0x17 (selField Selection.idx s.sel)
  | 0x18 => regView 0x18 (selField Selection.res s.sel)
  | 0x19 => regView 0x19 (selField Selection.w s.sel)
  | 0x1A => regView 0x1A (selField Selection.h s.sel)
  | 0x1B => regView 0x1B (plField Placement.snum s.pl)
  | 0x1C => regView 0x1C (plField Placement.sden s.pl)
  | 0x1D => regView 0x1D (plField Placement.w s.pl)
  | 0x1E => regView 0x1E (plField Placement.h s.pl)
  | 0x1F => regView 0x1F (plField Placement.left s.pl)
  | 0x20 => regView 0x20 (plField Placement.top s.pl)
  | _ => 0

/-- What a host write of a register number other than `CMD` does to the RW registers (10_state.md R26, R33): read-only and
reserved numbers ignore it; of `CTRL` only bits 2..0 exist. -/
def HostRegs.write (r : HostRegs) (n : Nat) (v : Word) : HostRegs :=
  match n with
  | 0x03 => { r with ctrl := v.setWidth 3 }
  | 0x04 => { r with dstW := v }
  | 0x05 => { r with dstH := v }
  | 0x06 => { r with outW := v }
  | 0x07 => { r with outH := v }
  | 0x08 => { r with scaleMode := v }
  | 0x09 => { r with vscaleMode := v }
  | 0x0A => { r with aspectNum := v }
  | 0x0B => { r with aspectDen := v }
  | 0x0C => { r with srcW := v }
  | 0x0D => { r with srcH := v }
  | 0x0E => { r with txtLen := v }
  | 0x0F => { r with frmW := v }
  | 0x10 => { r with frmH := v }
  | _ => r

end Sys2Proof.Machine
end

