-- ==== Sys2Proof/Machine/Operands.lean ====
section
/-! DEFINITION. The operand forms: how each stage finds the elements it reads (20_memory.md R77), position and phase
(43_resampler.md R220), and reading a frame. -/

namespace Sys2Proof

/-- Apply a function to each lane. -/
def Chan.map {α β : Type} (f : α → β) (c : Chan α) : Chan β :=
  ⟨f c.r, f c.g, f c.b⟩

/-- The three colour samples of a pixel. -/
def Pixel.rgb (p : Pixel) : Chan Byte :=
  ⟨p.r, p.g, p.b⟩

/-- A pixel with its colour samples replaced; alpha stays. -/
def Pixel.withRgb (p : Pixel) (c : Chan Byte) : Pixel :=
  ⟨c.r, c.g, c.b, p.a⟩

/-- Channel `c` of a pixel: R = 0, G = 1, B = 2, A = 3 (20_memory.md R62). -/
def Pixel.channel (p : Pixel) : Nat → Byte
  | 0 => p.r
  | 1 => p.g
  | 2 => p.b
  | _ => p.a

/-- A pixel of no colour, read only where a frame has no pixel; no stage reads there (20_memory.md R65; log 20). -/
def Pixel.absent : Pixel := ⟨0, 0, 0, 0⟩

end Sys2Proof

namespace Sys2Proof.Machine

/-- `clamp(v, lo, hi)` (00_scope.md R10). -/
def clampInt (v lo hi : Int) : Int :=
  if v < lo then lo else if hi < v then hi else v

/-! ### Frames -/

/-- `WF[y][x]` (00_scope.md R11). -/
def Frame.at (f : Frame) (y x : Nat) : Pixel :=
  (f.px.getD y []).getD x Pixel.absent

/-- Column `x`, from the top row down. -/
def Frame.column (f : Frame) (x : Nat) : List Pixel :=
  f.px.map (fun row => row.getD x Pixel.absent)

/-- `(y, x)` names a pixel of the frame. -/
def Frame.inside (f : Frame) (y x : Nat) : Bool :=
  decide (y < f.h) && decide (x < f.w)

/-- Byte `k` of the frame's byte view, row-major R, G, B, A: channel `c` of pixel `(y, x)` at index `4 * (y * W + x) + c`
(47_pipeline.md R323, 20_memory.md R62); `none` past the last pixel. -/
def Frame.byte? (f : Frame) (k : Nat) : Option Byte :=
  if k < 4 * (f.w * f.h) then some ((f.at (k / 4 / f.w) (k / 4 % f.w)).channel (k % 4)) else none

/-- A list of pixels in row-major order cut into `h` rows of `w` (20_memory.md R62). -/
def rowsOf (w : Nat) : Nat → List Pixel → List (List Pixel)
  | 0, _ => []
  | h + 1, px => px.take w :: rowsOf w h (px.drop w)

/-- Bytes taken four at a time as pixels, R, G, B, A (20_memory.md R62). -/
def pixelsOf : List Byte → List Pixel
  | r :: g :: b :: a :: rest => ⟨r, g, b, a⟩ :: pixelsOf rest
  | _ => []

/-! ### Position, phase and taps -/

/-- The result of `POS`. -/
structure Position where
  n : Int
  base : Int
  rem : Int
  phase : Nat
  deriving DecidableEq, Repr

/-- `POS(i, S, D, P)` in integers (43_resampler.md R220). Division and remainder round toward minus infinity (00_scope.md R10). -/
def pos (i S D P : Nat) : Position :=
  let n : Int := (2 * (i : Int) + 1) * S - D
  let base := n / (2 * (D : Int))
  let rem := n % (2 * (D : Int))
  { n := n, base := base, rem := rem, phase := ((rem * P) / (2 * (D : Int))).toNat }

/-- One clamped tap coordinate `clamp(BASE - 1 + k, 0, S - 1)` (43_resampler.md R224). -/
def tapCoord (base : Int) (S k : Nat) : Nat :=
  (clampInt (base - 1 + k) 0 ((S : Int) - 1)).toNat

/-- `TAPS`: the four clamped coordinates (43_resampler.md R224). -/
def taps (base : Int) (S : Nat) : Quad Nat :=
  ⟨tapCoord base S 0, tapCoord base S 1, tapCoord base S 2, tapCoord base S 3⟩

/-- The samples of one channel at the four coordinates (43_resampler.md R225). -/
def tapsOf (line : List Pixel) (a : Quad Nat) (ch : Pixel → Byte) : Quad Byte :=
  let at_ := fun j => ch (line.getD j Pixel.absent)
  ⟨at_ a.k0, at_ a.k1, at_ a.k2, at_ a.k3⟩

/-- The tap samples of the three colour channels; alpha is not fetched (43_resampler.md R225). -/
def tapSamples (line : List Pixel) (a : Quad Nat) : Chan (Quad Byte) :=
  ⟨tapsOf line a Pixel.r, tapsOf line a Pixel.g, tapsOf line a Pixel.b⟩

/-- `ROWFETCH`: coefficient row `r` (43_resampler.md R228). The row number is below `NROWS` whenever a stage reads it
(20_memory.md R65; logs 20, 22). -/
def FilterSlot.row (f : FilterSlot) (r : Nat) : Quad Coef :=
  f.rows.getD r ⟨0, 0, 0, 0⟩

/-! ### Mask and gamma addressing -/

/-- A mask coordinate before the tiling: halved in 2x tiling mode (44_mask_compositor.md R262). -/
def maskCoord (is2x : Bool) (x : Nat) : Nat :=
  if is2x then x / 2 else x

/-- `CELL[n][MY mod H][MX mod W]` of a pattern set tiled with width `w` and height `h` (44_mask_compositor.md R262). -/
def PatternSet.cellAt (p : PatternSet) (w h my mx : Nat) : CellWord :=
  (p.cells.getD (my % h) []).getD (mx % w) 0

/-- One gamma look-up (45_gamma_compositor.md R281). -/
def gammaLookup (lut : List Byte) (v : Byte) : Byte :=
  lut.getD v.toNat 0

end Sys2Proof.Machine
end

