-- ==== Sys2Proof/Machine/Ops.lean ====
section
/-! DEFINITION. The shared operations: how a command ends (60_exceptions.md R364, 47_pipeline.md R321), the tests before a
command (47_pipeline.md R324), the port memories (10_state.md R42), decoding contexts. -/

namespace Sys2Proof.Machine

/-! ### How a command ends -/

/-- TAKING AN ERROR (60_exceptions.md R364): `STATUS.ERR`, `DONE <- 0`, `ESTICKY <- 1`, `ERRINFO`, `SEQ.STAGE <- IDLE`; the
loader's working values are discarded; nothing else changes. Nothing is saved (R365). -/
def State.raise (s : State) (e : Raise) : State :=
  { s with
    status := { err := some e.code, done := false, esticky := true, info := e.info }
    seq := .idle
    ld := Loader.start }

/-- ENDING WITHOUT ERROR, the status part: `STATUS.ERR <- 0`, `DONE <- 1`, `ERRINFO <- 0`; `ESTICKY` keeps its value
(47_pipeline.md R321, 10_state.md R23). It is also how an earlier error is acknowledged (60_exceptions.md R372). -/
def State.ack (s : State) : State :=
  { s with status := { s.status with err := none, done := true, info := 0 } }

/-- The working registers and `SEQ.Y`, `SEQ.X` have no specified value after a command (10_state.md R21, R22): free values
(log 7). -/
def State.settle (s : State) : State :=
  { s with work := Config.freeWork s.freeCount, freeCount := s.freeCount + 1 }

/-- A command that did its work completes: status as `ack`, the sequencer idle, the loader's working values gone, the working
registers free. -/
def State.complete (s : State) : State :=
  ({ s with seq := .idle, ld := Loader.start }).settle.ack

/-- `SEQ.STAGE <- st` (10_state.md R22, 00_scope.md R12). -/
def State.enter (s : State) (st : Stage) : State :=
  { s with seq := st }

/-! ### Tests before a command -/

/-- `n` is above an OPEN limit (00_scope.md R7, 60_exceptions.md R362). -/
def exceeds (limit : Option Nat) (n : Nat) : Bool :=
  match limit with
  | none => false
  | some m => decide (m < n)

/-- The error of the first condition that fails, in order (47_pipeline.md R324: "the first that fails ends the command"). -/
def firstFailure : List (Bool × CmdError) → Option CmdError
  | [] => none
  | (ok, e) :: rest => if ok then firstFailure rest else some e

/-- A command: its tests in order, each failing with `ERRINFO = 0` (47_pipeline.md R324), then its body, which may itself raise
an error (a loader) and otherwise completes. -/
def runCommand (s : State) (needs : List (Bool × CmdError)) (body : State → Except Raise State) :
    Host.Outcome State Fault Refusal :=
  match firstFailure needs with
  | some e => .next (s.raise ⟨e, 0⟩)
  | none =>
    match body s with
    | .error e => .next (s.raise e)
    | .ok t => .next t.complete

/-! ### Port memories -/

/-- The byte at an index, `none` if the host has not written it since reset (10_state.md R42). -/
def Memory.read : Memory → Nat → Option Byte
  | [], _ => none
  | (a, b) :: rest, i => if a = i then some b else Memory.read rest i

/-- The byte at an index as the host reads it: a byte not written since reset has the content `free` gives it (10_state.md R42;
log 21). -/
def Memory.view (free : Nat → Byte) (m : Memory) (i : Nat) : Byte :=
  (Memory.read m i).getD (free i)

/-- Write one byte, keeping the indices strictly rising. -/
def Memory.write : Memory → Nat → Byte → Memory
  | [], i, v => [(i, v)]
  | (a, b) :: rest, i, v =>
    if i < a then (i, v) :: (a, b) :: rest
    else if i = a then (i, v) :: rest
    else (a, b) :: Memory.write rest i v

/-- Write bytes from an index on. -/
def Memory.writeRange : Memory → Nat → List Byte → Memory
  | m, _, [] => m
  | m, i, v :: vs => Memory.writeRange (Memory.write m i v) (i + 1) vs

/-- The `n` bytes from index `i`, `none` if some of them has not been written. -/
def Memory.readRange (m : Memory) : Nat → Nat → Option (List Byte)
  | _, 0 => some []
  | i, n + 1 =>
    match Memory.read m i with
    | none => none
    | some b =>
      match Memory.readRange m (i + 1) n with
      | none => none
      | some bs => some (b :: bs)

/-- The canonical form: indices strictly rising. (An unlisted index holds no byte, so no entry can equal one.) -/
def Memory.wf : Memory → Bool
  | [] => true
  | [_] => true
  | (a, _) :: (a', b') :: rest => decide (a < a') && Memory.wf ((a', b') :: rest)

/-! ### Decoding contexts and rejected bytes -/

/-- What decoding depends on, taken from the loader's working values and the mode registers (30_encoding.md R114,
46_placement.md R290). -/
def Loader.ctx (l : Loader) (r : HostRegs) : Ctx :=
  ⟨l.flt.nb, l.msk.state, r.scaleMode, r.vscaleMode⟩

/-- The context of a state. -/
def State.ctx (s : State) : Ctx :=
  s.ld.ctx s.csr

/-- The error that bytes which are no instruction end a command with, where the spec names one (30_encoding.md R95,
41_mask_loader.md R180). -/
def rejectRaise (ln : Nat) : Reject → Option Raise
  | .illegalCommand => some ⟨.illegalCommand, 0⟩
  | .strayMaskLine => some ⟨.badMaskStructure, ln⟩
  | .badLength => none
  | .reservedBits => none

end Sys2Proof.Machine
end

