-- ==== Sys2Proof/Machine/Loader.lean ====
section
/-! DEFINITION. The loader: what each line and each element word does to the loader's working values (40_filter_loader.md R142
to R146, 41_mask_loader.md R172 to R180, 42_gamma_loader.md R202 to R206), and the loop over the lines of a stream. The load
commands and the instructions that stand for single lines both call these operations. -/

namespace Sys2Proof.Machine

/-- All tokens are legal: their values. -/
def allLegal {α : Type} : List (Token α) → Option (List α)
  | [] => some []
  | none :: _ => none
  | some v :: rest =>
    match allLegal rest with
    | none => none
    | some vs => some (v :: vs)

/-! ### Element words -/

/-- Coefficients go to the row in flight (30_encoding.md R112, 40_filter_loader.md R145). -/
def putCoefs (cs : List Coef) (l : Loader) : Loader :=
  { l with flt := { l.flt with cur := l.flt.cur ++ cs } }

/-- Cells go to the row in flight (30_encoding.md R104, 41_mask_loader.md R177). -/
def putCells (cs : List CellWord) (l : Loader) : Loader :=
  { l with msk := { l.msk with cur := l.msk.cur ++ cs } }

/-- Gamma values go to the entry in flight (30_encoding.md R112, 42_gamma_loader.md R202). -/
def putGams (vs : List Byte) (l : Loader) : Loader :=
  { l with gam := { l.gam with cur := l.gam.cur ++ vs } }

/-- Pixels go to the frame being read, in row-major order (20_memory.md R62, 47_pipeline.md R322). -/
def putPixels (ps : List Pixel) (l : Loader) : Loader :=
  { l with pix := l.pix ++ ps }

/-! ### Filter lines -/

/-- A non-blank filter line is counted (40_filter_loader.md R142, R143). -/
def countLine (l : Loader) : Loader :=
  { l with flt := { l.flt with nb := l.flt.nb + 1 } }

/-- `FLT.BLANK`: skipped, not counted (40_filter_loader.md R142). -/
def opFltBlank (l : Loader) : Except Raise Loader :=
  .ok l

/-- `FLT.10BIT` (40_filter_loader.md R143). -/
def opFlt10bit (l : Loader) : Except Raise Loader :=
  .ok (countLine { l with flt := { l.flt with tenbit := true } })

/-- `FLT.ADAPTIVE` (40_filter_loader.md R143). -/
def opFltAdaptive (l : Loader) : Except Raise Loader :=
  .ok (countLine { l with flt := { l.flt with adaptive := true } })

/-- `FLT.COMMENT`: skipped, counted (40_filter_loader.md R143, R144). -/
def opFltComment (_text : Text) (l : Loader) : Except Raise Loader :=
  .ok (countLine l)

/-- The coefficient as stored: two's complement in `COEF_BITS` bits (30_encoding.md R112). -/
def coefWord (v : Int) : Coef :=
  BitVec.ofInt 32 v

/-- The row in flight begins anew. -/
def openRow (l : Loader) : Loader :=
  { l with flt := { l.flt with cur := [] } }

/-- The four coefficients in flight become the next row (30_encoding.md R102). -/
def closeRow (l : Loader) : Loader :=
  match l.flt.cur with
  | [c0, c1, c2, c3] => { l with flt := { l.flt with rows := l.flt.rows ++ [⟨c0, c1, c2, c3⟩], cur := [] } }
  | _ => l

/-- `FLT.ROW` (40_filter_loader.md R145): token count first, then token syntax, then `COEF_BITS` (R154). -/
def opFltRow (toks : List (Token Int)) (l : Loader) : Except Raise Loader :=
  if toks.length ≠ 4 then .error ⟨.malformedCoefficientRow, l.ln⟩
  else
    match allLegal toks with
    | none => .error ⟨.malformedCoefficientRow, l.ln⟩
    | some vs =>
      if vs.all coefFits then .ok (closeRow (putCoefs (vs.map coefWord) (openRow (countLine l))))
      else .error ⟨.limitExceeded, l.ln⟩

/-! ### Mask lines -/

/-- `MSK.BLANK`: ignored anywhere (41_mask_loader.md R173). -/
def opMskBlank (l : Loader) : Except Raise Loader :=
  .ok l

/-- `MSK.COMMENT`: ignored anywhere (41_mask_loader.md R173). -/
def opMskComment (_text : Text) (l : Loader) : Except Raise Loader :=
  .ok l

/-- `MSK.RES` (41_mask_loader.md R172, R174). -/
def opMskRes (lim : Config.Limits) (tok : Token Int) (l : Loader) : Except Raise Loader :=
  if l.msk.state = .rows then .error ⟨.badMaskStructure, l.ln⟩
  else
    match tok with
    | none => .error ⟨.badToken, l.ln⟩
    | some v =>
      if v < 0 then .error ⟨.badToken, l.ln⟩
      else if exceeds lim.maxExtent v.toNat then .error ⟨.limitExceeded, l.ln⟩
      else .ok { l with msk := { l.msk with res := v.toNat, state := .dims } }

/-- `MSK.V2`: carries no data (41_mask_loader.md R175). -/
def opMskV2 (l : Loader) : Except Raise Loader :=
  .ok l

/-- `MSK.DIMS` (41_mask_loader.md R172, R176, R180): a new grid of `w` by `h` cells is begun. -/
def opMskDims (lim : Config.Limits) (toks : List (Token Int)) (l : Loader) : Except Raise Loader :=
  match toks with
  | [some w, some h] =>
    if w < 1 ∨ h < 1 then .error ⟨.badMaskStructure, l.ln⟩
    else if exceeds lim.maskMaxW w.toNat ∨ exceeds lim.maskMaxH h.toNat then .error ⟨.limitExceeded, l.ln⟩
    else .ok { l with msk := { l.msk with w := w.toNat, h := h.toNat, cells := [], cur := [], state := .rows } }
  | _ => .error ⟨.missingDimensions, l.ln⟩

/-- The cells in flight begin anew. -/
def openCells (l : Loader) : Loader :=
  { l with msk := { l.msk with cur := [] } }

/-- The cells in flight become the next row of the pattern (41_mask_loader.md R177). -/
def closeCells (l : Loader) : Loader :=
  { l with msk := { l.msk with cells := l.msk.cells ++ [l.msk.cur], cur := [] } }

/-- After a row: a pattern that has all its rows joins the list of sets (41_mask_loader.md R172). -/
def endPattern (lim : Config.Limits) (l : Loader) : Except Raise Loader :=
  if l.msk.cells.length = l.msk.h then
    if lim.maskMaxSets = some l.msk.sets.length then .error ⟨.limitExceeded, l.ln⟩
    else
      .ok { l with msk := { l.msk with
        sets := l.msk.sets ++ [⟨l.msk.res, l.msk.w, l.msk.h, l.msk.cells⟩], state := .done } }
  else .ok l

/-- `MSK.ROW` (41_mask_loader.md R172, R177, R178): the token count before any token. -/
def opMskRow (lim : Config.Limits) (toks : List (Token CellWord)) (l : Loader) : Except Raise Loader :=
  if toks.length ≠ l.msk.w then .error ⟨.badMaskStructure, l.ln⟩
  else
    match allLegal toks with
    | none => .error ⟨.badToken, l.ln⟩
    | some cws => endPattern lim (closeCells (putCells cws (openCells l)))

/-! ### Gamma lines -/

/-- `GAM.BLANK`: skipped (42_gamma_loader.md R202). -/
def opGamBlank (l : Loader) : Except Raise Loader :=
  .ok l

/-- `GAM.COMMENT`: skipped (42_gamma_loader.md R202). -/
def opGamComment (_text : Text) (l : Loader) : Except Raise Loader :=
  .ok l

/-- A gamma integer as stored: clamped to 0 .. 255 (30_encoding.md R111). -/
def gamByte (v : Int) : Byte :=
  BitVec.ofInt 8 (clampInt v 0 255)

/-- The entry in flight begins anew. -/
def openEntry (l : Loader) : Loader :=
  { l with gam := { l.gam with cur := [] } }

/-- The three values in flight become entry `n` of the channel tables (30_encoding.md R111). -/
def closeEntry (l : Loader) : Loader :=
  match l.gam.cur with
  | [r, g, b] => { l with gam := { l.gam with lut := l.gam.lut ++ [⟨r, g, b⟩], cur := [] } }
  | _ => l

/-- A gamma data line with its three values (42_gamma_loader.md R202). -/
def gamEntry (r g b : Int) (l : Loader) : Loader :=
  closeEntry (putGams [gamByte r, gamByte g, gamByte b] (openEntry l))

/-- `GAM.RGB` (42_gamma_loader.md R202, R203); a 257th data line is refused before its tokens are looked at (R204). -/
def opGamRgb (toks : List (Token Int)) (l : Loader) : Except Raise Loader :=
  if l.gam.lut.length = 256 then .error ⟨.gammaTableOverflow, l.ln⟩
  else
    match toks with
    | [some r, some g, some b] => .ok (gamEntry r g b l)
    | _ => .error ⟨.badGammaLine, l.ln⟩

/-- `GAM.MONO` (42_gamma_loader.md R202, R203). -/
def opGamMono (tok : Token Int) (l : Loader) : Except Raise Loader :=
  if l.gam.lut.length = 256 then .error ⟨.gammaTableOverflow, l.ln⟩
  else
    match tok with
    | some g => .ok (gamEntry g g g l)
    | none => .error ⟨.badToken, l.ln⟩

/-! ### The loop over the lines -/

/-- What an instruction does to the loader's working values; `none` for a host command, which is no line and no element. -/
def loaderOp (lim : Config.Limits) : Instr → Option (Loader → Except Raise Loader)
  | .nop | .ldframe | .ldfiltH | .ldfiltV | .ldmask | .ldgamma | .gamma | .hresample | .vresample | .selpat | .mask
  | .run | .place | .placeFull | .placeFit | .placeVscale => none
  | .fltBlank => some opFltBlank
  | .flt10bit => some opFlt10bit
  | .fltAdaptive => some opFltAdaptive
  | .fltComment t => some (opFltComment t)
  | .fltRow toks => some (opFltRow toks)
  | .mskBlank => some opMskBlank
  | .mskComment t => some (opMskComment t)
  | .mskRes tok => some (opMskRes lim tok)
  | .mskV2 => some opMskV2
  | .mskDims toks => some (opMskDims lim toks)
  | .mskRow toks => some (opMskRow lim toks)
  | .mskCell cw => some (fun l => .ok (putCells [cw] l))
  | .gamBlank => some opGamBlank
  | .gamComment t => some (opGamComment t)
  | .gamRgb toks => some (opGamRgb toks)
  | .gamMono tok => some (opGamMono tok)
  | .coef32 v => some (fun l => .ok (putCoefs [v] l))
  | .gam8 v => some (fun l => .ok (putGams [v] l))
  | .pix32 p => some (fun l => .ok (putPixels [p] l))

/-- The next line: its number (30_encoding.md R97). -/
def nextLine (l : Loader) : Loader :=
  { l with ln := l.ln + 1 }

/-- One line of a stream: decoded in the loader's context, then executed. A line that is no instruction ends the command with
the error the spec names for it; the line decoders reject stray mask lines only. -/
def loadLine (f : Format) (lim : Config.Limits) (r : HostRegs) (l : Loader) (line : Text) : Except Raise Loader :=
  match decode f (l.ctx r) line with
  | .error why =>
    match rejectRaise l.ln why with
    | some e => .error e
    | none => .ok l
  | .ok i =>
    match loaderOp lim i with
    | some op => op l
    | none => .ok l

/-- The lines of a stream in order; the first error ends the command (40_filter_loader.md R154, 41_mask_loader.md R183,
42_gamma_loader.md R207). -/
def runLines (f : Format) (lim : Config.Limits) (r : HostRegs) : List Text → Loader → Except Raise Loader
  | [], l => .ok l
  | x :: xs, l =>
    match loadLine f lim r (nextLine l) x with
    | .error e => .error e
    | .ok l' => runLines f lim r xs l'

/-! ### The stream of a load command -/

/-- The bytes `TXT[0 .. TXT_LEN-1]`, `none` if some of them was not written (40_filter_loader.md R141). -/
def State.stream (s : State) : Option (List Byte) :=
  s.txt.readRange 0 s.csr.txtLen.toNat

/-- The tests of every load command, in order (47_pipeline.md R324). -/
def State.streamNeeds (s : State) : List (Bool × CmdError) :=
  [(!exceeds s.lim.txtMaxLen s.csr.txtLen.toNat, .limitExceeded), (s.stream.isSome, .notReady)]

/-- All lines of the stream executed from the loader's start. -/
def State.parse (s : State) (f : Format) : Except Raise Loader :=
  runLines f s.lim s.csr (Text.lines (s.stream.getD [])) Loader.start

/-- A line or an element word executed on its own: the working values change, or the error is taken (log 2). -/
def loaderStep (s : State) (r : Except Raise Loader) : Host.Outcome State Fault Refusal :=
  match r with
  | .ok l => .next { s with ld := l }
  | .error e => .next (s.raise e)

end Sys2Proof.Machine
end

