-- ==== Sys2Proof/Machine/FilterLoader.lean ====
section
/-! DEFINITION. The filter loader (40_filter_loader.md): `LDFILT.H`, `LDFILT.V`, the filter lines and the coefficient word. -/

namespace Sys2Proof.Machine

/-- The checks after the last line, in order (40_filter_loader.md R148 to R150), and the table they admit with its range
warning (R152, R153). -/
def filterTable (w : FltWork) : Except Raise FilterSlot :=
  if w.rows = [] then .error ⟨.emptyFilter, 0⟩
  else if w.adaptive ∧ w.rows.length % 2 = 1 then .error ⟨.oddAdaptiveRowCount, 0⟩
  else
    let f : FilterSlot := ⟨w.tenbit, w.adaptive, rangeWarning w.tenbit w.rows, w.rows⟩
    if legalPhases f.nphases then .ok f else .error ⟨.invalidPhaseCount, 0⟩

/-- The filter a stream stands for (40_filter_loader.md R140). -/
def State.parseFilter (s : State) : Except Raise FilterSlot :=
  match s.parse .fltLine with
  | .error e => .error e
  | .ok l => filterTable l.flt

/-- `LDFILT.H` (40_filter_loader.md R140, R153). -/
def execLdfiltH (s : State) : Host.Outcome State Fault Refusal :=
  runCommand s s.streamNeeds fun s =>
    match s.parseFilter with
    | .error e => .error e
    | .ok f => .ok { s.enter .load with tables := { s.tables with filtH := some f } }

/-- `LDFILT.V` (40_filter_loader.md R140, R153). -/
def execLdfiltV (s : State) : Host.Outcome State Fault Refusal :=
  runCommand s s.streamNeeds fun s =>
    match s.parseFilter with
    | .error e => .error e
    | .ok f => .ok { s.enter .load with tables := { s.tables with filtV := some f } }

/-- `FLT.BLANK` (40_filter_loader.md R144). -/
def execFltBlank (s : State) : Host.Outcome State Fault Refusal :=
  loaderStep s (opFltBlank s.ld)

/-- `FLT.10BIT` (40_filter_loader.md R143). -/
def execFlt10bit (s : State) : Host.Outcome State Fault Refusal :=
  loaderStep s (opFlt10bit s.ld)

/-- `FLT.ADAPTIVE` (40_filter_loader.md R143). -/
def execFltAdaptive (s : State) : Host.Outcome State Fault Refusal :=
  loaderStep s (opFltAdaptive s.ld)

/-- `FLT.COMMENT` (40_filter_loader.md R144). -/
def execFltComment (text : Text) (s : State) : Host.Outcome State Fault Refusal :=
  loaderStep s (opFltComment text s.ld)

/-- `FLT.ROW` (40_filter_loader.md R145). -/
def execFltRow (toks : List (Token Int)) (s : State) : Host.Outcome State Fault Refusal :=
  loaderStep s (opFltRow toks s.ld)

/-- `COEF32`: one coefficient of the row in flight (30_encoding.md R112). -/
def execCoef32 (v : Coef) (s : State) : Host.Outcome State Fault Refusal :=
  loaderStep s (.ok (putCoefs [v] s.ld))

end Sys2Proof.Machine
end

