-- ==== Sys2Proof/Machine/GammaLoader.lean ====
section
/-! DEFINITION. The gamma loader (42_gamma_loader.md): `LDGAMMA`, the gamma lines and the gamma entry word. -/

namespace Sys2Proof.Machine

/-- The check after the last line (42_gamma_loader.md R206) and the three channel tables (R208). -/
def gammaTable (w : GamWork) : Except Raise GammaTable :=
  if w.lut.length ≠ 256 then .error ⟨.gammaTableSizeMismatch, 0⟩
  else .ok ⟨w.lut.map Chan.r, w.lut.map Chan.g, w.lut.map Chan.b⟩

/-- The gamma table a stream stands for (42_gamma_loader.md R200). -/
def State.parseGamma (s : State) : Except Raise GammaTable :=
  match s.parse .gamLine with
  | .error e => .error e
  | .ok l => gammaTable l.gam

/-- `LDGAMMA` (42_gamma_loader.md R200, R208). -/
def execLdgamma (s : State) : Host.Outcome State Fault Refusal :=
  runCommand s s.streamNeeds fun s =>
    match s.parseGamma with
    | .error e => .error e
    | .ok t => .ok { s.enter .load with tables := { s.tables with gamma := some t } }

/-- `GAM.BLANK` (42_gamma_loader.md R202). -/
def execGamBlank (s : State) : Host.Outcome State Fault Refusal :=
  loaderStep s (opGamBlank s.ld)

/-- `GAM.COMMENT` (42_gamma_loader.md R202). -/
def execGamComment (text : Text) (s : State) : Host.Outcome State Fault Refusal :=
  loaderStep s (opGamComment text s.ld)

/-- `GAM.RGB` (42_gamma_loader.md R203). -/
def execGamRgb (toks : List (Token Int)) (s : State) : Host.Outcome State Fault Refusal :=
  loaderStep s (opGamRgb toks s.ld)

/-- `GAM.MONO` (42_gamma_loader.md R203). -/
def execGamMono (tok : Token Int) (s : State) : Host.Outcome State Fault Refusal :=
  loaderStep s (opGamMono tok s.ld)

/-- `GAM8`: one value of the entry in flight (30_encoding.md R112). -/
def execGam8 (v : Byte) (s : State) : Host.Outcome State Fault Refusal :=
  loaderStep s (.ok (putGams [v] s.ld))

end Sys2Proof.Machine
end

