-- ==== Sys2Proof/Machine/Housekeeping.lean ====
section
/-! DEFINITION. `NOP`, `LDFRAME` and the pixel word `PIX32` (47_pipeline.md R321, R322; 20_memory.md R62). -/

namespace Sys2Proof.Machine

/-- `NOP` (47_pipeline.md R321): status only. -/
def execNop (s : State) : Host.Outcome State Fault Refusal :=
  .next s.ack

/-- The bytes `FIN[0 .. 4*FRM_W*FRM_H - 1]`, `none` if some of them was not written (47_pipeline.md R322). -/
def State.frameBytes (s : State) : Option (List Byte) :=
  s.fin.readRange 0 (4 * s.csr.frmW.toNat * s.csr.frmH.toNat)

/-- The tests of `LDFRAME`, in order (47_pipeline.md R324). -/
def ldframeNeeds (s : State) : List (Bool × CmdError) :=
  [(decide (1 ≤ s.csr.frmW.toNat), .notReady), (decide (1 ≤ s.csr.frmH.toNat), .notReady),
   (!exceeds s.lim.maxExtent s.csr.frmW.toNat, .limitExceeded), (!exceeds s.lim.maxExtent s.csr.frmH.toNat, .limitExceeded),
   (s.frameBytes.isSome, .notReady)]

/-- The frame the loader's pixels make (20_memory.md R62). -/
def frameOf (w h : Nat) (px : List Pixel) : Frame :=
  { w := w, h := h, px := rowsOf w h px }

/-- `LDFRAME` (47_pipeline.md R322). -/
def execLdframe (s : State) : Host.Outcome State Fault Refusal :=
  runCommand s (ldframeNeeds s) fun s =>
    let l := putPixels (pixelsOf (s.frameBytes.getD [])) Loader.start
    .ok { s.enter .load with wf := some (frameOf s.csr.frmW.toNat s.csr.frmH.toNat l.pix) }

/-- `PIX32`: one pixel of the frame being read (20_memory.md R62). -/
def execPix32 (p : Pixel) (s : State) : Host.Outcome State Fault Refusal :=
  loaderStep s (.ok (putPixels [p] s.ld))

end Sys2Proof.Machine
end

