-- ==== Sys2Proof/Machine/GammaCompositor.lean ====
section
/-! DEFINITION. The gamma compositor (45_gamma_compositor.md): `GAMMA`. -/

namespace Sys2Proof.Machine

/-- One pixel: each colour channel looked up in its own table, alpha untouched (45_gamma_compositor.md R280, R281). -/
def gammaPixel (t : GammaTable) (p : Pixel) : Pixel :=
  ⟨gammaLookup t.r p.r, gammaLookup t.g p.g, gammaLookup t.b p.b, p.a⟩

/-- The whole frame (45_gamma_compositor.md R280). -/
def gammaFrame (t : GammaTable) (f : Frame) : Frame :=
  { f with px := f.px.map (fun row => row.map (gammaPixel t)) }

/-- The stage `GAMMA`; its needs are tested before it (47_pipeline.md R324, R331). -/
def stageGamma (s : State) : State :=
  match s.wf, s.tables.gamma with
  | some f, some t => { s.enter .gamma with wf := some (gammaFrame t f) }
  | _, _ => s.enter .gamma

/-- `GAMMA` (45_gamma_compositor.md R280). -/
def execGamma (s : State) : Host.Outcome State Fault Refusal :=
  runCommand s [(s.wf.isSome, .notReady), (s.tables.gamma.isSome, .notReady)] fun s => .ok (stageGamma s)

end Sys2Proof.Machine
end

