-- ==== Sys2Proof/Machine/MaskCompositor.lean ====
section
/-! DEFINITION. The shadow-mask compositor (44_mask_compositor.md): `MASK` with its steps `MADDR`, `CDEC`, `CXFORM`. -/

namespace Sys2Proof.Machine

/-- The fields of a cell word (30_encoding.md R104, 44_mask_compositor.md R263): the brighten bit of each channel and the two
4-bit selectors. The darken bits are the complements of the brighten bits (30_encoding.md R105). -/
structure CellFields where
  /-- `rB`, `gB`, `bB`. -/
  brighten : Chan Bool
  /-- `b3..b0`. -/
  add : BitVec 4
  /-- `c3..c0`. -/
  sub : BitVec 4
  deriving DecidableEq, Repr

/-- `CDEC` (44_mask_compositor.md R263; the order of the three brighten bits: log 6). -/
def cellFields (cw : CellWord) : CellFields where
  brighten := ⟨cw.getLsbD 10, cw.getLsbD 9, cw.getLsbD 8⟩
  add := cw.extractLsb' 4 4
  sub := cw.extractLsb' 0 4

/-- The darken bits, always the complement of the brighten bits (30_encoding.md R105). -/
def CellFields.darken (c : CellFields) : Chan Bool :=
  c.brighten.map Bool.not

/-- A sum of right-shifted copies of a sample chosen by a 4-bit selector:
`(v>>4)*s[0] + (v>>3)*s[1] + (v>>2)*s[2] + (v>>1)*s[3]` (44_mask_compositor.md R264, R265). -/
def weighted (sel : BitVec 4) (v : Byte) : Nat :=
  (v.toNat / 16) * (sel.getLsbD 0).toNat + (v.toNat / 8) * (sel.getLsbD 1).toNat
    + (v.toNat / 4) * (sel.getLsbD 2).toNat + (v.toNat / 2) * (sel.getLsbD 3).toNat

/-- `ADD` of one channel (44_mask_compositor.md R264). -/
def addTerm (c : CellFields) (v : Byte) : Int :=
  weighted c.add v

/-- `SUB` of one channel (44_mask_compositor.md R264). -/
def subTerm (c : CellFields) (v : Byte) : Int :=
  (v.toNat : Int) - weighted c.sub v

/-- `NEWV` of one channel with its own brighten and darken bits (44_mask_compositor.md R264). -/
def newValue (brighten darken : Bool) (c : CellFields) (v : Byte) : Int :=
  (v.toNat : Int) + (brighten.toNat : Int) * addTerm c v - (darken.toNat : Int) * subTerm c v

/-- The working registers for one pixel under the cell word `cw` fetched at `(my, mx)` (44_mask_compositor.md R262 to R264). -/
def maskElem (cw : CellWord) (my mx : Nat) (p : Pixel) : MaskRegs :=
  let c := cellFields cw
  let d := c.darken
  { mx := mx, my := my, cw := cw
    add := p.rgb.map (addTerm c)
    sub := p.rgb.map (subTerm c)
    newv := ⟨newValue c.brighten.r d.r c p.r, newValue c.brighten.g d.g c p.g, newValue c.brighten.b d.b c p.b⟩ }

/-- `CXFORM`: the transformed pixel, each channel clamped, alpha passed through (44_mask_compositor.md R264, R268, R269). -/
def maskPixel (cw : CellWord) (my mx : Nat) (p : Pixel) : Pixel :=
  p.withRgb ((maskElem cw my mx p).newv.map fun v => BitVec.ofInt 8 (clampInt v 0 255))

/-- Pixel `(y, x)` of the frame after the stage (44_mask_compositor.md R260, R262). -/
def maskAt (set : PatternSet) (w h : Nat) (is2x : Bool) (y x : Nat) (p : Pixel) : Pixel :=
  let my := maskCoord is2x y
  let mx := maskCoord is2x x
  maskPixel (set.cellAt w h my mx) my mx p

/-- The whole frame (44_mask_compositor.md R260). -/
def maskFrame (set : PatternSet) (w h : Nat) (is2x : Bool) (f : Frame) : Frame :=
  { f with px := f.px.mapIdx fun y row => row.mapIdx fun x p => maskAt set w h is2x y x p }

/-- The set the latch names (44_mask_compositor.md R260); a latch names a set of the slot whenever the stage runs. -/
def selectedSet (sets : List PatternSet) (sel : Selection) : PatternSet :=
  sets.getD sel.idx ⟨0, 0, 0, []⟩

/-- The stage `MASK`; its needs are tested before it (47_pipeline.md R324, R331). -/
def stageMask (s : State) : State :=
  match s.wf, s.tables.mask, s.sel with
  | some f, some sets, some sel =>
    { s.enter .mask with
      wf := some (maskFrame (selectedSet sets sel) sel.w sel.h s.csr.mask2x f) }
  | _, _, _ => s.enter .mask

/-- `MASK` (44_mask_compositor.md R260). -/
def execMask (s : State) : Host.Outcome State Fault Refusal :=
  runCommand s [(s.wf.isSome, .notReady), (s.tables.mask.isSome, .notReady), (s.sel.isSome, .notReady)]
    fun s => .ok (stageMask s)

end Sys2Proof.Machine
end

