-- ==== Sys2Proof/Machine/MaskLoader.lean ====
section
/-! DEFINITION. The mask loader and the pattern selection (41_mask_loader.md): `LDMASK`, the mask lines, the cell word,
`SELPAT`. -/

namespace Sys2Proof.Machine

/-- The checks after the last line, in order (41_mask_loader.md R179, R182, R183). -/
def maskTable (w : MskWork) : Except Raise (List PatternSet) :=
  if w.state = .rows then .error ⟨.badMaskStructure, 0⟩
  else if w.sets = [] then .error ⟨.noPatternsFound, 0⟩
  else .ok w.sets

/-- The pattern sets a stream stands for (41_mask_loader.md R170). -/
def State.parseMask (s : State) : Except Raise (List PatternSet) :=
  match s.parse .mskLine with
  | .error e => .error e
  | .ok l => maskTable l.msk

/-- `LDMASK` (41_mask_loader.md R170, R184): the selection latch is cleared too. -/
def execLdmask (s : State) : Host.Outcome State Fault Refusal :=
  runCommand s s.streamNeeds fun s =>
    match s.parseMask with
    | .error e => .error e
    | .ok sets => .ok { s.enter .load with tables := { s.tables with mask := some sets }, sel := none }

/-- `MSK.BLANK` (41_mask_loader.md R173). -/
def execMskBlank (s : State) : Host.Outcome State Fault Refusal :=
  loaderStep s (opMskBlank s.ld)

/-- `MSK.COMMENT` (41_mask_loader.md R173). -/
def execMskComment (text : Text) (s : State) : Host.Outcome State Fault Refusal :=
  loaderStep s (opMskComment text s.ld)

/-- `MSK.RES` (41_mask_loader.md R174). -/
def execMskRes (tok : Token Int) (s : State) : Host.Outcome State Fault Refusal :=
  loaderStep s (opMskRes s.lim tok s.ld)

/-- `MSK.V2` (41_mask_loader.md R175). -/
def execMskV2 (s : State) : Host.Outcome State Fault Refusal :=
  loaderStep s (opMskV2 s.ld)

/-- `MSK.DIMS` (41_mask_loader.md R176). -/
def execMskDims (toks : List (Token Int)) (s : State) : Host.Outcome State Fault Refusal :=
  loaderStep s (opMskDims s.lim toks s.ld)

/-- `MSK.ROW` (41_mask_loader.md R177). -/
def execMskRow (toks : List (Token CellWord)) (s : State) : Host.Outcome State Fault Refusal :=
  loaderStep s (opMskRow s.lim toks s.ld)

/-- `MSK.CELL`: one cell of the row in flight (30_encoding.md R104, 41_mask_loader.md R177). -/
def execMskCell (cw : CellWord) (s : State) : Host.Outcome State Fault Refusal :=
  loaderStep s (.ok (putCells [cw] s.ld))

/-! ### SELPAT -/

/-- The first loop of 41_mask_loader.md R190, from set number `n` on: the highest threshold not above `T`, the earliest among
equals (R192). -/
def bestNotAbove (T : Nat) : List PatternSet → Nat → Option (Nat × PatternSet) → Option (Nat × PatternSet)
  | [], _, best => best
  | p :: rest, n, best =>
    bestNotAbove T rest (n + 1)
      (if p.res ≤ T then
        match best with
        | none => some (n, p)
        | some (m, q) => if q.res < p.res then some (n, p) else some (m, q)
      else best)

/-- The second loop of 41_mask_loader.md R190: the lowest threshold, the earliest among equals (R192). -/
def lowest : List PatternSet → Nat → Option (Nat × PatternSet) → Option (Nat × PatternSet)
  | [], _, best => best
  | p :: rest, n, best =>
    lowest rest (n + 1)
      (match best with
        | none => some (n, p)
        | some (m, q) => if p.res < q.res then some (n, p) else some (m, q))

/-- The selected set and its index for the target height `T` (41_mask_loader.md R190, R191); `none` for an empty list, which
no valid slot holds. -/
def selectSet (T : Nat) (sets : List PatternSet) : Option (Nat × PatternSet) :=
  match bestNotAbove T sets 0 none with
  | some c => some c
  | none => lowest sets 0 none

/-- The latch for a selected set (41_mask_loader.md R190). -/
def latchOf (c : Nat × PatternSet) : Selection where
  idx := c.1
  res := c.2.res
  w := c.2.w
  h := c.2.h

/-- The stage `SELPAT`: the target height is `OUT_H` (41_mask_loader.md R190, R193). -/
def stageSelpat (s : State) : State :=
  match s.tables.mask with
  | none => s.enter .selpat
  | some sets => { s.enter .selpat with sel := (selectSet s.csr.outH.toNat sets).map latchOf }

/-- `SELPAT` (41_mask_loader.md R190). -/
def execSelpat (s : State) : Host.Outcome State Fault Refusal :=
  runCommand s [(s.tables.mask.isSome, .notReady)] fun s => .ok (stageSelpat s)

end Sys2Proof.Machine
end

