-- ==== Sys2Proof/Machine/Resampler.lean ====
section
/-! DEFINITION. The polyphase resampler (43_resampler.md): `HRESAMPLE`, `VRESAMPLE` with their steps `POS`, `TAPS`, `ROWFETCH`
(Machine/Operands.lean), `MAC`, `BLEND`, `QUANT`. All arithmetic is exact (R230, R233; log 5). -/

namespace Sys2Proof.Machine

/-- `MAC`: the sum of the four products, coefficients signed, samples unsigned (43_resampler.md R230). -/
def mac (c : Quad Coef) (t : Quad Byte) : Int :=
  c.k0.toInt * t.k0.toNat + c.k1.toInt * t.k1.toNat + c.k2.toInt * t.k2.toNat + c.k3.toInt * t.k3.toNat

/-- `BLEND`, the numerator: the dark sum alone, or dark and light blended by the channel's own centre tap
(43_resampler.md R232 to R234). -/
def blendNum (adaptive : Bool) (t1 : Byte) (accD accL : Int) : Int :=
  if adaptive then (t1.toNat : Int) * accL + (255 - (t1.toNat : Int)) * accD else accD

/-- `BLEND`, the denominator: `DIV`, or `255 * DIV` (43_resampler.md R232, R233). -/
def blendDen (adaptive : Bool) (div : Nat) : Int :=
  if adaptive then 255 * (div : Int) else div

/-- `QUANT` in integers: rounded half up, clamped to 0 .. 255 (43_resampler.md R240, R241). -/
def quant (num den : Int) : Byte :=
  BitVec.ofInt 8 (clampInt ((2 * num + den) / (2 * den)) 0 255)

/-- `ACC_L`: the sums of the light row of an adaptive filter; a non-adaptive filter has no light row, fetches none and leaves
`ACC_L` unwritten, a free value that nothing reads (43_resampler.md R219, R228; log 22). -/
def lightSums (f : FilterSlot) (phase : Nat) (t : Chan (Quad Byte)) : Chan Int :=
  if f.adaptive then t.map (mac (f.row (f.nphases + phase))) else Config.unwrittenAccL

/-- One destination element of a line of `S` samples going to `D`: the working registers as the steps leave them
(43_resampler.md R219). -/
def resampleElem (f : FilterSlot) (S D : Nat) (line : List Pixel) (i : Nat) : ResampleRegs :=
  let p := pos i S D f.nphases
  let a := taps p.base S
  let t := tapSamples line a
  let dark := f.row p.phase
  let accD := t.map (mac dark)
  let accL := lightSums f p.phase t
  let den := blendDen f.adaptive f.div
  let num : Chan Int :=
    ⟨blendNum f.adaptive t.r.k1 accD.r accL.r, blendNum f.adaptive t.g.k1 accD.g accL.g,
     blendNum f.adaptive t.b.k1 accD.b accL.b⟩
  { i := i, n := p.n, base := p.base, rem := p.rem, phase := p.phase, a := a, t := t
    accD := accD, accL := accL, num := num, den := den, q := num.map (quant · den) }

/-- The output pixel: alpha is forced to 255 (43_resampler.md R242). -/
def outPixel (r : ResampleRegs) : Pixel :=
  ⟨r.q.r, r.q.g, r.q.b, 255⟩

/-- One line of the pass (43_resampler.md R219). -/
def resampleLine (f : FilterSlot) (S D : Nat) (line : List Pixel) : List Pixel :=
  (List.range D).map fun i => outPixel (resampleElem f S D line i)

/-- The horizontal pass: `NF[y][i]` from row `y` (43_resampler.md R216). -/
def hresampleFrame (f : FilterSlot) (D : Nat) (fr : Frame) : Frame :=
  { w := D, h := fr.h, px := fr.px.map (resampleLine f fr.w D) }

/-- The vertical pass: `NF[i][x]` from column `x` (43_resampler.md R217). -/
def vresampleFrame (f : FilterSlot) (D : Nat) (fr : Frame) : Frame :=
  let columns := (List.range fr.w).map fr.column
  { w := fr.w, h := D, px := (List.range D).map fun i => columns.map fun c => outPixel (resampleElem f fr.h D c i) }

/-- The stage `HRESAMPLE`, skipped when the extents are equal (43_resampler.md R216, R218). -/
def stageHresample (s : State) : State :=
  match s.wf with
  | none => s
  | some fr =>
    if fr.w = s.csr.dstW.toNat then s
    else
      match s.tables.filtH with
      | none => s
      | some f => { s.enter .hresample with wf := some (hresampleFrame f s.csr.dstW.toNat fr) }

/-- The stage `VRESAMPLE`, skipped when the extents are equal (43_resampler.md R217, R218). -/
def stageVresample (s : State) : State :=
  match s.wf with
  | none => s
  | some fr =>
    if fr.h = s.csr.dstH.toNat then s
    else
      match s.tables.filtV with
      | none => s
      | some f => { s.enter .vresample with wf := some (vresampleFrame f s.csr.dstH.toNat fr) }

/-- The tests of `HRESAMPLE`, in order (47_pipeline.md R324). -/
def hresampleNeeds (s : State) : List (Bool × CmdError) :=
  [(s.wf.isSome, .notReady), (decide (1 ≤ s.csr.dstW.toNat), .notReady),
   (!exceeds s.lim.maxExtent s.csr.dstW.toNat, .limitExceeded),
   (decide (s.wfW = s.csr.dstW.toNat) || s.tables.filtH.isSome, .notReady)]

/-- The tests of `VRESAMPLE`, in order (47_pipeline.md R324). -/
def vresampleNeeds (s : State) : List (Bool × CmdError) :=
  [(s.wf.isSome, .notReady), (decide (1 ≤ s.csr.dstH.toNat), .notReady),
   (!exceeds s.lim.maxExtent s.csr.dstH.toNat, .limitExceeded),
   (decide (s.wfH = s.csr.dstH.toNat) || s.tables.filtV.isSome, .notReady)]

/-- `HRESAMPLE` (43_resampler.md R216). -/
def execHresample (s : State) : Host.Outcome State Fault Refusal :=
  runCommand s (hresampleNeeds s) fun s => .ok (stageHresample s)

/-- `VRESAMPLE` (43_resampler.md R217). -/
def execVresample (s : State) : Host.Outcome State Fault Refusal :=
  runCommand s (vresampleNeeds s) fun s => .ok (stageVresample s)

end Sys2Proof.Machine
end

