-- ==== Sys2Proof/Machine/Pipeline.lean ====
section
/-! DEFINITION. The composite command `RUN` (47_pipeline.md R330, R331). -/

namespace Sys2Proof.Machine

/-- The tests of `RUN`, every one before any stage, in order (47_pipeline.md R331). -/
def runNeeds (s : State) : List (Bool × CmdError) :=
  [(s.wf.isSome, .notReady),
   (decide (1 ≤ s.csr.dstW.toNat), .notReady), (decide (1 ≤ s.csr.dstH.toNat), .notReady),
   (!exceeds s.lim.maxExtent s.csr.dstW.toNat, .limitExceeded), (!exceeds s.lim.maxExtent s.csr.dstH.toNat, .limitExceeded),
   (!s.csr.gammaEn || s.tables.gamma.isSome, .notReady),
   (decide (s.wfW = s.csr.dstW.toNat) || s.tables.filtH.isSome, .notReady),
   (decide (s.wfH = s.csr.dstH.toNat) || s.tables.filtV.isSome, .notReady),
   (!s.csr.maskEn || s.tables.mask.isSome, .notReady)]

/-- The stages `RUN` steps `SEQ.STAGE` through: the fixed order, disabled and skipped stages left out (10_state.md R22,
47_pipeline.md R330). -/
def runPlan (s : State) : List Stage :=
  (if s.csr.gammaEn then [.gamma] else [])
    ++ (if s.wfW = s.csr.dstW.toNat then [] else [.hresample])
    ++ (if s.wfH = s.csr.dstH.toNat then [] else [.vresample])
    ++ (if s.csr.maskEn then [.selpat, .mask] else [])

/-- One stage, exactly as its single-stage command performs it (47_pipeline.md R330); `IDLE`, `LOAD` and `PLACE` are no stages
of `RUN`. -/
def doStage (st : Stage) (s : State) : State :=
  match st with
  | .gamma => stageGamma s
  | .hresample => stageHresample s
  | .vresample => stageVresample s
  | .selpat => stageSelpat s
  | .mask => stageMask s
  | .idle => s
  | .load => s
  | .place => s

/-- The stages of the plan one after the other (47_pipeline.md R330, 20_memory.md R71). -/
def runStages (s : State) : State :=
  (runPlan s).foldl (fun t st => doStage st t) s

/-- `RUN` (47_pipeline.md R330). -/
def execRun (s : State) : Host.Outcome State Fault Refusal :=
  runCommand s (runNeeds s) fun s => .ok (runStages s)

end Sys2Proof.Machine
end

