-- ==== Sys2Proof/Machine/Placement.lean ====
section
/-! DEFINITION. Placement and geometry (46_placement.md): `PLACE` and its three variants. All arithmetic is exact (R290). -/

namespace Sys2Proof.Machine

/-- The centred result of a scaled size with its scale factor reduced: the offsets are the floors of the half differences
(46_placement.md R296, R300). -/
def centred (outW outH w h sn sd : Nat) : Placement where
  snum := sn / Nat.gcd sn sd
  sden := sd / Nat.gcd sn sd
  w := w
  h := h
  left := (outW - w) / 2
  top := (outH - h) / 2

/-- `PLACE.FULL` (46_placement.md R294). -/
def placeFullResult (r : HostRegs) : Placement :=
  { snum := 0, sden := 1, w := r.outW.toNat, h := r.outH.toNat, left := 0, top := 0 }

/-- `PLACE.FIT` (46_placement.md R296). -/
def placeFitResult (r : HostRegs) : Placement :=
  let srcW := r.srcW.toNat
  let srcH := r.srcH.toNat
  let outW := r.outW.toNat
  let outH := r.outH.toNat
  if outW * srcH ≤ outH * srcW then centred outW outH outW (srcH * outW / srcW) outW srcW
  else centred outW outH (srcW * outH / srcH) outH outH srcH

/-- `m`, the reciprocal of the step: 1, 2, 4 for `VSCALE_MODE` 1, 2, 3 (46_placement.md R300). -/
def stepDen (mode : Word) : Nat :=
  if mode = 1#32 then 1 else if mode = 2#32 then 2 else 4

/-- The fitting loop: from `K` down, the first step count whose scaled width fits within `OUT_W`, with that width; `(0, 0)`
when none fits (46_placement.md R300, R301, R303). -/
def fitLoop (srcH num den m outW : Nat) : Nat → Nat × Nat
  | 0 => (0, 0)
  | k + 1 =>
    let sw := srcH * (k + 1) * num / (m * den)
    if sw ≤ outW then (k + 1, sw) else fitLoop srcH num den m outW k

/-- The working registers of `PLACE.VSCALE` as the loop leaves them (46_placement.md R300, R302). -/
def vscaleRegs (r : HostRegs) : PlaceRegs :=
  let m := stepDen r.vscaleMode
  let c := fitLoop r.srcH.toNat r.aspectNum.toNat r.aspectDen.toNat m r.outW.toNat (r.outH.toNat * m / r.srcH.toNat)
  { k := c.1, sw := c.2, sh := r.srcH.toNat * c.1 / m }

/-- `PLACE.VSCALE` (46_placement.md R300). -/
def placeVscaleResult (r : HostRegs) : Placement :=
  let v := vscaleRegs r
  centred r.outW.toNat r.outH.toNat v.sw v.sh v.k (stepDen r.vscaleMode)

/-- The extents `PLACE` compares with `MAX_EXTENT` in every mode (46_placement.md R293). -/
def extentNeeds (s : State) : List (Bool × CmdError) :=
  [(!exceeds s.lim.maxExtent s.csr.srcW.toNat, .limitExceeded), (!exceeds s.lim.maxExtent s.csr.srcH.toNat, .limitExceeded),
   (!exceeds s.lim.maxExtent s.csr.outW.toNat, .limitExceeded), (!exceeds s.lim.maxExtent s.csr.outH.toNat, .limitExceeded)]

/-- The divisors of aspect-fit (46_placement.md R293). -/
def fitNeeds (s : State) : List (Bool × CmdError) :=
  [(decide (1 ≤ s.csr.srcW.toNat), .notReady), (decide (1 ≤ s.csr.srcH.toNat), .notReady)]

/-- `VSCALE_MODE` is 1, 2 or 3 (46_placement.md R292). -/
def stepModeLegal (mode : Word) : Bool :=
  decide (mode = 1#32) || decide (mode = 2#32) || decide (mode = 3#32)

/-- The operands of stepped scaling that must not be 0 (46_placement.md R293). -/
def vscaleNeeds (s : State) : List (Bool × CmdError) :=
  [(decide (1 ≤ s.csr.srcH.toNat), .notReady), (decide (1 ≤ s.csr.aspectNum.toNat), .notReady),
   (decide (1 ≤ s.csr.aspectDen.toNat), .notReady)]

/-- Write the result registers and `SLOTS.VALID_PL` (46_placement.md R290). -/
def writePlacement (p : Placement) (s : State) : Except Raise State :=
  .ok { s.enter .place with pl := some p }

/-- The placement of mode 0: its tests, then its result (46_placement.md R293, R294). -/
def fullPlacement (s : State) : Host.Outcome State Fault Refusal :=
  runCommand s (extentNeeds s) fun s => writePlacement (placeFullResult s.csr) s

/-- The placement of mode 1 (46_placement.md R293, R296). -/
def fitPlacement (s : State) : Host.Outcome State Fault Refusal :=
  runCommand s (extentNeeds s ++ fitNeeds s) fun s => writePlacement (placeFitResult s.csr) s

/-- The placement of mode 2: the step mode is tested before the rest (46_placement.md R292, R293, R300). -/
def vscalePlacement (s : State) : Host.Outcome State Fault Refusal :=
  runCommand s ((stepModeLegal s.csr.vscaleMode, .invalidStepMode) :: (extentNeeds s ++ vscaleNeeds s))
    fun s => writePlacement (placeVscaleResult s.csr) s

/-- `PLACE`: the mode register chooses the variant; any other mode raises `InvalidScalingMode`, tested first
(46_placement.md R290, R291, R307). -/
def execPlace (s : State) : Host.Outcome State Fault Refusal :=
  if s.csr.scaleMode = 0#32 then fullPlacement s
  else if s.csr.scaleMode = 1#32 then fitPlacement s
  else if s.csr.scaleMode = 2#32 then vscalePlacement s
  else .next (s.raise ⟨.invalidScalingMode, 0⟩)

/-- `PLACE.FULL`: `PLACE` in mode 0 (46_placement.md R294; log 15). -/
def execPlaceFull (s : State) : Host.Outcome State Fault Refusal :=
  fullPlacement s

/-- `PLACE.FIT`: `PLACE` in mode 1 (46_placement.md R296; log 15). -/
def execPlaceFit (s : State) : Host.Outcome State Fault Refusal :=
  fitPlacement s

/-- `PLACE.VSCALE`: `PLACE` in mode 2 (46_placement.md R300; log 15). -/
def execPlaceVscale (s : State) : Host.Outcome State Fault Refusal :=
  vscalePlacement s

end Sys2Proof.Machine
end

