-- ==== Sys2Proof/Machine/Dispatch.lean ====
section
/-! DEFINITION. One arm per constructor of Instr, each one call of that instruction's meaning. -/

namespace Sys2Proof.Machine

def exec (i : Instr) (s : State) : Host.Outcome State Fault Refusal :=
  match i with
  | .nop => Sys2Proof.Machine.execNop s
  | .ldframe => Sys2Proof.Machine.execLdframe s
  | .ldfiltH => Sys2Proof.Machine.execLdfiltH s
  | .ldfiltV => Sys2Proof.Machine.execLdfiltV s
  | .ldmask => Sys2Proof.Machine.execLdmask s
  | .ldgamma => Sys2Proof.Machine.execLdgamma s
  | .gamma => Sys2Proof.Machine.execGamma s
  | .hresample => Sys2Proof.Machine.execHresample s
  | .vresample => Sys2Proof.Machine.execVresample s
  | .selpat => Sys2Proof.Machine.execSelpat s
  | .mask => Sys2Proof.Machine.execMask s
  | .run => Sys2Proof.Machine.execRun s
  | .place => Sys2Proof.Machine.execPlace s
  | .placeFull => Sys2Proof.Machine.execPlaceFull s
  | .placeFit => Sys2Proof.Machine.execPlaceFit s
  | .placeVscale => Sys2Proof.Machine.execPlaceVscale s
  | .fltBlank => Sys2Proof.Machine.execFltBlank s
  | .flt10bit => Sys2Proof.Machine.execFlt10bit s
  | .fltAdaptive => Sys2Proof.Machine.execFltAdaptive s
  | .fltComment text => Sys2Proof.Machine.execFltComment text s
  | .fltRow toks => Sys2Proof.Machine.execFltRow toks s
  | .mskBlank => Sys2Proof.Machine.execMskBlank s
  | .mskComment text => Sys2Proof.Machine.execMskComment text s
  | .mskRes tok => Sys2Proof.Machine.execMskRes tok s
  | .mskV2 => Sys2Proof.Machine.execMskV2 s
  | .mskDims toks => Sys2Proof.Machine.execMskDims toks s
  | .mskRow toks => Sys2Proof.Machine.execMskRow toks s
  | .mskCell cw => Sys2Proof.Machine.execMskCell cw s
  | .gamBlank => Sys2Proof.Machine.execGamBlank s
  | .gamComment text => Sys2Proof.Machine.execGamComment text s
  | .gamRgb toks => Sys2Proof.Machine.execGamRgb toks s
  | .gamMono tok => Sys2Proof.Machine.execGamMono tok s
  | .coef32 v => Sys2Proof.Machine.execCoef32 v s
  | .gam8 v => Sys2Proof.Machine.execGam8 v s
  | .pix32 p => Sys2Proof.Machine.execPix32 p s

end Sys2Proof.Machine
end

