-- ==== Sys2Proof/Machine/Fetch.lean ====
section
/-! DEFINITION. What the block does with the next entry of the feed: the host's moves (10_state.md R26, R33, R40, R42), the
command word (30_encoding.md R92 to R95), platform reset (70_reset_and_hazards.md R390), and how a table word is put where it is
fetched. -/

namespace Sys2Proof.Machine

/-- What a feed entry comes to: an instruction to execute and the state it starts from, a move that is done, a fault or a
refusal. -/
inductive Fetched where
  | instr (i : Instr) (s : State)
  | done (s : State)
  | fault (f : Fault)
  | refused (r : Refusal)
  deriving DecidableEq, Repr

/-- The host writes a register: RW registers take the value, all others ignore it (10_state.md R26, R33). -/
def State.hostWrite (s : State) (n : Nat) (v : Word) : State :=
  { s with csr := s.csr.write n v }

/-- The host reads a register: only the model's own latch of what was read changes (20_memory.md R67; log 13). -/
def State.hostRead (s : State) (n : Nat) : State :=
  { s with rd := { s.rd with word := s.regRead n } }

/-- A byte the host reads goes to the model's own latch; nothing else changes (20_memory.md R67; log 13). -/
def State.latchByte (s : State) (b : Byte) : State :=
  { s with rd := { s.rd with byte := b } }

/-- The host reads a byte of `TXT` (47_pipeline.md R337; log 21). -/
def State.hostTxt (s : State) (i : Nat) : State :=
  s.latchByte (s.txt.view (Config.unwrittenTxt s.resets) i)

/-- The host reads a byte of `FIN` (47_pipeline.md R337; log 21). -/
def State.hostFin (s : State) (i : Nat) : State :=
  s.latchByte (s.fin.view (Config.unwrittenFin s.resets) i)

/-- The host reads a byte of a valid frame's byte view (47_pipeline.md R323; log 12). -/
def State.hostFrameByte (s : State) (k : Nat) : Fetched :=
  match s.wf with
  | none => .fault .pixelOutsideFrame
  | some f =>
    match f.byte? k with
    | none => .fault .pixelOutsideFrame
    | some b => .done (s.latchByte b)

/-- The host reads a pixel of a valid frame (10_state.md R40, 47_pipeline.md R323; log 12). -/
def State.hostPixel (s : State) (y x : Nat) : Fetched :=
  match s.wf with
  | none => .fault .pixelOutsideFrame
  | some f =>
    if f.inside y x then .done { s with rd := { s.rd with pixel := f.at y x } } else .fault .pixelOutsideFrame

/-- Platform reset: everything as after reset; what the host will do next, the implementation's limits and the model's draw
counter stay, and the reset is counted (70_reset_and_hazards.md R390; logs 19, 21). -/
def State.platformReset (s : State) : State :=
  { State.reset with lim := s.lim, freeCount := s.freeCount, resets := s.resets + 1, feed := s.feed }

/-- A command word written to `CMD`: bits [7:0] are the code, the rest is ignored (30_encoding.md R92, R93); a reserved code is
an `IllegalCommand` (R95). -/
def State.issue (s : State) (v : Word) : Fetched :=
  match decode .cmd8 s.ctx [v.setWidth 8] with
  | .ok i => .instr i s
  | .error why =>
    match rejectRaise s.ld.ln why with
    | some e => .done (s.raise e)
    | none => .refused (.notAWord why)

/-- One move of the host. -/
def State.hostMove (s : State) (m : HostMove) : Fetched :=
  match m with
  | .writeReg n v => if n = 0 then s.issue v else .done (s.hostWrite n v)
  | .readReg n => .done (s.hostRead n)
  | .writeTxt i bytes => .done { s with txt := s.txt.writeRange i bytes }
  | .writeFin i bytes => .done { s with fin := s.fin.writeRange i bytes }
  | .readTxt i => .done (s.hostTxt i)
  | .readFin i => .done (s.hostFin i)
  | .readPixel y x => s.hostPixel y x
  | .readFrameByte k => s.hostFrameByte k
  | .reset => .done s.platformReset

/-- A line moves the loader's line number on (30_encoding.md R97); an element word or a command does not. -/
def State.unitStart (s : State) (f : Format) : State :=
  match f with
  | .fltLine => { s with ld := nextLine s.ld }
  | .mskLine => { s with ld := nextLine s.ld }
  | .gamLine => { s with ld := nextLine s.ld }
  | .cmd8 => s
  | .cmd8reg => s
  | .cell11 => s
  | .coef32 => s
  | .gam8 => s
  | .pix32 => s

/-- One instruction given to the block on its own (log 2). -/
def State.unitMove (s : State) (f : Format) (bytes : List Byte) : Fetched :=
  match decode f (s.unitStart f).ctx bytes with
  | .ok i => .instr i (s.unitStart f)
  | .error why =>
    match rejectRaise (s.unitStart f).ld.ln why with
    | some e => .done ((s.unitStart f).raise e)
    | none => .refused (.notAWord why)

/-- One entry of the feed. -/
def State.fetch (s : State) (it : FeedItem) : Fetched :=
  match it with
  | .host m => s.hostMove m
  | .unit f bytes => s.unitMove f bytes

/-- The feed entry that carries a word of the opcode table: a command word is a host write of `CMD`; any other word is given
to the block on its own (log 11). -/
def tableItem (nbits w : Nat) : FeedItem :=
  match tableFormat nbits with
  | none => .unit .cmd8 (tableBytes nbits w)
  | some .cmd8 => .host (.writeReg 0 (BitVec.ofNat 32 (w % 2 ^ nbits)))
  | some f => .unit f (tableBytes nbits w)

end Sys2Proof.Machine
end

