-- ==== Sys2Proof/Machine/Step.lean ====
section
/-! DEFINITION. One step: the next entry of the feed; with an empty feed the block is idle and holds its state
(60_exceptions.md R380, 70_reset_and_hazards.md R394). -/

namespace Sys2Proof.Machine

/-- One step of the machine. -/
def step (s : State) : Host.Outcome State Fault Refusal :=
  match s.feed with
  | [] => .next s
  | it :: rest =>
    match ({ s with feed := rest }).fetch it with
    | .instr i t => exec i t
    | .done t => .next t
    | .fault f => .fault f
    | .refused r => .refused r

/-- `s` with a word of the opcode table as the next entry of its feed (log 1). -/
def State.withFetchWord (s : State) (nbits w : Nat) : State :=
  { s with feed := tableItem nbits w :: s.feed }

end Sys2Proof.Machine
end

