-- ==== Sys2Proof/Machine/Reference.lean ====
section
/-! DEFINITION. The source document's own formulas over the rationals, as the rules quote them (43_resampler.md R220, R224, R230,
R233, R240; 44_mask_compositor.md R265), and the token grammar (30_encoding.md R98, R99, R107). No step calls them: statements
compare the datapath's integers and the decoder with them. -/

namespace Sys2Proof.Machine

/-- `sourcePos = (i + 0.5) / destExtent * sourceExtent` (43_resampler.md R220). -/
def docSourcePos (i S D : Nat) : ℚ :=
  ((i : ℚ) + 1 / 2) / (D : ℚ) * (S : ℚ)

/-- `baseIndex = floor(sourcePos - 0.5)` (43_resampler.md R220). -/
def docBase (i S D : Nat) : ℤ :=
  ⌊docSourcePos i S D - 1 / 2⌋

/-- `phase = floor(fracPart * numPhases + numPhases/2) mod numPhases`, `fracPart = sourcePos - floor(sourcePos)`
(43_resampler.md R220). -/
def docPhase (i S D P : Nat) : ℤ :=
  ⌊(docSourcePos i S D - (⌊docSourcePos i S D⌋ : ℚ)) * (P : ℚ) + (P : ℚ) / 2⌋ % (P : ℤ)

/-- Tap `k`: `baseIndex - 1 + k` clamped to `[0, sourceExtent-1]` (43_resampler.md R224). -/
def docTap (i S D k : Nat) : Nat :=
  (max 0 (min ((S : ℤ) - 1) (docBase i S D - 1 + (k : ℤ)))).toNat

/-- `output = (c0*t0 + c1*t1 + c2*t2 + c3*t3) / fullBrightnessDivisor` (43_resampler.md R230), with the divisor 128 in 9-bit
mode and 256 in 10-bit mode (R232). -/
def docOutput (f : FilterSlot) (row : Quad Coef) (t0 t1 t2 t3 : Byte) : ℚ :=
  ((row.k0.toInt : ℚ) * (t0.toNat : ℚ) + (row.k1.toInt : ℚ) * (t1.toNat : ℚ) + (row.k2.toInt : ℚ) * (t2.toNat : ℚ)
    + (row.k3.toInt : ℚ) * (t3.toNat : ℚ)) / (if f.tenbit then 256 else 128)

/-- `round(clamp(final, 0, 255))`, ties toward plus infinity (43_resampler.md R240). -/
def docRound (final : ℚ) : ℤ :=
  ⌊max 0 (min 255 final) + 1 / 2⌋

/-- One output sample of one channel: the dark output, or for an adaptive filter `t1Norm*light + (1-t1Norm)*dark` with
`t1Norm = t1 / 255` (43_resampler.md R219, R228, R232, R233). `line` is the channel along the scaling axis; `P` is the phase
count. -/
def docSample (f : FilterSlot) (P S D : Nat) (line : Nat → Byte) (i : Nat) : ℤ :=
  let t0 := line (docTap i S D 0)
  let t1 := line (docTap i S D 1)
  let t2 := line (docTap i S D 2)
  let t3 := line (docTap i S D 3)
  let phase := (docPhase i S D P).toNat
  let dark := docOutput f (f.rows.getD phase ⟨0, 0, 0, 0⟩) t0 t1 t2 t3
  let light := docOutput f (f.rows.getD (P + phase) ⟨0, 0, 0, 0⟩) t0 t1 t2 t3
  let t1Norm : ℚ := (t1.toNat : ℚ) / 255
  docRound (if f.adaptive then t1Norm * light + (1 - t1Norm) * dark else dark)

/-- `Wt(s, v)` for the selector in bits `lo + 3 .. lo` of a cell word (44_mask_compositor.md R265). -/
def docWeight (cw : CellWord) (lo : Nat) (v : Byte) : Nat :=
  (v.toNat >>> 4) * (cw.getLsbD lo).toNat + (v.toNat >>> 3) * (cw.getLsbD (lo + 1)).toNat
    + (v.toNat >>> 2) * (cw.getLsbD (lo + 2)).toNat + (v.toNat >>> 1) * (cw.getLsbD (lo + 3)).toNat

/-- One channel under a cell, `bit` being the channel's brighten bit: `min(255, v + Wt(b, v))` or `Wt(c, v)`
(44_mask_compositor.md R265). -/
def docMaskChannel (cw : CellWord) (bit : Nat) (v : Byte) : Nat :=
  if cw.getLsbD bit then min 255 (v.toNat + docWeight cw 4 v) else docWeight cw 0 v

/-! ### Tokens -/

/-- The six white-space bytes (30_encoding.md R98). -/
def docSpaces : List Byte :=
  [0x20#8, 0x09#8, 0x0B#8, 0x0C#8, 0x0D#8, 0x0A#8]

/-- `piece` is an integer token of value `v`, white space around it or not (30_encoding.md R98, R99). -/
def DocIntToken (piece : Text) (v : ℤ) : Prop :=
  ∃ (pre post ds : Text) (negative : Bool), (∀ b ∈ pre, b ∈ docSpaces) ∧ (∀ b ∈ post, b ∈ docSpaces) ∧ ds ≠ [] ∧
    (∀ d ∈ ds, 0x30 ≤ d.toNat ∧ d.toNat ≤ 0x39) ∧ piece = pre ++ (if negative then [0x2D#8] else []) ++ ds ++ post ∧
    v = (if negative then -1 else 1) * ((Nat.ofDigits 10 (ds.reverse.map fun d => d.toNat - 0x30) : ℕ) : ℤ)

/-- `b` is a hexadecimal digit of value `d`, in either case (30_encoding.md R107). -/
def DocHexDigit (b : Byte) (d : Nat) : Prop :=
  (0x30 ≤ b.toNat ∧ b.toNat ≤ 0x39 ∧ d = b.toNat - 0x30) ∨ (0x61 ≤ b.toNat ∧ b.toNat ≤ 0x66 ∧ d = b.toNat - 0x61 + 10) ∨
    (0x41 ≤ b.toNat ∧ b.toNat ≤ 0x46 ∧ d = b.toNat - 0x41 + 10)

/-- `piece` is a legal cell token that stands for `cw`, white space around it or not (30_encoding.md R98, R104, R107). -/
def DocCellToken (piece : Text) (cw : CellWord) : Prop :=
  ∃ (pre post : Text) (b1 b2 b3 : Byte) (d1 d2 d3 : Nat), (∀ b ∈ pre, b ∈ docSpaces) ∧ (∀ b ∈ post, b ∈ docSpaces) ∧
    DocHexDigit b1 d1 ∧ DocHexDigit b2 d2 ∧ DocHexDigit b3 d3 ∧ d1 ≤ 7 ∧ piece = pre ++ [b1, b2, b3] ++ post ∧
    cw.toNat = 256 * d1 + 16 * d2 + d3

/-- `tok` reads `piece` as the grammar `G` says: the value of a legal token, and no value for any other text. -/
def ReadAs {α : Type} (G : Text → α → Prop) (piece : Text) (tok : Token α) : Prop :=
  ∀ v, tok = some v ↔ G piece v

end Sys2Proof.Machine
end

