-- ==== Sys2Proof/Machine/Serial.lean ====
section
/-! DEFINITION. The tables written as the streams that load them (30_encoding.md R115, R117; 95_test_vectors.md E2). The
serialiser is no part of the block (00_scope.md R4): statements about the loaders are made with it. -/

namespace Sys2Proof.Machine

/-- Lines, each ended by LF. -/
def joinLines (ls : List Text) : Text :=
  ls.flatMap fun l => l ++ [Text.lf]

/-- A coefficient row as a line (30_encoding.md R117). -/
def rowInstr (q : Quad Coef) : Instr :=
  .fltRow [some q.k0.toInt, some q.k1.toInt, some q.k2.toInt, some q.k3.toInt]

/-- The lines of a filter: its mode tokens, then its rows (95_test_vectors.md E2). -/
def filterInstrs (f : FilterSlot) : List Instr :=
  (if f.tenbit then [.flt10bit] else []) ++ (if f.adaptive then [.fltAdaptive] else []) ++ f.rows.map rowInstr

/-- A filter as a stream. -/
def filterText (f : FilterSlot) : Text :=
  joinLines ((filterInstrs f).map encode)

/-- The lines of one pattern set: header, marker, dimensions, rows (30_encoding.md R115). -/
def setInstrs (p : PatternSet) : List Instr :=
  [.mskRes (some p.res), .mskV2, .mskDims [some (p.w : Int), some (p.h : Int)]]
    ++ p.cells.map fun row => .mskRow (row.map some)

/-- A list of pattern sets as a stream. -/
def maskText (sets : List PatternSet) : Text :=
  joinLines ((sets.flatMap setInstrs).map encode)

/-- Entry `v` of a gamma table as a three-channel line (30_encoding.md R110). -/
def gammaInstr (t : GammaTable) (v : Nat) : Instr :=
  .gamRgb [some (t.r.getD v 0).toNat, some (t.g.getD v 0).toNat, some (t.b.getD v 0).toNat]

/-- A gamma table as a stream of 256 lines. -/
def gammaText (t : GammaTable) : Text :=
  joinLines ((List.range 256).map fun v => encode (gammaInstr t v))

end Sys2Proof.Machine
end

