-- ==== Sys2Proof/Safety.lean ====
section
/-! DEFINITION. What a well-formed state is (the invariants 10_state.md and 47_pipeline.md R325 state), and what a safe run is. -/

namespace Sys2Proof.Machine

/-- A valid filter slot (10_state.md R35): a legal phase count, `NROWS` equal to it or exactly double, `WARN` as R24 says. -/
def FilterSlot.wf (f : FilterSlot) : Bool :=
  legalPhases f.nphases && decide (f.rows.length = f.nphases * (if f.adaptive then 2 else 1))
    && decide (f.warn = rangeWarning f.tenbit f.rows)

/-- A pattern set of a valid slot (10_state.md R37): at least one cell each way, a full grid. -/
def PatternSet.wf (p : PatternSet) : Bool :=
  decide (1 ≤ p.w) && decide (1 ≤ p.h) && decide (p.cells.length = p.h) && p.cells.all (fun row => decide (row.length = p.w))

/-- A valid mask slot (10_state.md R37): at least one set. -/
def maskWf (sets : List PatternSet) : Bool :=
  decide (sets ≠ []) && sets.all PatternSet.wf

/-- A valid gamma slot (10_state.md R39): 256 entries for each channel. -/
def GammaTable.wf (t : GammaTable) : Bool :=
  decide (t.r.length = 256) && decide (t.g.length = 256) && decide (t.b.length = 256)

/-- A valid frame (10_state.md R40, 47_pipeline.md R325): extents that are at least 1 and fit their registers, a full grid. -/
def Frame.wf (f : Frame) : Bool :=
  decide (1 ≤ f.w) && decide (1 ≤ f.h) && decide (f.w < 4294967296) && decide (f.h < 4294967296)
    && decide (f.px.length = f.h) && f.px.all (fun row => decide (row.length = f.w))

/-- A latched selection names a set of the slot and holds its numbers (10_state.md R38). -/
def selWf (mask : Option (List PatternSet)) (sel : Option Selection) : Bool :=
  match sel with
  | none => true
  | some c =>
    match mask with
    | none => false
    | some sets =>
      match sets[c.idx]? with
      | none => false
      | some p => decide (c = latchOf (c.idx, p))

/-- A placement result's scale factor is a reduced fraction with a denominator of at least 1 (10_state.md R32). -/
def Placement.wf (p : Placement) : Bool :=
  decide (1 ≤ p.sden) && decide (Nat.gcd p.snum p.sden = 1)

/-- `STATUS` after a command or after reset (10_state.md R23): `DONE` only without an error, an error only with `ESTICKY`. -/
def Status.wf (st : Status) : Bool :=
  match st.err with
  | none => true
  | some _ => !st.done && st.esticky

/-- A well-formed state. -/
def State.wellFormed (s : State) : Bool :=
  s.txt.wf && s.fin.wf && decide (s.seq = .idle) && s.status.wf
    && s.tables.filtH.all FilterSlot.wf && s.tables.filtV.all FilterSlot.wf
    && s.tables.mask.all maskWf && s.tables.gamma.all GammaTable.wf
    && selWf s.tables.mask s.sel && s.pl.all Placement.wf && s.wf.all Frame.wf

/-- The invariant of the machine. -/
abbrev State.Inv (s : State) : Prop := s.wellFormed = true

/-- An entry of the feed that the spec's host can make: not a single line or element word (log 2). -/
def FeedItem.isHost : FeedItem → Bool
  | .host _ => true
  | .unit _ _ => false

/-- `k` steps from `s` neither fault nor are refused. -/
def SafeFor (k : Nat) (s : State) : Prop :=
  ∃ t, Sys2Proof.core.run k s = .next t

/-! ### Words the statements use -/

/-- A host command or a variant of one: not a line, not an element word. -/
def commandInstr (i : Instr) : Bool :=
  decide (i.format = .cmd8) || decide (i.format = .cmd8reg)

/-- How a command that completes leaves the status, and what no command changes: the implementation's limits, the RW registers,
the ports byte by byte, what the host read, the count of resets, what the host will do (47_pipeline.md R321, 10_state.md R23, R33, R42). The slots,
the frame and the results are each statement's own matter. -/
structure Completed (s t : State) : Prop where
  status : t.status = { err := none, done := true, esticky := s.status.esticky, info := 0 }
  seq : s.seq = .idle → t.seq = .idle
  csr : t.csr = s.csr
  txt : ∀ i, Memory.read t.txt i = Memory.read s.txt i
  fin : ∀ i, Memory.read t.fin i = Memory.read s.fin i
  lim : t.lim = s.lim
  rd : t.rd = s.rd
  resets : t.resets = s.resets
  feed : t.feed = s.feed

/-- `Completed`, and of slots, selection, placement and frame nothing changed either but the frame. -/
structure FrameCommand (s t : State) : Prop where
  completed : Completed s t
  tables : t.tables = s.tables
  sel : t.sel = s.sel
  pl : t.pl = s.pl

/-- Instructions one after the other, as long as each gives a next state. -/
def execAll : List Instr → State → Host.Outcome State Fault Refusal
  | [], s => .next s
  | i :: is, s =>
    match exec i s with
    | .next t => execAll is t
    | .fault f => .fault f
    | .refused r => .refused r

end Sys2Proof.Machine
end

