-- ==== Sys2Proof/Certificates/Slice0/Obligations.lean ====
section
/-! DEFINITION. The statements for the provers. Each says which rule of spec/ it formalises. -/

section Statements

open Sys2Proof Sys2Proof.Machine

/-! ### Encoding -/

/-- 30_encoding.md R94, R99 to R112: every well-formed instruction, written in its format, is read back, in every context that
admits its encoding. The byte layout of `CELL11` and `COEF32` words is the model's own (log 11). -/
def Obligations.DecodeOfEncode : Prop :=
  ∀ (i : Instr) (c : Ctx), i.wf = true → i.admittedIn c = true → decode i.format c (encode i) = .ok i

/-- 30_encoding.md R94, R101, R104, R108, R110, R112; 20_memory.md R62: words written out from the spec's encodings. -/
def Obligations.WordsWrittenOut : Prop :=
  decode .cmd8 Ctx.initial [0x00#8] = .ok .nop ∧ decode .cmd8 Ctx.initial [0x01#8] = .ok .ldframe ∧
  decode .cmd8 Ctx.initial [0x10#8] = .ok .ldfiltH ∧ decode .cmd8 Ctx.initial [0x11#8] = .ok .ldfiltV ∧
  decode .cmd8 Ctx.initial [0x12#8] = .ok .ldmask ∧ decode .cmd8 Ctx.initial [0x13#8] = .ok .ldgamma ∧
  decode .cmd8 Ctx.initial [0x20#8] = .ok .gamma ∧ decode .cmd8 Ctx.initial [0x21#8] = .ok .hresample ∧
  decode .cmd8 Ctx.initial [0x22#8] = .ok .vresample ∧ decode .cmd8 Ctx.initial [0x23#8] = .ok .selpat ∧
  decode .cmd8 Ctx.initial [0x24#8] = .ok .mask ∧ decode .cmd8 Ctx.initial [0x2F#8] = .ok .run ∧
  decode .cmd8 Ctx.initial [0x30#8] = .ok .place ∧
  -- `10bit` as a filter line
  decode .fltLine Ctx.initial [0x31#8, 0x30#8, 0x62#8, 0x69#8, 0x74#8] = .ok .flt10bit ∧
  -- ` 0, 96,32 ,0` as a filter line (40_filter_loader.md R145)
  decode .fltLine Ctx.initial
    [0x20#8, 0x30#8, 0x2C#8, 0x20#8, 0x39#8, 0x36#8, 0x2C#8, 0x33#8, 0x32#8, 0x20#8, 0x2C#8, 0x30#8]
    = .ok (.fltRow [some 0, some 96, some 32, some 0]) ∧
  -- `2,1` where dimensions are expected, `50a` where a row is
  decode .mskLine Ctx.initial [0x32#8, 0x2C#8, 0x31#8] = .ok (.mskDims [some 2, some 1]) ∧
  decode .mskLine { Ctx.initial with maskState := .rows } [0x35#8, 0x30#8, 0x61#8] = .ok (.mskRow [some 0x50A#11]) ∧
  -- `10,12,9` and `300` as gamma lines
  decode .gamLine Ctx.initial [0x31#8, 0x30#8, 0x2C#8, 0x31#8, 0x32#8, 0x2C#8, 0x39#8]
    = .ok (.gamRgb [some 10, some 12, some 9]) ∧
  decode .gamLine Ctx.initial [0x33#8, 0x30#8, 0x30#8] = .ok (.gamMono (some 300)) ∧
  -- pixel bytes R, G, B, A
  decode .pix32 Ctx.initial [0x0A#8, 0x14#8, 0x1E#8, 0xFF#8] = .ok (.pix32 ⟨10, 20, 30, 255⟩)

/-- 30_encoding.md R95, 60_exceptions.md R360: a command word whose low 8 bits are none of the thirteen codes; with R364, which
also makes the sequencer idle and discards the loader's working values. -/
def Obligations.ReservedCodeIsIllegal : Prop :=
  ∀ (s : State) (v : Word) (rest : List FeedItem), s.feed = .host (.writeReg 0 v) :: rest →
    v.toNat % 256 ∉ [0x00, 0x01, 0x10, 0x11, 0x12, 0x13, 0x20, 0x21, 0x22, 0x23, 0x24, 0x2F, 0x30] →
    step s = .next { s with
      feed := rest
      status := { err := some .illegalCommand, done := false, esticky := true, info := 0 }
      seq := .idle, ld := Loader.start }

/-- 30_encoding.md R93: bits 31..8 of a value written to `CMD` do not matter. -/
def Obligations.CommandWordHighBits : Prop :=
  ∀ (s : State) (v v' : Word) (rest : List FeedItem), v.toNat % 256 = v'.toNat % 256 →
    step { s with feed := .host (.writeReg 0 v) :: rest } = step { s with feed := .host (.writeReg 0 v') :: rest }

/-- 30_encoding.md R96: where a stream is cut into lines. `l` is a text without CR or LF. -/
def Obligations.LinesCutAtTerminators : Prop :=
  ∀ (l : Text), (∀ b ∈ l, b ≠ Text.lf ∧ b ≠ Text.cr) →
    Text.lines l = [l] ∧
    (∀ rest, Text.lines (l ++ Text.lf :: rest) = l :: Text.lines rest) ∧
    (∀ rest, Text.lines (l ++ Text.cr :: Text.lf :: rest) = l :: Text.lines rest) ∧
    (∀ rest, rest.head? ≠ some Text.lf → Text.lines (l ++ Text.cr :: rest) = l :: Text.lines rest)

/-- 30_encoding.md R98: white space around a line does not change what the line is, in any of the three streams. -/
def Obligations.TrimmingIsIgnored : Prop :=
  ∀ (f : Format) (c : Ctx) (pre line post : Text), f = .fltLine ∨ f = .mskLine ∨ f = .gamLine →
    (∀ b ∈ pre, b ∈ [0x20#8, 0x09#8, 0x0B#8, 0x0C#8, 0x0D#8, 0x0A#8]) →
    (∀ b ∈ post, b ∈ [0x20#8, 0x09#8, 0x0B#8, 0x0C#8, 0x0D#8, 0x0A#8]) →
    decode f c (pre ++ line ++ post) = decode f c line

/-- 30_encoding.md R98 to R103, R107 to R110, 41_mask_loader.md R172, R175: what a line of each stream is, for every text. The
line is `t` with white space around it, `t` the pieces joined by commas. The grammar of tokens is written out in
Machine/Reference.lean; a text that is no token of it reads as no value. -/
def Obligations.LinesAndTokens : Prop :=
  ∀ (c : Ctx) (pre t post : Text) (pieces : List Text), (∀ b ∈ pre, b ∈ docSpaces) → (∀ b ∈ post, b ∈ docSpaces) →
    (∀ b, t.head? = some b → b ∉ docSpaces) → (∀ b, t.getLast? = some b → b ∉ docSpaces) →
    pieces ≠ [] → (∀ p ∈ pieces, 0x2C#8 ∉ p) → t = Text.joinCommas pieces →
    let line := pre ++ t ++ post
    let resolution : Text := [0x52#8, 0x65#8, 0x73#8, 0x6F#8, 0x6C#8, 0x75#8, 0x74#8, 0x69#8, 0x6F#8, 0x6E#8, 0x3D#8]
    -- the filter stream: `10bit` and `adaptive` in the first five non-blank lines only
    (if t = [] then decode .fltLine c line = .ok .fltBlank
      else if c.nb < 5 ∧ t = [0x31#8, 0x30#8, 0x62#8, 0x69#8, 0x74#8] then decode .fltLine c line = .ok .flt10bit
      else if c.nb < 5 ∧ t = [0x61#8, 0x64#8, 0x61#8, 0x70#8, 0x74#8, 0x69#8, 0x76#8, 0x65#8] then
        decode .fltLine c line = .ok .fltAdaptive
      else if t.head? = some 0x23#8 then decode .fltLine c line = .ok (.fltComment t.tail)
      else ∃ toks, decode .fltLine c line = .ok (.fltRow toks) ∧ List.Forall₂ (ReadAs DocIntToken) pieces toks) ∧
    -- the mask stream
    (if t = [] then decode .mskLine c line = .ok .mskBlank
      else if t.head? = some 0x23#8 then decode .mskLine c line = .ok (.mskComment t.tail)
      else if resolution <+: t then
        ∃ tok, decode .mskLine c line = .ok (.mskRes tok) ∧ ReadAs DocIntToken (t.drop 11) tok
      else if c.maskState = .done then decode .mskLine c line = .error .strayMaskLine
      else if c.maskState = .rows then
        ∃ toks, decode .mskLine c line = .ok (.mskRow toks) ∧ List.Forall₂ (ReadAs DocCellToken) pieces toks
      else if t = [0x76#8, 0x32#8] then decode .mskLine c line = .ok .mskV2
      else ∃ toks, decode .mskLine c line = .ok (.mskDims toks) ∧ List.Forall₂ (ReadAs DocIntToken) pieces toks) ∧
    -- the gamma stream
    (if t = [] then decode .gamLine c line = .ok .gamBlank
      else if t.head? = some 0x23#8 then decode .gamLine c line = .ok (.gamComment t.tail)
      else if 0x2C#8 ∈ t then
        ∃ toks, decode .gamLine c line = .ok (.gamRgb toks) ∧ List.Forall₂ (ReadAs DocIntToken) pieces toks
      else ∃ tok, decode .gamLine c line = .ok (.gamMono tok) ∧ ReadAs DocIntToken t tok)

/-! ### The step and the host -/

/-- 30_encoding.md R92, R93: a command word that decodes runs its instruction. The second clause is the model's own way to give
the block one line or element word (log 2): a line first moves the line number. -/
def Obligations.StepRunsTheDecodedInstruction : Prop :=
  (∀ (s : State) (v : Word) (rest : List FeedItem) (i : Instr), s.feed = .host (.writeReg 0 v) :: rest →
    decode .cmd8 s.ctx [v.setWidth 8] = .ok i → step s = exec i { s with feed := rest }) ∧
  (∀ (s : State) (f : Format) (bytes : List Byte) (rest : List FeedItem) (i : Instr), s.feed = .unit f bytes :: rest →
    f = .fltLine ∨ f = .mskLine ∨ f = .gamLine →
    decode f ({ s with ld := { s.ld with ln := s.ld.ln + 1 } } : State).ctx bytes = .ok i →
    step s = exec i { s with feed := rest, ld := { s.ld with ln := s.ld.ln + 1 } }) ∧
  (∀ (s : State) (f : Format) (bytes : List Byte) (rest : List FeedItem) (i : Instr), s.feed = .unit f bytes :: rest →
    f ≠ .fltLine → f ≠ .mskLine → f ≠ .gamLine → decode f s.ctx bytes = .ok i → step s = exec i { s with feed := rest })

/-- 60_exceptions.md R380, 70_reset_and_hazards.md R394: with nothing to do the block holds its state. That the host's moves
stand in a feed is the model's own (log 1). -/
def Obligations.IdleStepHolds : Prop :=
  ∀ s : State, s.feed = [] → step s = .next s

/-- 10_state.md R26, R33: a host write of a register other than `CMD`: which operand each number names, what reads back, what
stays. -/
def Obligations.HostWriteAndReadBack : Prop :=
  ∀ (s : State) (n : Nat) (v : Word) (rest : List FeedItem), s.feed = .host (.writeReg n v) :: rest → n ≠ 0 →
    ∃ t, step s = .next t ∧ t = { s with csr := t.csr, feed := rest } ∧
      (∀ m, m ≠ n → t.regRead m = s.regRead m) ∧
      (n = 3 → t.regRead n = v &&& 7#32) ∧
      (4 ≤ n → n ≤ 0x10 → t.regRead n = v) ∧
      (n < 3 ∨ 0x10 < n → t = { s with feed := rest }) ∧
      ∀ r : HostRegs, (n, r) ∈ ([
        (0x03, { s.csr with ctrl := v.extractLsb' 0 3 }), (0x04, { s.csr with dstW := v }), (0x05, { s.csr with dstH := v }),
        (0x06, { s.csr with outW := v }), (0x07, { s.csr with outH := v }), (0x08, { s.csr with scaleMode := v }),
        (0x09, { s.csr with vscaleMode := v }), (0x0A, { s.csr with aspectNum := v }), (0x0B, { s.csr with aspectDen := v }),
        (0x0C, { s.csr with srcW := v }), (0x0D, { s.csr with srcH := v }), (0x0E, { s.csr with txtLen := v }),
        (0x0F, { s.csr with frmW := v }), (0x10, { s.csr with frmH := v })] : List (Nat × HostRegs)) → t.csr = r

/-- 10_state.md R26, R40, R42, 20_memory.md R62, R67, 47_pipeline.md R323, R337: what the host's reads do. Only the model's own
latch of what was read changes (log 13); reading a pixel that is not there, or a byte of one, is a fault of the model (log 12); a
port byte that was not written reads as a free value (log 21). -/
def Obligations.HostReads : Prop :=
  (∀ (s : State) (n : Nat) (rest : List FeedItem), s.feed = .host (.readReg n) :: rest →
    step s = .next { s with feed := rest, rd := { s.rd with word := s.regRead n } }) ∧
  (∀ (s : State) (n : Nat), n = 0 ∨ 0x20 < n → s.regRead n = 0#32) ∧
  (∀ (s : State) (f : Frame) (y x : Nat) (rest : List FeedItem), s.feed = .host (.readPixel y x) :: rest → s.wf = some f →
    y < f.h → x < f.w → step s = .next { s with feed := rest, rd := { s.rd with pixel := f.at y x } }) ∧
  (∀ (s : State) (y x : Nat) (rest : List FeedItem), s.feed = .host (.readPixel y x) :: rest →
    (∀ f, s.wf = some f → f.h ≤ y ∨ f.w ≤ x) → step s = .fault .pixelOutsideFrame) ∧
  -- the byte view of the frame
  (∀ (s : State) (f : Frame) (y x c : Nat) (b : Byte) (rest : List FeedItem),
    s.feed = .host (.readFrameByte (4 * (y * f.w + x) + c)) :: rest → s.wf = some f → y < f.h → x < f.w →
    [(f.at y x).r, (f.at y x).g, (f.at y x).b, (f.at y x).a][c]? = some b →
    step s = .next { s with feed := rest, rd := { s.rd with byte := b } }) ∧
  (∀ (s : State) (k : Nat) (rest : List FeedItem), s.feed = .host (.readFrameByte k) :: rest →
    (∀ f, s.wf = some f → 4 * (f.w * f.h) ≤ k) → step s = .fault .pixelOutsideFrame) ∧
  -- the ports
  (∀ (s : State) (i : Nat) (rest : List FeedItem), s.feed = .host (.readTxt i) :: rest →
    ∃ b, (∀ b', Memory.read s.txt i = some b' → b = b') ∧
      step s = .next { s with feed := rest, rd := { s.rd with byte := b } }) ∧
  (∀ (s : State) (i : Nat) (rest : List FeedItem), s.feed = .host (.readFin i) :: rest →
    ∃ b, (∀ b', Memory.read s.fin i = some b' → b = b') ∧
      step s = .next { s with feed := rest, rd := { s.rd with byte := b } })

/-- 10_state.md R42: the host writes bytes of a port; every other byte, and everything else, stays. -/
def Obligations.PortWriteByteByByte : Prop :=
  (∀ (s : State) (i : Nat) (bytes : List Byte) (rest : List FeedItem), s.feed = .host (.writeTxt i bytes) :: rest →
    ∃ t, step s = .next t ∧ t = { s with txt := t.txt, feed := rest } ∧
      ∀ k, Memory.read t.txt k = if i ≤ k ∧ k < i + bytes.length then bytes[k - i]? else Memory.read s.txt k) ∧
  (∀ (s : State) (i : Nat) (bytes : List Byte) (rest : List FeedItem), s.feed = .host (.writeFin i bytes) :: rest →
    ∃ t, step s = .next t ∧ t = { s with fin := t.fin, feed := rest } ∧
      ∀ k, Memory.read t.fin k = if i ≤ k ∧ k < i + bytes.length then bytes[k - i]? else Memory.read s.fin k)

/-- 10_state.md R26, R27, R32, R35, R38, R40: what every register that is not reserved reads. A number that needs more than 32 bits
is not spoken of (log 8). -/
def Obligations.RegisterLayouts : Prop :=
  (∀ s : State,
    (s.regRead 0x01).toNat = s.status.errCode.toNat + 256 * s.status.done.toNat + 512 * s.status.esticky.toNat) ∧
  (∀ s : State,
    (s.regRead 0x13).toNat = s.tables.filtH.isSome.toNat + 2 * s.tables.filtV.isSome.toNat + 4 * s.tables.mask.isSome.toNat
      + 8 * s.tables.gamma.isSome.toNat + 16 * s.wf.isSome.toNat + 32 * s.pl.isSome.toNat + 64 * s.sel.isSome.toNat
      + 256 * (s.tables.filtH.any FilterSlot.warn).toNat + 512 * (s.tables.filtV.any FilterSlot.warn).toNat) ∧
  (∀ s : State, s.tables.filtH = none → s.regRead 0x14 = 0#32) ∧ (∀ s : State, s.tables.filtV = none → s.regRead 0x15 = 0#32) ∧
  (∀ (s : State) (f : FilterSlot), s.tables.filtH = some f → f.wf = true →
    (s.regRead 0x14).toNat = f.nphases + 65536 * f.tenbit.toNat + 131072 * f.adaptive.toNat + 262144 * f.rows.length) ∧
  (∀ (s : State) (f : FilterSlot), s.tables.filtV = some f → f.wf = true →
    (s.regRead 0x15).toNat = f.nphases + 65536 * f.tenbit.toNat + 131072 * f.adaptive.toNat + 262144 * f.rows.length) ∧
  -- the RW registers and `ERRINFO`
  (∀ (s : State) (n : Nat) (v : Word), (n, v) ∈ ([
    (0x03, s.csr.ctrl.setWidth 32), (0x04, s.csr.dstW), (0x05, s.csr.dstH), (0x06, s.csr.outW),
    (0x07, s.csr.outH), (0x08, s.csr.scaleMode), (0x09, s.csr.vscaleMode), (0x0A, s.csr.aspectNum),
    (0x0B, s.csr.aspectDen), (0x0C, s.csr.srcW), (0x0D, s.csr.srcH), (0x0E, s.csr.txtLen),
    (0x0F, s.csr.frmW), (0x10, s.csr.frmH)] : List (Nat × Word)) → s.regRead n = v) ∧
  (∀ s : State, s.status.info < 2 ^ 32 → (s.regRead 0x02).toNat = s.status.info) ∧
  -- the frame's extents and the number of pattern sets
  (∀ s : State, s.wf = none → s.regRead 0x11 = 0#32 ∧ s.regRead 0x12 = 0#32) ∧
  (∀ (s : State) (f : Frame), s.wf = some f →
    (f.w < 2 ^ 32 → (s.regRead 0x11).toNat = f.w) ∧ (f.h < 2 ^ 32 → (s.regRead 0x12).toNat = f.h)) ∧
  (∀ s : State, s.tables.mask = none → s.regRead 0x16 = 0#32) ∧
  (∀ (s : State) (sets : List PatternSet), s.tables.mask = some sets → sets.length < 2 ^ 32 →
    (s.regRead 0x16).toNat = sets.length) ∧
  -- the selection and the placement result
  (∀ s : State, s.sel = none → ∀ n ∈ [0x17, 0x18, 0x19, 0x1A], s.regRead n = 0#32) ∧
  (∀ (s : State) (c : Selection) (n m : Nat), s.sel = some c →
    (n, m) ∈ [(0x17, c.idx), (0x18, c.res), (0x19, c.w), (0x1A, c.h)] → m < 2 ^ 32 → (s.regRead n).toNat = m) ∧
  (∀ s : State, s.pl = none → ∀ n ∈ [0x1B, 0x1C, 0x1D, 0x1E, 0x1F, 0x20], s.regRead n = 0#32) ∧
  (∀ (s : State) (p : Placement) (n m : Nat), s.pl = some p →
    (n, m) ∈ [(0x1B, p.snum), (0x1C, p.sden), (0x1D, p.w), (0x1E, p.h), (0x1F, p.left), (0x20, p.top)] → m < 2 ^ 32 →
    (s.regRead n).toNat = m)

/-- 60_exceptions.md R350: the code each error leaves in `STATUS.ERR`. -/
def Obligations.ErrorCodes : Prop :=
  ([.malformedCoefficientRow, .emptyFilter, .oddAdaptiveRowCount, .invalidPhaseCount, .missingDimensions, .noPatternsFound,
    .gammaTableOverflow, .gammaTableSizeMismatch, .invalidScalingMode, .invalidStepMode, .illegalCommand, .notReady, .badToken,
    .badMaskStructure, .badGammaLine, .limitExceeded] : List CmdError).map CmdError.code
    = [1#8, 2#8, 3#8, 4#8, 5#8, 6#8, 7#8, 8#8, 9#8, 10#8, 16#8, 17#8, 18#8, 19#8, 20#8, 21#8] ∧
  (⟨none, true, false, 0⟩ : Status).errCode = 0#8

/-! ### Reset and the invariant -/

/-- 10_state.md R43: every register reads 0, every slot, the frame, the placement result and the selection are invalid, the
sequencer is idle. -/
def Obligations.ResetState : Prop :=
  (∀ n, State.reset.regRead n = 0#32) ∧ State.reset.tables = ⟨none, none, none, none⟩ ∧ State.reset.wf = none ∧
  State.reset.pl = none ∧ State.reset.sel = none ∧ State.reset.seq = .idle

/-- 70_reset_and_hazards.md R390: platform reset, from any state. That no port byte counts as written afterwards is log 9; that
what the host will do next and the implementation's limits stay is log 19. Both are the model's choices. -/
def Obligations.PlatformReset : Prop :=
  ∀ (s : State) (rest : List FeedItem), s.feed = .host .reset :: rest →
    ∃ t, step s = .next t ∧ (∀ n, t.regRead n = 0#32) ∧ t.tables = ⟨none, none, none, none⟩ ∧ t.wf = none ∧ t.pl = none ∧
      t.sel = none ∧ t.seq = .idle ∧ (∀ k, Memory.read t.txt k = none) ∧ (∀ k, Memory.read t.fin k = none) ∧
      t.lim = s.lim ∧ t.feed = rest

/-- 70_reset_and_hazards.md R395: what the first commands after reset do. -/
def Obligations.FirstCommandsAfterReset : Prop :=
  exec .nop State.reset = .next State.reset.ack ∧
  (∃ t, exec .place State.reset = .next t ∧ t.status = ⟨none, true, false, 0⟩ ∧ t.pl = some ⟨0, 1, 0, 0, 0, 0⟩) ∧
  exec .ldfiltH State.reset = .next (State.reset.raise ⟨.emptyFilter, 0⟩) ∧
  exec .ldfiltV State.reset = .next (State.reset.raise ⟨.emptyFilter, 0⟩) ∧
  exec .ldmask State.reset = .next (State.reset.raise ⟨.noPatternsFound, 0⟩) ∧
  exec .ldgamma State.reset = .next (State.reset.raise ⟨.gammaTableSizeMismatch, 0⟩) ∧
  ∀ i ∈ ([.ldframe, .gamma, .hresample, .vresample, .selpat, .mask, .run] : List Instr),
    exec i State.reset = .next (State.reset.raise ⟨.notReady, 0⟩)

/-- The invariant (Safety.lean: canonical ports, an idle sequencer, a status that is one of the two outcomes or reset's, valid
slots that are complete tables, a selection that names a set, a reduced scale factor, a full frame) holds after reset. -/
def Obligations.ResetKeepsTheInvariant : Prop :=
  State.reset.Inv

/-- 10_state.md R22, R32, R35, R37, R38, R39, R40, 47_pipeline.md R325: every step keeps the invariant, from every state. -/
def Obligations.StepKeepsTheInvariant : Prop :=
  ∀ s t : State, s.Inv → step s = .next t → t.Inv

/-! ### How commands end -/

/-- 47_pipeline.md R321: `NOP`, command code 0x00. -/
def Obligations.NopAcknowledges : Prop :=
  (∀ c : Ctx, decode .cmd8 c [0x00#8] = .ok .nop) ∧ ∀ s : State, exec .nop s =
    .next { s with status := { err := none, done := true, esticky := s.status.esticky, info := 0 } }

/-- 60_exceptions.md R364: what taking an error changes, field by field; and a command that ends with an error has taken one. -/
def Obligations.ErrorEntry : Prop :=
  (∀ (s : State) (e : Raise), s.raise e = { s with
    status := { err := some e.code, done := false, esticky := true, info := e.info }, seq := .idle, ld := Loader.start }) ∧
  ∀ (i : Instr) (s t : State), commandInstr i = true → exec i s = .next t → t.status.err ≠ none →
    ∃ e, t.status.err = some e ∧ t = s.raise ⟨e, t.status.info⟩

/-- 47_pipeline.md R336, 60_exceptions.md R364, R366: every command, in every state, either completes or takes one error, which
changes nothing but the status registers. -/
def Obligations.CommandCompletesOrRaises : Prop :=
  ∀ (i : Instr) (s : State), commandInstr i = true →
    (∃ t, exec i s = .next t ∧ Completed s t) ∨ (∃ e, exec i s = .next (s.raise e))

/-- 70_reset_and_hazards.md R392, 10_state.md R23, R34: only reset clears `ESTICKY`, invalidates a slot, the frame or the
placement result; only reset and `LDMASK` clear the selection. -/
def Obligations.OnlyResetClears : Prop :=
  ∀ s t : State, step s = .next t → s.feed.head? ≠ some (.host .reset) →
    (s.status.esticky = true → t.status.esticky = true) ∧
    (s.tables.filtH.isSome = true → t.tables.filtH.isSome = true) ∧
    (s.tables.filtV.isSome = true → t.tables.filtV.isSome = true) ∧
    (s.tables.mask.isSome = true → t.tables.mask.isSome = true) ∧
    (s.tables.gamma.isSome = true → t.tables.gamma.isSome = true) ∧
    (s.wf.isSome = true → t.wf.isSome = true) ∧ (s.pl.isSome = true → t.pl.isSome = true) ∧
    (s.Inv → s.sel.isSome = true → t.sel = none →
      (∃ v : Word, s.feed.head? = some (.host (.writeReg 0 v)) ∧ v.toNat % 256 = 0x12) ∨
      s.feed.head? = some (.unit .cmd8 [0x12#8]) ∨ s.feed.head? = some (.unit .cmd8reg [0x12#8]))

/-- 10_state.md R33, R42: no instruction writes an RW register or a byte of a port, whatever it answers. -/
def Obligations.InstructionsKeepPortsAndRegisters : Prop :=
  ∀ (i : Instr) (s t : State), exec i s = .next t →
    (∀ k, Memory.read t.txt k = Memory.read s.txt k) ∧ (∀ k, Memory.read t.fin k = Memory.read s.fin k) ∧
    (∀ n, 3 ≤ n → n ≤ 0x10 → t.regRead n = s.regRead n) ∧ t.feed = s.feed ∧ t.lim = s.lim ∧ t.rd = s.rd ∧
    t.resets = s.resets

/-! ### Loading a frame -/

/-- 47_pipeline.md R322, 20_memory.md R62: `LDFRAME` with everything it needs. -/
def Obligations.LdframeReadsRowMajor : Prop :=
  ∀ s : State, 1 ≤ s.csr.frmW.toNat → 1 ≤ s.csr.frmH.toNat →
    exceeds s.lim.maxExtent s.csr.frmW.toNat = false → exceeds s.lim.maxExtent s.csr.frmH.toNat = false →
    (∀ k, k < 4 * s.csr.frmW.toNat * s.csr.frmH.toNat → (Memory.read s.fin k).isSome = true) →
    ∃ t f, exec .ldframe s = .next t ∧ FrameCommand s t ∧ t.wf = some f ∧ f.wf = true ∧
      f.w = s.csr.frmW.toNat ∧ f.h = s.csr.frmH.toNat ∧
      ∀ y x, y < f.h → x < f.w →
        Memory.read s.fin (4 * (y * f.w + x) + 0) = some (f.at y x).r ∧
        Memory.read s.fin (4 * (y * f.w + x) + 1) = some (f.at y x).g ∧
        Memory.read s.fin (4 * (y * f.w + x) + 2) = some (f.at y x).b ∧
        Memory.read s.fin (4 * (y * f.w + x) + 3) = some (f.at y x).a

/-- 47_pipeline.md R322, R324: the refusals of `LDFRAME`, in their order. -/
def Obligations.LdframeRefusals : Prop :=
  ∀ s : State,
    if s.csr.frmW = 0#32 ∨ s.csr.frmH = 0#32 then exec .ldframe s = .next (s.raise ⟨.notReady, 0⟩)
    else if exceeds s.lim.maxExtent s.csr.frmW.toNat = true ∨ exceeds s.lim.maxExtent s.csr.frmH.toNat = true then
      exec .ldframe s = .next (s.raise ⟨.limitExceeded, 0⟩)
    else (∃ k, k < 4 * s.csr.frmW.toNat * s.csr.frmH.toNat ∧ Memory.read s.fin k = none) →
      exec .ldframe s = .next (s.raise ⟨.notReady, 0⟩)

/-! ### The load commands -/

/-- 40_filter_loader.md R141, 41_mask_loader.md R171, 42_gamma_loader.md R201: the refusals before the first byte is parsed. -/
def Obligations.LoadRefusals : Prop :=
  ∀ (s : State) (i : Instr), i ∈ ([.ldfiltH, .ldfiltV, .ldmask, .ldgamma] : List Instr) →
    if exceeds s.lim.txtMaxLen s.csr.txtLen.toNat = true then exec i s = .next (s.raise ⟨.limitExceeded, 0⟩)
    else (∃ k, k < s.csr.txtLen.toNat ∧ Memory.read s.txt k = none) → exec i s = .next (s.raise ⟨.notReady, 0⟩)

/-- 40_filter_loader.md R154, 41_mask_loader.md R183, 42_gamma_loader.md R207, 30_encoding.md R97: the first line that fails ends
the command with its own error and its line number, counted from 1 over all lines. -/
def Obligations.LineErrorEndsTheLoad : Prop :=
  ∀ (s : State) (f : Format) (i : Instr) (bytes : List Byte) (pre post : List Text) (bad : Text) (l : Loader) (e : Raise),
    (f, i) ∈ ([(.fltLine, .ldfiltH), (.fltLine, .ldfiltV), (.mskLine, .ldmask), (.gamLine, .ldgamma)] : List (Format × Instr)) →
    exceeds s.lim.txtMaxLen s.csr.txtLen.toNat = false → s.stream = some bytes → Text.lines bytes = pre ++ bad :: post →
    runLines f s.lim s.csr pre Loader.start = .ok l → loadLine f s.lim s.csr (nextLine l) bad = .error e →
    e.info = pre.length + 1 ∧ exec i s = .next (s.raise e)

/-- 40_filter_loader.md R148 to R153: the checks after the last line in their order, the warning and the commit, for both slots
(`v` chooses `LDFILT.V`). -/
def Obligations.FilterChecksAndCommit : Prop :=
  ∀ (s : State) (v : Bool) (bytes : List Byte) (l : Loader),
    exceeds s.lim.txtMaxLen s.csr.txtLen.toNat = false → s.stream = some bytes →
    runLines .fltLine s.lim s.csr (Text.lines bytes) Loader.start = .ok l →
    let i : Instr := if v then .ldfiltV else .ldfiltH
    let rows := l.flt.rows
    let np := rows.length / (if l.flt.adaptive then 2 else 1)
    if rows = [] then exec i s = .next (s.raise ⟨.emptyFilter, 0⟩)
    else if l.flt.adaptive = true ∧ rows.length % 2 = 1 then exec i s = .next (s.raise ⟨.oddAdaptiveRowCount, 0⟩)
    else if np ∉ [4, 8, 16, 64, 256] then exec i s = .next (s.raise ⟨.invalidPhaseCount, 0⟩)
    else ∃ t f, exec i s = .next t ∧ Completed s t ∧ t.wf = s.wf ∧ t.sel = s.sel ∧ t.pl = s.pl ∧
      t.tables = (if v then { s.tables with filtV := some f } else { s.tables with filtH := some f }) ∧
      f.tenbit = l.flt.tenbit ∧ f.adaptive = l.flt.adaptive ∧ f.rows = rows ∧ f.nphases = np ∧
      (f.warn = true ↔ ∃ q ∈ rows, ∃ c ∈ [q.k0.toInt, q.k1.toInt, q.k2.toInt, q.k3.toInt],
        if l.flt.tenbit then c < -512 ∨ 511 < c else c < -256 ∨ 255 < c)

/-- 30_encoding.md R117, 95_test_vectors.md E2: a filter written out line by line (its mode tokens, then each row as four decimal
integers joined by commas) and loaded again is the same filter, coefficient for coefficient, in either slot. -/
def Obligations.FilterTextRoundTrip : Prop :=
  ∀ (s : State) (v : Bool) (f : FilterSlot), f.wf = true → exceeds s.lim.txtMaxLen s.csr.txtLen.toNat = false →
    s.stream = some (filterText f) →
    ∃ t, exec (if v then .ldfiltV else .ldfiltH) s = .next t ∧ Completed s t ∧ t.wf = s.wf ∧ t.sel = s.sel ∧ t.pl = s.pl ∧
      t.tables = (if v then { s.tables with filtV := some f } else { s.tables with filtH := some f })

/-- 41_mask_loader.md R179, R182, R183, R184: the end of a mask stream and the commit. -/
def Obligations.MaskChecksAndCommit : Prop :=
  ∀ (s : State) (bytes : List Byte) (l : Loader),
    exceeds s.lim.txtMaxLen s.csr.txtLen.toNat = false → s.stream = some bytes →
    runLines .mskLine s.lim s.csr (Text.lines bytes) Loader.start = .ok l →
    if l.msk.state = .rows then exec .ldmask s = .next (s.raise ⟨.badMaskStructure, 0⟩)
    else if l.msk.sets = [] then exec .ldmask s = .next (s.raise ⟨.noPatternsFound, 0⟩)
    else ∃ t, exec .ldmask s = .next t ∧ Completed s t ∧ t.wf = s.wf ∧ t.pl = s.pl ∧ t.sel = none ∧
      t.tables = { s.tables with mask := some l.msk.sets } ∧ maskWf l.msk.sets = true

/-- 30_encoding.md R104, R109, R115, 41_mask_loader.md R172, R184: pattern sets written out as a multi-resolution stream and
loaded again are the same sets in the same order. -/
def Obligations.MaskTextRoundTrip : Prop :=
  ∀ (s : State) (sets : List PatternSet), maskWf sets = true →
    (∀ p ∈ sets, exceeds s.lim.maxExtent p.res = false ∧ exceeds s.lim.maskMaxW p.w = false ∧
      exceeds s.lim.maskMaxH p.h = false) →
    exceeds s.lim.maskMaxSets sets.length = false → exceeds s.lim.txtMaxLen s.csr.txtLen.toNat = false →
    s.stream = some (maskText sets) →
    ∃ t, exec .ldmask s = .next t ∧ Completed s t ∧ t.wf = s.wf ∧ t.pl = s.pl ∧ t.sel = none ∧
      t.tables = { s.tables with mask := some sets }

/-- 30_encoding.md R109, R116: a legacy stream is the stream with a `Resolution=0` line in front of it. -/
def Obligations.LegacyMaskIsResolutionZero : Prop :=
  ∀ (lim : Config.Limits) (r : HostRegs) (xs : List Text) (m : MskWork),
    (∃ l, runLines .mskLine lim r xs Loader.start = .ok l ∧ l.msk = m) ↔
    (∃ l, runLines .mskLine lim r ((Text.tokResolution ++ [0x30#8]) :: xs) Loader.start = .ok l ∧ l.msk = m)

/-- 42_gamma_loader.md R206, R208: the end of a gamma stream and the commit. `GLUT[c][v]` is entry `v` of the data lines. -/
def Obligations.GammaChecksAndCommit : Prop :=
  ∀ (s : State) (bytes : List Byte) (l : Loader),
    exceeds s.lim.txtMaxLen s.csr.txtLen.toNat = false → s.stream = some bytes →
    runLines .gamLine s.lim s.csr (Text.lines bytes) Loader.start = .ok l →
    l.gam.lut.length ≤ 256 ∧
    if l.gam.lut.length ≠ 256 then exec .ldgamma s = .next (s.raise ⟨.gammaTableSizeMismatch, 0⟩)
    else ∃ t g, exec .ldgamma s = .next t ∧ Completed s t ∧ t.wf = s.wf ∧ t.sel = s.sel ∧ t.pl = s.pl ∧
      t.tables = { s.tables with gamma := some g } ∧ g.wf = true ∧
      ∀ (v : Nat) (e : Chan Byte), l.gam.lut[v]? = some e → g.r[v]? = some e.r ∧ g.g[v]? = some e.g ∧ g.b[v]? = some e.b

/-- 42_gamma_loader.md R202, R203, R208, 30_encoding.md R110: a gamma table written out as 256 three-channel lines and loaded
again is the same table. -/
def Obligations.GammaTextRoundTrip : Prop :=
  ∀ (s : State) (g : GammaTable), g.wf = true → exceeds s.lim.txtMaxLen s.csr.txtLen.toNat = false →
    s.stream = some (gammaText g) →
    ∃ t, exec .ldgamma s = .next t ∧ Completed s t ∧ t.wf = s.wf ∧ t.sel = s.sel ∧ t.pl = s.pl ∧
      t.tables = { s.tables with gamma := some g }

/-- 00_scope.md R5, 40_filter_loader.md R142, 41_mask_loader.md R172, 42_gamma_loader.md R202: the loop a load command runs over a
stream is its lines executed one by one as instructions. That a line can be given to the block alone is the model's (log 2). -/
def Obligations.LoadIsItsLines : Prop :=
  ∀ (s : State) (f : Format) (xs : List Text) (rest : List FeedItem) (l : Loader),
    f = .fltLine ∨ f = .mskLine ∨ f = .gamLine → s.feed = xs.map (FeedItem.unit f) ++ rest →
    runLines f s.lim s.csr xs s.ld = .ok l →
    Sys2Proof.core.run xs.length s = .next { s with feed := rest, ld := l }

/-! ### Lines and element words -/

/-- 40_filter_loader.md R143, R144, 41_mask_loader.md R173, R175, 42_gamma_loader.md R202: the lines that carry no data. -/
def Obligations.LinesWithoutData : Prop :=
  ∀ (s : State) (text : Text),
    (∀ i ∈ ([.fltBlank, .mskBlank, .mskComment text, .mskV2, .gamBlank, .gamComment text] : List Instr), exec i s = .next s) ∧
    exec (.fltComment text) s = .next { s with ld := { s.ld with flt := { s.ld.flt with nb := s.ld.flt.nb + 1 } } } ∧
    exec .flt10bit s = .next { s with ld := { s.ld with flt := { s.ld.flt with tenbit := true, nb := s.ld.flt.nb + 1 } } } ∧
    exec .fltAdaptive s = .next { s with ld := { s.ld with flt := { s.ld.flt with adaptive := true, nb := s.ld.flt.nb + 1 } } }

/-- 40_filter_loader.md R145, R154, 30_encoding.md R102, R112: a coefficient row, its four values kept as written, and its errors
in their order. -/
def Obligations.FltRowLine : Prop :=
  ∀ (s : State) (toks : List (Token Int)),
    if toks.length ≠ 4 ∨ none ∈ toks then exec (.fltRow toks) s = .next (s.raise ⟨.malformedCoefficientRow, s.ld.ln⟩)
    else if toks.any (fun tok => tok.any fun v => decide (v < -2147483648) || decide (2147483647 < v)) = true then
      exec (.fltRow toks) s = .next (s.raise ⟨.limitExceeded, s.ld.ln⟩)
    else ∃ q : Quad Coef, toks = [some q.k0.toInt, some q.k1.toInt, some q.k2.toInt, some q.k3.toInt] ∧
      exec (.fltRow toks) s = .next { s with ld := { s.ld with flt :=
        { s.ld.flt with rows := s.ld.flt.rows ++ [q], nb := s.ld.flt.nb + 1, cur := [] } } }

/-- 41_mask_loader.md R172, R174: a `Resolution=` line and its errors in their order. -/
def Obligations.MskResLine : Prop :=
  (∀ (s : State) (tok : Token Int), s.ld.msk.state = .rows →
    exec (.mskRes tok) s = .next (s.raise ⟨.badMaskStructure, s.ld.ln⟩)) ∧
  (∀ s : State, s.ld.msk.state ≠ .rows → exec (.mskRes none) s = .next (s.raise ⟨.badToken, s.ld.ln⟩)) ∧
  (∀ (s : State) (v : Int), s.ld.msk.state ≠ .rows →
    if v < 0 then exec (.mskRes (some v)) s = .next (s.raise ⟨.badToken, s.ld.ln⟩)
    else if exceeds s.lim.maxExtent v.toNat = true then exec (.mskRes (some v)) s = .next (s.raise ⟨.limitExceeded, s.ld.ln⟩)
    else exec (.mskRes (some v)) s =
      .next { s with ld := { s.ld with msk := { s.ld.msk with res := v.toNat, state := .dims } } })

/-- 41_mask_loader.md R172, R176, R180: a dimension line, width first, and its errors in their order. -/
def Obligations.MskDimsLine : Prop :=
  (∀ (s : State) (toks : List (Token Int)), (¬ ∃ w h, toks = [some w, some h]) →
    exec (.mskDims toks) s = .next (s.raise ⟨.missingDimensions, s.ld.ln⟩)) ∧
  (∀ (s : State) (w h : Int),
    if w < 1 ∨ h < 1 then exec (.mskDims [some w, some h]) s = .next (s.raise ⟨.badMaskStructure, s.ld.ln⟩)
    else if exceeds s.lim.maskMaxW w.toNat = true ∨ exceeds s.lim.maskMaxH h.toNat = true then
      exec (.mskDims [some w, some h]) s = .next (s.raise ⟨.limitExceeded, s.ld.ln⟩)
    else exec (.mskDims [some w, some h]) s = .next { s with ld := { s.ld with msk :=
      { s.ld.msk with w := w.toNat, h := h.toNat, cells := [], cur := [], state := .rows } } })

/-- 41_mask_loader.md R172, R177, R178, R180: a row of cells, the last row of a pattern, and the errors in their order; then, a
line with data where the block has all its rows. A `Resolution=` line (the eleven bytes written out) is none. -/
def Obligations.MskRowLine : Prop :=
  (∀ (s : State) (toks : List (Token CellWord)),
    toks.length ≠ s.ld.msk.w → exec (.mskRow toks) s = .next (s.raise ⟨.badMaskStructure, s.ld.ln⟩)) ∧
  (∀ (s : State) (toks : List (Token CellWord)), toks.length = s.ld.msk.w → none ∈ toks →
    exec (.mskRow toks) s = .next (s.raise ⟨.badToken, s.ld.ln⟩)) ∧
  (∀ (s : State) (row : List CellWord), row.length = s.ld.msk.w →
    if s.ld.msk.cells.length + 1 ≠ s.ld.msk.h then exec (.mskRow (row.map some)) s =
      .next { s with ld := { s.ld with msk := { s.ld.msk with cells := s.ld.msk.cells ++ [row], cur := [] } } }
    else if s.lim.maskMaxSets = some s.ld.msk.sets.length then
      exec (.mskRow (row.map some)) s = .next (s.raise ⟨.limitExceeded, s.ld.ln⟩)
    else exec (.mskRow (row.map some)) s = .next { s with ld := { s.ld with msk :=
      { s.ld.msk with
        cells := s.ld.msk.cells ++ [row], cur := [], state := .done
        sets := s.ld.msk.sets ++ [⟨s.ld.msk.res, s.ld.msk.w, s.ld.msk.h, s.ld.msk.cells ++ [row]⟩] } } }) ∧
  (∀ (lim : Config.Limits) (r : HostRegs) (l : Loader) (line : Text), l.msk.state = .done → Text.trim line ≠ [] →
    (Text.trim line).head? ≠ some 0x23#8 →
    ¬ [0x52#8, 0x65#8, 0x73#8, 0x6F#8, 0x6C#8, 0x75#8, 0x74#8, 0x69#8, 0x6F#8, 0x6E#8, 0x3D#8] <+: Text.trim line →
    loadLine .mskLine lim r l line = .error ⟨.badMaskStructure, l.ln⟩)

/-- 42_gamma_loader.md R203, R204, R207, 30_encoding.md R111, R116: a gamma data line: the overflow before anything else, then the
line's own tokens; a single value stands for all three channels; every value clamped. Blank and comment lines stay harmless. -/
def Obligations.GammaDataLines : Prop :=
  (∀ (s : State) (toks : List (Token Int)) (tok : Token Int), s.ld.gam.lut.length = 256 →
    exec (.gamRgb toks) s = .next (s.raise ⟨.gammaTableOverflow, s.ld.ln⟩) ∧
    exec (.gamMono tok) s = .next (s.raise ⟨.gammaTableOverflow, s.ld.ln⟩) ∧
    exec .gamBlank s = .next s ∧ ∀ text : Text, exec (.gamComment text) s = .next s) ∧
  (∀ (s : State) (toks : List (Token Int)), s.ld.gam.lut.length ≠ 256 → (¬ ∃ r g b, toks = [some r, some g, some b]) →
    exec (.gamRgb toks) s = .next (s.raise ⟨.badGammaLine, s.ld.ln⟩)) ∧
  (∀ s : State, s.ld.gam.lut.length ≠ 256 → exec (.gamMono none) s = .next (s.raise ⟨.badToken, s.ld.ln⟩)) ∧
  (∀ (s : State) (r g b : Int), s.ld.gam.lut.length ≠ 256 → ∃ e : Chan Byte,
    (e.r.toNat : ℤ) = max 0 (min 255 r) ∧ (e.g.toNat : ℤ) = max 0 (min 255 g) ∧ (e.b.toNat : ℤ) = max 0 (min 255 b) ∧
    exec (.gamRgb [some r, some g, some b]) s =
      .next { s with ld := { s.ld with gam := { lut := s.ld.gam.lut ++ [e], cur := [] } } }) ∧
  (∀ (s : State) (g : Int), s.ld.gam.lut.length ≠ 256 → ∃ v : Byte, (v.toNat : ℤ) = max 0 (min 255 g) ∧
    exec (.gamMono (some g)) s = .next { s with ld := { s.ld with gam := { lut := s.ld.gam.lut ++ [⟨v, v, v⟩], cur := [] } } })

/-- 30_encoding.md R104, R112, 20_memory.md R62: an element word goes to the structure in flight. That an element can be given to
the block alone is the model's (log 2). -/
def Obligations.ElementWords : Prop :=
  ∀ (s : State) (c : Coef) (cw : CellWord) (v : Byte) (p : Pixel),
    exec (.coef32 c) s = .next { s with ld := { s.ld with flt := { s.ld.flt with cur := s.ld.flt.cur ++ [c] } } } ∧
    exec (.mskCell cw) s = .next { s with ld := { s.ld with msk := { s.ld.msk with cur := s.ld.msk.cur ++ [cw] } } } ∧
    exec (.gam8 v) s = .next { s with ld := { s.ld with gam := { s.ld.gam with cur := s.ld.gam.cur ++ [v] } } } ∧
    exec (.pix32 p) s = .next { s with ld := { s.ld with pix := s.ld.pix ++ [p] } }

/-! ### The stages -/

/-- 45_gamma_compositor.md R280, R281: `GAMMA` looks every colour sample up in its own channel's table; alpha and the extents
stay. -/
def Obligations.GammaPixels : Prop :=
  ∀ (s : State) (f : Frame) (g : GammaTable), s.wf = some f → f.wf = true → s.tables.gamma = some g → g.wf = true →
    ∃ t f', exec .gamma s = .next t ∧ FrameCommand s t ∧ t.wf = some f' ∧ f'.wf = true ∧ f'.w = f.w ∧ f'.h = f.h ∧
      ∀ y x, y < f.h → x < f.w →
        g.r[(f.at y x).r.toNat]? = some (f'.at y x).r ∧ g.g[(f.at y x).g.toNat]? = some (f'.at y x).g ∧
        g.b[(f.at y x).b.toNat]? = some (f'.at y x).b ∧ (f'.at y x).a = (f.at y x).a

/-- 43_resampler.md R220, R221: position and phase in integers are the document's formulas over the rationals, for every
coordinate, every pair of extents and every legal phase count. -/
def Obligations.PositionMatchesTheDocument : Prop :=
  ∀ i S D P : Nat, 1 ≤ S → 1 ≤ D → legalPhases P = true →
    (pos i S D P).base = docBase i S D ∧ ((pos i S D P).phase : ℤ) = docPhase i S D P

/-- 43_resampler.md R223: the ranges of position, phase and taps. -/
def Obligations.PositionRanges : Prop :=
  ∀ i S D P : Nat, 1 ≤ S → i < D → 1 ≤ P →
    -1 ≤ (pos i S D P).base ∧ (pos i S D P).base ≤ (S : ℤ) - 1 ∧ (pos i S D P).phase < P ∧
    0 ≤ (pos i S D P).rem ∧ (pos i S D P).rem < 2 * (D : ℤ) ∧ ((pos i S D P).base = -1 → S < D) ∧
    ∀ k, k < 4 → tapCoord (pos i S D P).base S k < S

/-- 43_resampler.md R240, R241: the integer form of `QUANT` is clamp, then round half up, of the exact quotient. -/
def Obligations.QuantMatchesTheDocument : Prop :=
  ∀ num den : Int, 0 < den → ((quant num den).toNat : ℤ) = docRound ((num : ℚ) / (den : ℚ))

/-- 43_resampler.md R233, R238: the blend is the exact rational of the rule; it goes from dark alone to light alone, and grows
with the centre tap when light is above dark. -/
def Obligations.BlendFromDarkToLight : Prop :=
  (∀ (div : Nat) (t1 : Byte) (dark light : Int), 1 ≤ div →
    (blendNum true t1 dark light : ℚ) / (blendDen true div : ℚ)
      = (t1.toNat : ℚ) / 255 * ((light : ℚ) / (div : ℚ)) + (1 - (t1.toNat : ℚ) / 255) * ((dark : ℚ) / (div : ℚ))) ∧
  (∀ (div : Nat) (dark light : Int), 1 ≤ div →
    quant (blendNum true 0 dark light) (blendDen true div) = quant dark div ∧
    quant (blendNum true 255 dark light) (blendDen true div) = quant light div) ∧
  (∀ (div : Nat) (t t' : Byte) (dark light : Int), 1 ≤ div → dark ≤ light → t.toNat ≤ t'.toNat →
    (quant (blendNum true t dark light) (blendDen true div)).toNat
      ≤ (quant (blendNum true t' dark light) (blendDen true div)).toNat)

/-- 43_resampler.md R216, R219 to R242: every output pixel of `HRESAMPLE` is the document's rational formula on its row, channel
by channel, with alpha 255. -/
def Obligations.HresampleMatchesTheDocument : Prop :=
  ∀ (s : State) (f : Frame) (fl : FilterSlot), s.wf = some f → f.wf = true → s.tables.filtH = some fl → fl.wf = true →
    1 ≤ s.csr.dstW.toNat → exceeds s.lim.maxExtent s.csr.dstW.toNat = false → f.w ≠ s.csr.dstW.toNat →
    ∃ t f', exec .hresample s = .next t ∧ FrameCommand s t ∧ t.wf = some f' ∧ f'.wf = true ∧ f'.w = s.csr.dstW.toNat ∧
      f'.h = f.h ∧ ∀ y i, y < f.h → i < f'.w →
        ((f'.at y i).r.toNat : ℤ) = docSample fl fl.nphases f.w f'.w (fun j => (f.at y j).r) i ∧
        ((f'.at y i).g.toNat : ℤ) = docSample fl fl.nphases f.w f'.w (fun j => (f.at y j).g) i ∧
        ((f'.at y i).b.toNat : ℤ) = docSample fl fl.nphases f.w f'.w (fun j => (f.at y j).b) i ∧
        (f'.at y i).a = 255#8

/-- 43_resampler.md R217, R219 to R242: the same for `VRESAMPLE`, column by column. -/
def Obligations.VresampleMatchesTheDocument : Prop :=
  ∀ (s : State) (f : Frame) (fl : FilterSlot), s.wf = some f → f.wf = true → s.tables.filtV = some fl → fl.wf = true →
    1 ≤ s.csr.dstH.toNat → exceeds s.lim.maxExtent s.csr.dstH.toNat = false → f.h ≠ s.csr.dstH.toNat →
    ∃ t f', exec .vresample s = .next t ∧ FrameCommand s t ∧ t.wf = some f' ∧ f'.wf = true ∧ f'.h = s.csr.dstH.toNat ∧
      f'.w = f.w ∧ ∀ i x, i < f'.h → x < f.w →
        ((f'.at i x).r.toNat : ℤ) = docSample fl fl.nphases f.h f'.h (fun j => (f.at j x).r) i ∧
        ((f'.at i x).g.toNat : ℤ) = docSample fl fl.nphases f.h f'.h (fun j => (f.at j x).g) i ∧
        ((f'.at i x).b.toNat : ℤ) = docSample fl fl.nphases f.h f'.h (fun j => (f.at j x).b) i ∧
        (f'.at i x).a = 255#8

/-- 43_resampler.md R218: at equal extents a pass is skipped: the frame stays, alpha included, and no filter is needed. -/
def Obligations.EqualExtentsSkipThePass : Prop :=
  ∀ (s : State) (f : Frame), s.wf = some f →
    (1 ≤ f.w → exceeds s.lim.maxExtent f.w = false → f.w = s.csr.dstW.toNat →
      ∃ t, exec .hresample s = .next t ∧ FrameCommand s t ∧ t.wf = s.wf) ∧
    (1 ≤ f.h → exceeds s.lim.maxExtent f.h = false → f.h = s.csr.dstH.toNat →
      ∃ t, exec .vresample s = .next t ∧ FrameCommand s t ∧ t.wf = s.wf)

/-- 47_pipeline.md R324: the refusals of `GAMMA`, `HRESAMPLE`, `VRESAMPLE`, `SELPAT` and `MASK`, in their order. -/
def Obligations.StageRefusals : Prop :=
  (∀ s : State, s.wf = none ∨ s.tables.gamma = none → exec .gamma s = .next (s.raise ⟨.notReady, 0⟩)) ∧
  (∀ s : State, s.tables.mask = none → exec .selpat s = .next (s.raise ⟨.notReady, 0⟩)) ∧
  (∀ s : State, s.wf = none ∨ s.tables.mask = none ∨ s.sel = none → exec .mask s = .next (s.raise ⟨.notReady, 0⟩)) ∧
  (∀ s : State,
    if s.wf = none ∨ s.csr.dstW = 0#32 then exec .hresample s = .next (s.raise ⟨.notReady, 0⟩)
    else if exceeds s.lim.maxExtent s.csr.dstW.toNat = true then exec .hresample s = .next (s.raise ⟨.limitExceeded, 0⟩)
    else s.wfW ≠ s.csr.dstW.toNat → s.tables.filtH = none → exec .hresample s = .next (s.raise ⟨.notReady, 0⟩)) ∧
  (∀ s : State,
    if s.wf = none ∨ s.csr.dstH = 0#32 then exec .vresample s = .next (s.raise ⟨.notReady, 0⟩)
    else if exceeds s.lim.maxExtent s.csr.dstH.toNat = true then exec .vresample s = .next (s.raise ⟨.limitExceeded, 0⟩)
    else s.wfH ≠ s.csr.dstH.toNat → s.tables.filtV = none → exec .vresample s = .next (s.raise ⟨.notReady, 0⟩))

/-- 41_mask_loader.md R190 to R193: `SELPAT` latches the set with the highest threshold not above `OUT_H`, or the lowest
threshold when none qualifies; among equals the earliest. It is refused without a mask. -/
def Obligations.SelpatSelects : Prop :=
  (∀ s : State, s.tables.mask = none → exec .selpat s = .next (s.raise ⟨.notReady, 0⟩)) ∧
  ∀ (s : State) (sets : List PatternSet), s.tables.mask = some sets → sets ≠ [] →
    ∃ t n p, exec .selpat s = .next t ∧ Completed s t ∧ t.tables = s.tables ∧ t.pl = s.pl ∧ t.wf = s.wf ∧
      sets[n]? = some p ∧ t.sel = some ⟨n, p.res, p.w, p.h⟩ ∧
      ((p.res ≤ s.csr.outH.toNat ∧ ∀ m q, sets[m]? = some q → q.res ≤ s.csr.outH.toNat →
          q.res < p.res ∨ (q.res = p.res ∧ n ≤ m)) ∨
       ((∀ q ∈ sets, s.csr.outH.toNat < q.res) ∧ ∀ m q, sets[m]? = some q → p.res < q.res ∨ (q.res = p.res ∧ n ≤ m)))

/-- 44_mask_compositor.md R260 to R269: every pixel of `MASK` is the closed form of its cell, found by tiling the coordinates,
halved in 2x mode; alpha and the extents stay. Which of the three brighten bits is red is the spec's own presumption (log 6). -/
def Obligations.MaskPixels : Prop :=
  ∀ (s : State) (f : Frame) (sets : List PatternSet) (n : Nat) (p : PatternSet), s.wf = some f → f.wf = true →
    s.tables.mask = some sets → maskWf sets = true → sets[n]? = some p → s.sel = some ⟨n, p.res, p.w, p.h⟩ →
    ∃ t f', exec .mask s = .next t ∧ FrameCommand s t ∧ t.wf = some f' ∧ f'.wf = true ∧ f'.w = f.w ∧ f'.h = f.h ∧
      ∀ y x, y < f.h → x < f.w → ∃ row cw,
        p.cells[(if s.csr.ctrl.getLsbD 2 then y / 2 else y) % p.h]? = some row ∧
        row[(if s.csr.ctrl.getLsbD 2 then x / 2 else x) % p.w]? = some cw ∧
        (f'.at y x).r.toNat = docMaskChannel cw 10 (f.at y x).r ∧ (f'.at y x).g.toNat = docMaskChannel cw 9 (f.at y x).g ∧
        (f'.at y x).b.toNat = docMaskChannel cw 8 (f.at y x).b ∧ (f'.at y x).a = (f.at y x).a

/-! ### Placement -/

/-- 46_placement.md R294: fullscreen, by `PLACE` in mode 0 and by its variant, the same command (log 15). -/
def Obligations.PlaceFullscreen : Prop :=
  ∀ (s : State) (i : Instr), i = .placeFull ∨ i = .place → s.csr.scaleMode = 0#32 →
    (∀ v ∈ [s.csr.srcW, s.csr.srcH, s.csr.outW, s.csr.outH], exceeds s.lim.maxExtent v.toNat = false) →
    ∃ t, exec i s = .next t ∧ Completed s t ∧ t.tables = s.tables ∧ t.sel = s.sel ∧ t.wf = s.wf ∧
      t.pl = some ⟨0, 1, s.csr.outW.toNat, s.csr.outH.toNat, 0, 0⟩

/-- 46_placement.md R296, R297: aspect-fit is the document's formula over the rationals; the image fits the canvas. -/
def Obligations.PlaceAspectFit : Prop :=
  ∀ (s : State) (i : Instr), i = .placeFit ∨ i = .place → s.csr.scaleMode = 1#32 →
    (∀ v ∈ [s.csr.srcW, s.csr.srcH, s.csr.outW, s.csr.outH], exceeds s.lim.maxExtent v.toNat = false) →
    1 ≤ s.csr.srcW.toNat → 1 ≤ s.csr.srcH.toNat →
    ∃ t p, exec i s = .next t ∧ Completed s t ∧ t.tables = s.tables ∧ t.sel = s.sel ∧ t.wf = s.wf ∧ t.pl = some p ∧
      1 ≤ p.sden ∧ Nat.Coprime p.snum p.sden ∧
      (p.snum : ℚ) / (p.sden : ℚ)
        = min ((s.csr.outW.toNat : ℚ) / (s.csr.srcW.toNat : ℚ)) ((s.csr.outH.toNat : ℚ) / (s.csr.srcH.toNat : ℚ)) ∧
      (p.w : ℤ) = ⌊(s.csr.srcW.toNat : ℚ) * ((p.snum : ℚ) / (p.sden : ℚ))⌋ ∧
      (p.h : ℤ) = ⌊(s.csr.srcH.toNat : ℚ) * ((p.snum : ℚ) / (p.sden : ℚ))⌋ ∧
      p.w ≤ s.csr.outW.toNat ∧ p.h ≤ s.csr.outH.toNat ∧
      p.left = (s.csr.outW.toNat - p.w) / 2 ∧ p.top = (s.csr.outH.toNat - p.h) / 2

/-- 46_placement.md R300 to R303: stepped vertical scale. With `m` steps to 1, the result's step count `k` is the greatest one
whose height factor fits and whose width fits, or 0 with a zero size when none does. -/
def Obligations.PlaceSteppedScale : Prop :=
  ∀ (s : State) (i : Instr) (m : Nat), i = .placeVscale ∨ i = .place → s.csr.scaleMode = 2#32 →
    (s.csr.vscaleMode, m) ∈ [(1#32, 1), (2#32, 2), (3#32, 4)] →
    (∀ v ∈ [s.csr.srcW, s.csr.srcH, s.csr.outW, s.csr.outH], exceeds s.lim.maxExtent v.toNat = false) →
    1 ≤ s.csr.srcH.toNat → 1 ≤ s.csr.aspectNum.toNat → 1 ≤ s.csr.aspectDen.toNat →
    let srcH : ℚ := s.csr.srcH.toNat
    let outW : ℚ := s.csr.outW.toNat
    let outH : ℚ := s.csr.outH.toNat
    let aspect : ℚ := (s.csr.aspectNum.toNat : ℚ) / (s.csr.aspectDen.toNat : ℚ)
    let width : Nat → ℤ := fun k => ⌊srcH * ((k : ℚ) / (m : ℚ)) * aspect⌋
    ∃ (t : State) (p : Placement) (k : Nat), exec i s = .next t ∧ Completed s t ∧ t.tables = s.tables ∧ t.sel = s.sel ∧ t.wf = s.wf ∧ t.pl = some p ∧
      1 ≤ p.sden ∧ Nat.Coprime p.snum p.sden ∧ (p.snum : ℚ) / (p.sden : ℚ) = (k : ℚ) / (m : ℚ) ∧
      (k : ℚ) / (m : ℚ) ≤ outH / srcH ∧ (p.w : ℤ) = width k ∧ (p.w : ℚ) ≤ outW ∧
      (∀ k' : Nat, k < k' → (k' : ℚ) / (m : ℚ) ≤ outH / srcH → outW < (width k' : ℚ)) ∧
      (p.h : ℤ) = ⌊srcH * ((k : ℚ) / (m : ℚ))⌋ ∧ p.h ≤ s.csr.outH.toNat ∧
      p.left = (s.csr.outW.toNat - p.w) / 2 ∧ p.top = (s.csr.outH.toNat - p.h) / 2

/-- 46_placement.md R291 to R293, R307: the refusals of `PLACE` and of its variant in the same mode, in their order. -/
def Obligations.PlaceRefusals : Prop :=
  ∀ (s : State) (i : Instr),
    let mode := s.csr.scaleMode.toNat
    let step := s.csr.vscaleMode.toNat
    let tooLarge := ∃ v ∈ [s.csr.srcW, s.csr.srcH, s.csr.outW, s.csr.outH], exceeds s.lim.maxExtent v.toNat = true
    (2 < mode → exec .place s = .next (s.raise ⟨.invalidScalingMode, 0⟩)) ∧
    ((i, mode) ∈ ([(.place, 0), (.place, 1), (.place, 2), (.placeFull, 0), (.placeFit, 1), (.placeVscale, 2)] : List (Instr × Nat)) →
      (mode = 2 → step ∉ [1, 2, 3] → exec i s = .next (s.raise ⟨.invalidStepMode, 0⟩)) ∧
      ((mode = 2 → step ∈ [1, 2, 3]) → tooLarge → exec i s = .next (s.raise ⟨.limitExceeded, 0⟩)) ∧
      (mode = 1 → ¬ tooLarge → s.csr.srcW = 0#32 ∨ s.csr.srcH = 0#32 → exec i s = .next (s.raise ⟨.notReady, 0⟩)) ∧
      (mode = 2 → step ∈ [1, 2, 3] → ¬ tooLarge → s.csr.srcH = 0#32 ∨ s.csr.aspectNum = 0#32 ∨ s.csr.aspectDen = 0#32 →
        exec i s = .next (s.raise ⟨.notReady, 0⟩)))

/-! ### RUN -/

/-- 47_pipeline.md R330: a `RUN` whose needs are met is its stages' commands in the fixed order; frame, selection, tables, results
and status end the same. -/
def Obligations.RunIsItsStages : Prop :=
  ∀ (s : State) (f : Frame), s.Inv → s.wf = some f → 1 ≤ s.csr.dstW.toNat → 1 ≤ s.csr.dstH.toNat →
    exceeds s.lim.maxExtent s.csr.dstW.toNat = false → exceeds s.lim.maxExtent s.csr.dstH.toNat = false →
    (s.csr.ctrl.getLsbD 0 = true → s.tables.gamma.isSome = true) → (f.w ≠ s.csr.dstW.toNat → s.tables.filtH.isSome = true) →
    (f.h ≠ s.csr.dstH.toNat → s.tables.filtV.isSome = true) → (s.csr.ctrl.getLsbD 1 = true → s.tables.mask.isSome = true) →
    ∃ t u f', exec .run s = .next t ∧ Completed s t ∧ t.tables = s.tables ∧ t.pl = s.pl ∧ t.wf = some f' ∧
      f'.w = s.csr.dstW.toNat ∧ f'.h = s.csr.dstH.toNat ∧ (s.csr.ctrl.getLsbD 1 = false → t.sel = s.sel) ∧
      execAll ((if s.csr.ctrl.getLsbD 0 then [.gamma] else []) ++ [.hresample, .vresample]
        ++ (if s.csr.ctrl.getLsbD 1 then [.selpat, .mask] else [])) s = .next u ∧
      Completed s u ∧ u.wf = t.wf ∧ u.sel = t.sel ∧ u.tables = t.tables ∧ u.pl = t.pl

/-- 47_pipeline.md R331: `RUN` tests every need before any stage, in order; a refused `RUN` changes only the status, and one that
starts finishes, a selection or not. -/
def Obligations.RunRefusals : Prop :=
  ∀ s : State,
    if s.wf = none ∨ s.csr.dstW = 0#32 ∨ s.csr.dstH = 0#32 then exec .run s = .next (s.raise ⟨.notReady, 0⟩)
    else if exceeds s.lim.maxExtent s.csr.dstW.toNat = true ∨ exceeds s.lim.maxExtent s.csr.dstH.toNat = true then
      exec .run s = .next (s.raise ⟨.limitExceeded, 0⟩)
    else if (s.csr.ctrl.getLsbD 0 = true ∧ s.tables.gamma = none) ∨ (s.wfW ≠ s.csr.dstW.toNat ∧ s.tables.filtH = none) ∨
        (s.wfH ≠ s.csr.dstH.toNat ∧ s.tables.filtV = none) ∨ (s.csr.ctrl.getLsbD 1 = true ∧ s.tables.mask = none) then
      exec .run s = .next (s.raise ⟨.notReady, 0⟩)
    else ∃ t, exec .run s = .next t ∧ Completed s t ∧ t.wf.isSome = true

end Statements
end

