-- ==== Sys2Proof/Laws/Frames.lean ====
section
/-! SUPPORT. Reading a frame that a stage made, pixel by pixel, and that every stage makes a full frame. -/

namespace Sys2Proof.Machine

/-- What a full frame is (10_state.md R40). -/
theorem Frame.wf_iff (f : Frame) :
    f.wf = true ↔ 1 ≤ f.w ∧ 1 ≤ f.h ∧ f.w < 4294967296 ∧ f.h < 4294967296 ∧ f.px.length = f.h ∧
      ∀ row ∈ f.px, row.length = f.w := by
  simp [Frame.wf, and_assoc]

/-- Row `y` of a full frame. -/
theorem Frame.row_length (f : Frame) (h : f.wf = true) (y : Nat) (hy : y < f.h) : (f.px.getD y []).length = f.w := by
  obtain ⟨_, _, _, _, hl, hr⟩ := f.wf_iff.1 h
  have : y < f.px.length := by omega
  rw [List.getD_eq_getElem _ _ this]
  exact hr _ (List.getElem_mem _)

/-- The byte view at channel `c` of pixel `(y, x)` (20_memory.md R62). -/
theorem Frame.byte?_index (f : Frame) (y x c : Nat) (hy : y < f.h) (hx : x < f.w) (hc : c < 4) :
    f.byte? (4 * (y * f.w + x) + c) = some ((f.at y x).channel c) := by
  have hlt : y * f.w + x < f.w * f.h := by
    have := Nat.mul_le_mul_right f.w (show y + 1 ≤ f.h from hy)
    rw [Nat.add_mul] at this
    rw [Nat.mul_comm f.w f.h]
    omega
  have hq : (4 * (y * f.w + x) + c) / 4 = y * f.w + x := by omega
  have hr : (4 * (y * f.w + x) + c) % 4 = c := by omega
  have h0 : 0 < f.w := by omega
  rw [Frame.byte?, if_pos (by omega), hq, hr, Nat.mul_comm y, Nat.mul_add_div h0, Nat.mul_add_mod,
    Nat.div_eq_of_lt hx, Nat.mod_eq_of_lt hx, Nat.add_zero]

/-- The byte view ends after the last pixel. -/
theorem Frame.byte?_eq_none (f : Frame) (k : Nat) : f.byte? k = none ↔ 4 * (f.w * f.h) ≤ k := by
  simp [Frame.byte?]

/-- The light sums of an adaptive filter. -/
@[simp] theorem lightSums_adaptive (f : FilterSlot) (h : f.adaptive = true) (phase : Nat) (t : Chan (Quad Byte)) :
    lightSums f phase t = t.map (mac (f.row (f.nphases + phase))) := by simp [lightSums, h]

/-- A non-adaptive filter reads no light row. -/
@[simp] theorem lightSums_plain (f : FilterSlot) (h : f.adaptive = false) (phase : Nat) (t : Chan (Quad Byte)) :
    lightSums f phase t = Config.unwrittenAccL := by simp [lightSums, h]

/-- A non-adaptive blend is the dark sum, whatever the light one (43_resampler.md R232). -/
@[simp] theorem blendNum_plain (t1 : Byte) (accD accL : Int) : blendNum false t1 accD accL = accD := rfl

/-- The quantised output of one channel, from its taps and the coefficient rows `dark` and `light` (43_resampler.md R230 to
R241). -/
def channelOut (f : FilterSlot) (dark light : Quad Coef) (t : Quad Byte) : Byte :=
  quant (blendNum f.adaptive t.k1 (mac dark t) (mac light t)) (blendDen f.adaptive f.div)

/-- What one destination element outputs, channel by channel: the light row matters to an adaptive filter only. -/
theorem resampleElem_q (f : FilterSlot) (S D : Nat) (line : List Pixel) (i : Nat) :
    (resampleElem f S D line i).q =
      (tapSamples line (taps (pos i S D f.nphases).base S)).map (channelOut f (f.row (pos i S D f.nphases).phase)
        (f.row (f.nphases + (pos i S D f.nphases).phase))) := by
  cases h : f.adaptive <;> simp [resampleElem, channelOut, Chan.map, h]

/-- Reading a frame whose rows were each mapped. -/
theorem Frame.at_map_rows (f : Frame) (w : Nat) (g : List Pixel → List Pixel) (y x : Nat) (h : y < f.px.length) :
    ({ w := w, h := f.h, px := f.px.map g } : Frame).at y x = (g (f.px.getD y [])).getD x Pixel.absent := by
  simp [Frame.at, List.getD, h]

/-- `GAMMA`, pixel by pixel. -/
theorem gammaFrame_at (t : GammaTable) (f : Frame) (h : f.wf = true) (y x : Nat) (hy : y < f.h) (hx : x < f.w) :
    (gammaFrame t f).at y x = gammaPixel t (f.at y x) := by
  have hl := f.row_length h y hy
  obtain ⟨_, _, _, _, hpl, _⟩ := f.wf_iff.1 h
  have h1 : (gammaFrame t f).at y x = ((f.px.getD y []).map (gammaPixel t)).getD x Pixel.absent :=
    Frame.at_map_rows f f.w _ y x (by omega)
  have hx' : x < (f.px.getD y []).length := by omega
  rw [h1, List.getD_eq_getElem _ _ (by simpa using hx'), List.getElem_map]
  simp only [Frame.at, List.getD_eq_getElem _ _ hx']

/-- `GAMMA` makes a full frame. -/
theorem gammaFrame_wf (t : GammaTable) (f : Frame) (h : f.wf = true) : (gammaFrame t f).wf = true := by
  rw [Frame.wf_iff] at h ⊢
  obtain ⟨a, b, c, d, e, g⟩ := h
  refine ⟨a, b, c, d, by simpa [gammaFrame] using e, ?_⟩
  intro row hrow
  simp only [gammaFrame, List.mem_map] at hrow
  obtain ⟨r, hr, rfl⟩ := hrow
  simpa [gammaFrame] using g r hr

/-- `HRESAMPLE`, pixel by pixel. -/
theorem hresampleFrame_at (f : FilterSlot) (D : Nat) (fr : Frame) (h : fr.wf = true) (y i : Nat) (hy : y < fr.h) (hi : i < D) :
    (hresampleFrame f D fr).at y i = outPixel (resampleElem f fr.w D (fr.px.getD y []) i) := by
  obtain ⟨_, _, _, _, hpl, _⟩ := fr.wf_iff.1 h
  have h1 : (hresampleFrame f D fr).at y i = (resampleLine f fr.w D (fr.px.getD y [])).getD i Pixel.absent :=
    Frame.at_map_rows fr D _ y i (by omega)
  rw [h1, resampleLine, List.getD_eq_getElem _ _ (by simpa using hi), List.getElem_map, List.getElem_range]

/-- `HRESAMPLE` makes a full frame. -/
theorem hresampleFrame_wf (f : FilterSlot) (D : Nat) (fr : Frame) (h : fr.wf = true) (h1 : 1 ≤ D) (h2 : D < 4294967296) :
    (hresampleFrame f D fr).wf = true := by
  rw [Frame.wf_iff] at h ⊢
  obtain ⟨a, b, c, d, e, g⟩ := h
  refine ⟨h1, b, h2, d, by simpa [hresampleFrame] using e, ?_⟩
  intro row hrow
  simp only [hresampleFrame, List.mem_map] at hrow
  obtain ⟨r, hr, rfl⟩ := hrow
  simp [resampleLine, hresampleFrame]

/-- `VRESAMPLE`, pixel by pixel. -/
theorem vresampleFrame_at (f : FilterSlot) (D : Nat) (fr : Frame) (i x : Nat) (hi : i < D) (hx : x < fr.w) :
    (vresampleFrame f D fr).at i x = outPixel (resampleElem f fr.h D (fr.column x) i) := by
  simp [vresampleFrame, Frame.at, List.getD, hi, hx]

/-- `VRESAMPLE` makes a full frame. -/
theorem vresampleFrame_wf (f : FilterSlot) (D : Nat) (fr : Frame) (h : fr.wf = true) (h1 : 1 ≤ D) (h2 : D < 4294967296) :
    (vresampleFrame f D fr).wf = true := by
  rw [Frame.wf_iff] at h ⊢
  obtain ⟨a, b, c, d, e, g⟩ := h
  refine ⟨a, h1, c, h2, by simp [vresampleFrame], ?_⟩
  intro row hrow
  simp only [vresampleFrame, List.mem_map] at hrow
  obtain ⟨r, hr, rfl⟩ := hrow
  simp [vresampleFrame]

/-- A sample of a row of a full frame. -/
theorem Frame.row_getD (f : Frame) (y j : Nat) : (f.px.getD y []).getD j Pixel.absent = f.at y j := rfl

/-- A sample of a column of a full frame. -/
theorem Frame.column_getD (f : Frame) (h : f.wf = true) (x j : Nat) (hj : j < f.h) :
    (f.column x).getD j Pixel.absent = f.at j x := by
  obtain ⟨_, _, _, _, hpl, _⟩ := f.wf_iff.1 h
  have : j < f.px.length := by omega
  simp [Frame.column, Frame.at, List.getD, this]

/-- `MASK`, pixel by pixel. -/
theorem maskFrame_at (set : PatternSet) (w h : Nat) (is2x : Bool) (f : Frame) (hf : f.wf = true) (y x : Nat) (hy : y < f.h)
    (hx : x < f.w) : (maskFrame set w h is2x f).at y x = maskAt set w h is2x y x (f.at y x) := by
  have hl := f.row_length hf y hy
  obtain ⟨_, _, _, _, hpl, _⟩ := f.wf_iff.1 hf
  have hy' : y < f.px.length := by omega
  have hx' : x < (f.px.getD y []).length := by omega
  rw [List.getD_eq_getElem _ _ hy'] at hx'
  simp [maskFrame, Frame.at, List.getD, hy', hx']

/-- `MASK` makes a full frame. -/
theorem maskFrame_wf (set : PatternSet) (w h : Nat) (is2x : Bool) (f : Frame) (hf : f.wf = true) :
    (maskFrame set w h is2x f).wf = true := by
  rw [Frame.wf_iff] at hf ⊢
  obtain ⟨a, b, c, d, e, g⟩ := hf
  refine ⟨a, b, c, d, by simpa [maskFrame] using e, ?_⟩
  intro row hrow
  simp only [maskFrame, List.mem_mapIdx] at hrow
  obtain ⟨y, hy, rfl⟩ := hrow
  simpa [maskFrame] using g _ (List.getElem_mem _)

/-- The rows cut from a list of pixels. -/
theorem rowsOf_length (w h : Nat) (px : List Pixel) : (rowsOf w h px).length = h := by
  induction h generalizing px with
  | zero => rfl
  | succ h ih => simp [rowsOf, ih]

/-- Row `y`, column `x` of the rows cut from a list of pixels. -/
theorem rowsOf_getD (w : Nat) : ∀ (h : Nat) (px : List Pixel) (y x : Nat), y < h → x < w →
    ((rowsOf w h px).getD y []).getD x Pixel.absent = px.getD (y * w + x) Pixel.absent := by
  intro h
  induction h with
  | zero => intro px y x hy; omega
  | succ h ih =>
    intro px y x hy hx
    cases y with
    | zero => simp [rowsOf, List.getD, hx]
    | succ y =>
      have := ih (px.drop w) y x (by omega) hx
      simp only [rowsOf, List.getD_cons_succ]
      rw [this]
      simp [List.getD, List.getElem?_drop]
      congr 2
      ring

/-- Every row cut from enough pixels is full. -/
theorem rowsOf_rows (w : Nat) : ∀ (h : Nat) (px : List Pixel), h * w ≤ px.length → ∀ row ∈ rowsOf w h px, row.length = w := by
  intro h
  induction h with
  | zero => intro px _ row hrow; simp [rowsOf] at hrow
  | succ h ih =>
    intro px hp row hrow
    have e : (h + 1) * w = h * w + w := by ring
    rw [e] at hp
    simp only [rowsOf, List.mem_cons] at hrow
    rcases hrow with rfl | hrow
    · simp; omega
    · exact ih (px.drop w) (by simp; omega) row hrow

/-- The pixels of a byte list, four bytes each. -/
theorem pixelsOf_getElem? (bs : List Byte) (n k : Nat) (hb : bs.length = 4 * n) (hk : k < n) :
    ∃ p, (pixelsOf bs)[k]? = some p ∧ bs[4 * k]? = some p.r ∧ bs[4 * k + 1]? = some p.g ∧ bs[4 * k + 2]? = some p.b ∧
      bs[4 * k + 3]? = some p.a := by
  induction n generalizing bs k with
  | zero => omega
  | succ n ih =>
    match bs, hb with
    | r :: g :: b :: a :: rest, hb =>
      simp only [List.length_cons] at hb
      cases k with
      | zero => exact ⟨⟨r, g, b, a⟩, rfl, rfl, rfl, rfl, rfl⟩
      | succ k =>
        obtain ⟨p, h0, h1, h2, h3, h4⟩ := ih rest k (by omega) (by omega)
        refine ⟨p, by simpa [pixelsOf] using h0, ?_, ?_, ?_, ?_⟩
        · rw [show 4 * (k + 1) = 4 * k + 1 + 1 + 1 + 1 by ring]; simpa using h1
        · rw [show 4 * (k + 1) + 1 = 4 * k + 1 + 1 + 1 + 1 + 1 by ring]; simpa using h2
        · rw [show 4 * (k + 1) + 2 = 4 * k + 2 + 1 + 1 + 1 + 1 by ring]; simpa using h3
        · rw [show 4 * (k + 1) + 3 = 4 * k + 3 + 1 + 1 + 1 + 1 by ring]; simpa using h4

/-- As many pixels as the bytes make. -/
theorem pixelsOf_length (bs : List Byte) (n : Nat) (hb : bs.length = 4 * n) : (pixelsOf bs).length = n := by
  induction n generalizing bs with
  | zero => match bs, hb with | [], _ => rfl
  | succ n ih =>
    match bs, hb with
    | r :: g :: b :: a :: rest, hb =>
      simp only [List.length_cons] at hb
      simp [pixelsOf, ih rest (by omega)]

end Sys2Proof.Machine
end

