-- ==== Sys2Proof/Laws/State.lean ====
section
/-! SUPPORT. Each field after each update of the state (Machine/Ops.lean, Machine/Fetch.lean): one lemma per field per update,
true by `rfl`. -/

namespace Sys2Proof.Machine

/-! ### `State.raise` -/

@[simp] theorem State.raise_lim (s : State) (e : Raise) : (s.raise e).lim = s.lim := rfl

@[simp] theorem State.raise_csr (s : State) (e : Raise) : (s.raise e).csr = s.csr := rfl

@[simp] theorem State.raise_status (s : State) (e : Raise) : (s.raise e).status = { err := some e.code, done := false, esticky := true, info := e.info } := rfl

@[simp] theorem State.raise_tables (s : State) (e : Raise) : (s.raise e).tables = s.tables := rfl

@[simp] theorem State.raise_sel (s : State) (e : Raise) : (s.raise e).sel = s.sel := rfl

@[simp] theorem State.raise_pl (s : State) (e : Raise) : (s.raise e).pl = s.pl := rfl

@[simp] theorem State.raise_wf (s : State) (e : Raise) : (s.raise e).wf = s.wf := rfl

@[simp] theorem State.raise_txt (s : State) (e : Raise) : (s.raise e).txt = s.txt := rfl

@[simp] theorem State.raise_fin (s : State) (e : Raise) : (s.raise e).fin = s.fin := rfl

@[simp] theorem State.raise_seq (s : State) (e : Raise) : (s.raise e).seq = .idle := rfl

@[simp] theorem State.raise_work (s : State) (e : Raise) : (s.raise e).work = s.work := rfl

@[simp] theorem State.raise_ld (s : State) (e : Raise) : (s.raise e).ld = Loader.start := rfl

@[simp] theorem State.raise_rd (s : State) (e : Raise) : (s.raise e).rd = s.rd := rfl

@[simp] theorem State.raise_freeCount (s : State) (e : Raise) : (s.raise e).freeCount = s.freeCount := rfl

@[simp] theorem State.raise_resets (s : State) (e : Raise) : (s.raise e).resets = s.resets := rfl

@[simp] theorem State.raise_feed (s : State) (e : Raise) : (s.raise e).feed = s.feed := rfl

/-! ### `State.ack` -/

@[simp] theorem State.ack_lim (s : State) : s.ack.lim = s.lim := rfl

@[simp] theorem State.ack_csr (s : State) : s.ack.csr = s.csr := rfl

@[simp] theorem State.ack_status (s : State) : s.ack.status = { s.status with err := none, done := true, info := 0 } := rfl

@[simp] theorem State.ack_tables (s : State) : s.ack.tables = s.tables := rfl

@[simp] theorem State.ack_sel (s : State) : s.ack.sel = s.sel := rfl

@[simp] theorem State.ack_pl (s : State) : s.ack.pl = s.pl := rfl

@[simp] theorem State.ack_wf (s : State) : s.ack.wf = s.wf := rfl

@[simp] theorem State.ack_txt (s : State) : s.ack.txt = s.txt := rfl

@[simp] theorem State.ack_fin (s : State) : s.ack.fin = s.fin := rfl

@[simp] theorem State.ack_seq (s : State) : s.ack.seq = s.seq := rfl

@[simp] theorem State.ack_work (s : State) : s.ack.work = s.work := rfl

@[simp] theorem State.ack_ld (s : State) : s.ack.ld = s.ld := rfl

@[simp] theorem State.ack_rd (s : State) : s.ack.rd = s.rd := rfl

@[simp] theorem State.ack_freeCount (s : State) : s.ack.freeCount = s.freeCount := rfl

@[simp] theorem State.ack_resets (s : State) : s.ack.resets = s.resets := rfl

@[simp] theorem State.ack_feed (s : State) : s.ack.feed = s.feed := rfl

/-! ### `State.settle` -/

@[simp] theorem State.settle_lim (s : State) : s.settle.lim = s.lim := rfl

@[simp] theorem State.settle_csr (s : State) : s.settle.csr = s.csr := rfl

@[simp] theorem State.settle_status (s : State) : s.settle.status = s.status := rfl

@[simp] theorem State.settle_tables (s : State) : s.settle.tables = s.tables := rfl

@[simp] theorem State.settle_sel (s : State) : s.settle.sel = s.sel := rfl

@[simp] theorem State.settle_pl (s : State) : s.settle.pl = s.pl := rfl

@[simp] theorem State.settle_wf (s : State) : s.settle.wf = s.wf := rfl

@[simp] theorem State.settle_txt (s : State) : s.settle.txt = s.txt := rfl

@[simp] theorem State.settle_fin (s : State) : s.settle.fin = s.fin := rfl

@[simp] theorem State.settle_seq (s : State) : s.settle.seq = s.seq := rfl

@[simp] theorem State.settle_work (s : State) : s.settle.work = Config.freeWork s.freeCount := rfl

@[simp] theorem State.settle_ld (s : State) : s.settle.ld = s.ld := rfl

@[simp] theorem State.settle_rd (s : State) : s.settle.rd = s.rd := rfl

@[simp] theorem State.settle_freeCount (s : State) : s.settle.freeCount = s.freeCount + 1 := rfl

@[simp] theorem State.settle_resets (s : State) : s.settle.resets = s.resets := rfl

@[simp] theorem State.settle_feed (s : State) : s.settle.feed = s.feed := rfl

/-! ### `State.complete` -/

@[simp] theorem State.complete_lim (s : State) : s.complete.lim = s.lim := rfl

@[simp] theorem State.complete_csr (s : State) : s.complete.csr = s.csr := rfl

@[simp] theorem State.complete_status (s : State) : s.complete.status = { s.status with err := none, done := true, info := 0 } := rfl

@[simp] theorem State.complete_tables (s : State) : s.complete.tables = s.tables := rfl

@[simp] theorem State.complete_sel (s : State) : s.complete.sel = s.sel := rfl

@[simp] theorem State.complete_pl (s : State) : s.complete.pl = s.pl := rfl

@[simp] theorem State.complete_wf (s : State) : s.complete.wf = s.wf := rfl

@[simp] theorem State.complete_txt (s : State) : s.complete.txt = s.txt := rfl

@[simp] theorem State.complete_fin (s : State) : s.complete.fin = s.fin := rfl

@[simp] theorem State.complete_seq (s : State) : s.complete.seq = .idle := rfl

@[simp] theorem State.complete_work (s : State) : s.complete.work = Config.freeWork s.freeCount := rfl

@[simp] theorem State.complete_ld (s : State) : s.complete.ld = Loader.start := rfl

@[simp] theorem State.complete_rd (s : State) : s.complete.rd = s.rd := rfl

@[simp] theorem State.complete_freeCount (s : State) : s.complete.freeCount = s.freeCount + 1 := rfl

@[simp] theorem State.complete_resets (s : State) : s.complete.resets = s.resets := rfl

@[simp] theorem State.complete_feed (s : State) : s.complete.feed = s.feed := rfl

/-! ### `State.enter` -/

@[simp] theorem State.enter_lim (s : State) (st : Stage) : (s.enter st).lim = s.lim := rfl

@[simp] theorem State.enter_csr (s : State) (st : Stage) : (s.enter st).csr = s.csr := rfl

@[simp] theorem State.enter_status (s : State) (st : Stage) : (s.enter st).status = s.status := rfl

@[simp] theorem State.enter_tables (s : State) (st : Stage) : (s.enter st).tables = s.tables := rfl

@[simp] theorem State.enter_sel (s : State) (st : Stage) : (s.enter st).sel = s.sel := rfl

@[simp] theorem State.enter_pl (s : State) (st : Stage) : (s.enter st).pl = s.pl := rfl

@[simp] theorem State.enter_wf (s : State) (st : Stage) : (s.enter st).wf = s.wf := rfl

@[simp] theorem State.enter_txt (s : State) (st : Stage) : (s.enter st).txt = s.txt := rfl

@[simp] theorem State.enter_fin (s : State) (st : Stage) : (s.enter st).fin = s.fin := rfl

@[simp] theorem State.enter_seq (s : State) (st : Stage) : (s.enter st).seq = st := rfl

@[simp] theorem State.enter_work (s : State) (st : Stage) : (s.enter st).work = s.work := rfl

@[simp] theorem State.enter_ld (s : State) (st : Stage) : (s.enter st).ld = s.ld := rfl

@[simp] theorem State.enter_rd (s : State) (st : Stage) : (s.enter st).rd = s.rd := rfl

@[simp] theorem State.enter_freeCount (s : State) (st : Stage) : (s.enter st).freeCount = s.freeCount := rfl

@[simp] theorem State.enter_resets (s : State) (st : Stage) : (s.enter st).resets = s.resets := rfl

@[simp] theorem State.enter_feed (s : State) (st : Stage) : (s.enter st).feed = s.feed := rfl

/-! ### `State.hostWrite` -/

@[simp] theorem State.hostWrite_lim (s : State) (n : Nat) (v : Word) : (s.hostWrite n v).lim = s.lim := rfl

@[simp] theorem State.hostWrite_csr (s : State) (n : Nat) (v : Word) : (s.hostWrite n v).csr = s.csr.write n v := rfl

@[simp] theorem State.hostWrite_status (s : State) (n : Nat) (v : Word) : (s.hostWrite n v).status = s.status := rfl

@[simp] theorem State.hostWrite_tables (s : State) (n : Nat) (v : Word) : (s.hostWrite n v).tables = s.tables := rfl

@[simp] theorem State.hostWrite_sel (s : State) (n : Nat) (v : Word) : (s.hostWrite n v).sel = s.sel := rfl

@[simp] theorem State.hostWrite_pl (s : State) (n : Nat) (v : Word) : (s.hostWrite n v).pl = s.pl := rfl

@[simp] theorem State.hostWrite_wf (s : State) (n : Nat) (v : Word) : (s.hostWrite n v).wf = s.wf := rfl

@[simp] theorem State.hostWrite_txt (s : State) (n : Nat) (v : Word) : (s.hostWrite n v).txt = s.txt := rfl

@[simp] theorem State.hostWrite_fin (s : State) (n : Nat) (v : Word) : (s.hostWrite n v).fin = s.fin := rfl

@[simp] theorem State.hostWrite_seq (s : State) (n : Nat) (v : Word) : (s.hostWrite n v).seq = s.seq := rfl

@[simp] theorem State.hostWrite_work (s : State) (n : Nat) (v : Word) : (s.hostWrite n v).work = s.work := rfl

@[simp] theorem State.hostWrite_ld (s : State) (n : Nat) (v : Word) : (s.hostWrite n v).ld = s.ld := rfl

@[simp] theorem State.hostWrite_rd (s : State) (n : Nat) (v : Word) : (s.hostWrite n v).rd = s.rd := rfl

@[simp] theorem State.hostWrite_freeCount (s : State) (n : Nat) (v : Word) : (s.hostWrite n v).freeCount = s.freeCount := rfl

@[simp] theorem State.hostWrite_resets (s : State) (n : Nat) (v : Word) : (s.hostWrite n v).resets = s.resets := rfl

@[simp] theorem State.hostWrite_feed (s : State) (n : Nat) (v : Word) : (s.hostWrite n v).feed = s.feed := rfl

/-! ### `State.hostRead` -/

@[simp] theorem State.hostRead_lim (s : State) (n : Nat) : (s.hostRead n).lim = s.lim := rfl

@[simp] theorem State.hostRead_csr (s : State) (n : Nat) : (s.hostRead n).csr = s.csr := rfl

@[simp] theorem State.hostRead_status (s : State) (n : Nat) : (s.hostRead n).status = s.status := rfl

@[simp] theorem State.hostRead_tables (s : State) (n : Nat) : (s.hostRead n).tables = s.tables := rfl

@[simp] theorem State.hostRead_sel (s : State) (n : Nat) : (s.hostRead n).sel = s.sel := rfl

@[simp] theorem State.hostRead_pl (s : State) (n : Nat) : (s.hostRead n).pl = s.pl := rfl

@[simp] theorem State.hostRead_wf (s : State) (n : Nat) : (s.hostRead n).wf = s.wf := rfl

@[simp] theorem State.hostRead_txt (s : State) (n : Nat) : (s.hostRead n).txt = s.txt := rfl

@[simp] theorem State.hostRead_fin (s : State) (n : Nat) : (s.hostRead n).fin = s.fin := rfl

@[simp] theorem State.hostRead_seq (s : State) (n : Nat) : (s.hostRead n).seq = s.seq := rfl

@[simp] theorem State.hostRead_work (s : State) (n : Nat) : (s.hostRead n).work = s.work := rfl

@[simp] theorem State.hostRead_ld (s : State) (n : Nat) : (s.hostRead n).ld = s.ld := rfl

@[simp] theorem State.hostRead_rd (s : State) (n : Nat) : (s.hostRead n).rd = { s.rd with word := s.regRead n } := rfl

@[simp] theorem State.hostRead_freeCount (s : State) (n : Nat) : (s.hostRead n).freeCount = s.freeCount := rfl

@[simp] theorem State.hostRead_resets (s : State) (n : Nat) : (s.hostRead n).resets = s.resets := rfl

@[simp] theorem State.hostRead_feed (s : State) (n : Nat) : (s.hostRead n).feed = s.feed := rfl

/-! ### `State.latchByte`, and the host's port reads -/

@[simp] theorem State.latchByte_lim (s : State) (b : Byte) : (s.latchByte b).lim = s.lim := rfl

@[simp] theorem State.latchByte_csr (s : State) (b : Byte) : (s.latchByte b).csr = s.csr := rfl

@[simp] theorem State.latchByte_status (s : State) (b : Byte) : (s.latchByte b).status = s.status := rfl

@[simp] theorem State.latchByte_tables (s : State) (b : Byte) : (s.latchByte b).tables = s.tables := rfl

@[simp] theorem State.latchByte_sel (s : State) (b : Byte) : (s.latchByte b).sel = s.sel := rfl

@[simp] theorem State.latchByte_pl (s : State) (b : Byte) : (s.latchByte b).pl = s.pl := rfl

@[simp] theorem State.latchByte_wf (s : State) (b : Byte) : (s.latchByte b).wf = s.wf := rfl

@[simp] theorem State.latchByte_txt (s : State) (b : Byte) : (s.latchByte b).txt = s.txt := rfl

@[simp] theorem State.latchByte_fin (s : State) (b : Byte) : (s.latchByte b).fin = s.fin := rfl

@[simp] theorem State.latchByte_seq (s : State) (b : Byte) : (s.latchByte b).seq = s.seq := rfl

@[simp] theorem State.latchByte_work (s : State) (b : Byte) : (s.latchByte b).work = s.work := rfl

@[simp] theorem State.latchByte_ld (s : State) (b : Byte) : (s.latchByte b).ld = s.ld := rfl

@[simp] theorem State.latchByte_rd (s : State) (b : Byte) : (s.latchByte b).rd = { s.rd with byte := b } := rfl

@[simp] theorem State.latchByte_freeCount (s : State) (b : Byte) : (s.latchByte b).freeCount = s.freeCount := rfl

@[simp] theorem State.latchByte_resets (s : State) (b : Byte) : (s.latchByte b).resets = s.resets := rfl

@[simp] theorem State.latchByte_feed (s : State) (b : Byte) : (s.latchByte b).feed = s.feed := rfl

/-- Reading a byte of `TXT` latches it and does nothing else. -/
@[simp] theorem State.hostTxt_eq (s : State) (i : Nat) :
    s.hostTxt i = s.latchByte (s.txt.view (Config.unwrittenTxt s.resets) i) := rfl

/-- Reading a byte of `FIN` latches it and does nothing else. -/
@[simp] theorem State.hostFin_eq (s : State) (i : Nat) :
    s.hostFin i = s.latchByte (s.fin.view (Config.unwrittenFin s.resets) i) := rfl

/-! ### `State.platformReset` -/

@[simp] theorem State.platformReset_lim (s : State) : s.platformReset.lim = s.lim := rfl

@[simp] theorem State.platformReset_csr (s : State) : s.platformReset.csr = State.reset.csr := rfl

@[simp] theorem State.platformReset_status (s : State) : s.platformReset.status = State.reset.status := rfl

@[simp] theorem State.platformReset_tables (s : State) : s.platformReset.tables = State.reset.tables := rfl

@[simp] theorem State.platformReset_sel (s : State) : s.platformReset.sel = State.reset.sel := rfl

@[simp] theorem State.platformReset_pl (s : State) : s.platformReset.pl = State.reset.pl := rfl

@[simp] theorem State.platformReset_wf (s : State) : s.platformReset.wf = State.reset.wf := rfl

@[simp] theorem State.platformReset_txt (s : State) : s.platformReset.txt = State.reset.txt := rfl

@[simp] theorem State.platformReset_fin (s : State) : s.platformReset.fin = State.reset.fin := rfl

@[simp] theorem State.platformReset_seq (s : State) : s.platformReset.seq = State.reset.seq := rfl

@[simp] theorem State.platformReset_work (s : State) : s.platformReset.work = State.reset.work := rfl

@[simp] theorem State.platformReset_ld (s : State) : s.platformReset.ld = State.reset.ld := rfl

@[simp] theorem State.platformReset_rd (s : State) : s.platformReset.rd = State.reset.rd := rfl

@[simp] theorem State.platformReset_freeCount (s : State) : s.platformReset.freeCount = s.freeCount := rfl

@[simp] theorem State.platformReset_resets (s : State) : s.platformReset.resets = s.resets + 1 := rfl

@[simp] theorem State.platformReset_feed (s : State) : s.platformReset.feed = s.feed := rfl

end Sys2Proof.Machine
end

