-- ==== Sys2Proof/Laws/Ops.lean ====
section
/-! SUPPORT. What each shared operation can do, said once: the tests before a command, a command, a line on its own, the loop over
the lines, the fetch, the step. -/

namespace Sys2Proof.Machine

/-- All tests pass. -/
theorem firstFailure_none (needs : List (Bool × CmdError)) :
    firstFailure needs = none ↔ ∀ c ∈ needs, c.1 = true := by
  induction needs with
  | nil => simp [firstFailure]
  | cons c cs ih =>
    obtain ⟨ok, e⟩ := c
    cases ok <;> simp [firstFailure, ih]

/-- The first test that fails names the error. -/
theorem firstFailure_some (needs : List (Bool × CmdError)) (e : CmdError) :
    firstFailure needs = some e ↔
      ∃ pre post, needs = pre ++ (false, e) :: post ∧ ∀ c ∈ pre, c.1 = true := by
  induction needs with
  | nil => simp [firstFailure]
  | cons c cs ih =>
    obtain ⟨ok, e'⟩ := c
    cases ok with
    | false =>
      simp only [firstFailure, Bool.false_eq_true, if_false, Option.some.injEq]
      constructor
      · rintro rfl; exact ⟨[], cs, rfl, by simp⟩
      · rintro ⟨pre, post, h, hpre⟩
        cases pre with
        | nil => simp at h; exact h.1
        | cons d pre => simp at h; have := hpre d (by simp); rw [← h.1] at this; simp at this
    | true =>
      simp only [firstFailure, if_true]
      rw [ih]
      constructor
      · rintro ⟨pre, post, rfl, hpre⟩; exact ⟨(true, e') :: pre, post, rfl, by simpa using hpre⟩
      · rintro ⟨pre, post, h, hpre⟩
        cases pre with
        | nil => simp at h
        | cons d pre =>
          simp at h
          exact ⟨pre, post, h.2, fun c hc => hpre c (by simp [hc])⟩

/-- Everything a command can do: it never stops the machine, it takes an error, or it completes. -/
theorem runCommand_cases (s : State) (needs : List (Bool × CmdError)) (body : State → Except Raise State) :
    (∃ e, firstFailure needs = some e ∧ runCommand s needs body = .next (s.raise ⟨e, 0⟩)) ∨
    (∃ e, firstFailure needs = none ∧ body s = .error e ∧ runCommand s needs body = .next (s.raise e)) ∨
    (∃ t, firstFailure needs = none ∧ body s = .ok t ∧ runCommand s needs body = .next t.complete) := by
  unfold runCommand
  cases hf : firstFailure needs with
  | some e => exact .inl ⟨e, rfl, rfl⟩
  | none =>
    cases hb : body s with
    | error e => exact .inr (.inl ⟨e, rfl, rfl, by simp⟩)
    | ok t => exact .inr (.inr ⟨t, rfl, rfl, by simp⟩)

/-- A command whose tests pass and whose body succeeds. -/
theorem runCommand_ok (s t : State) (needs : List (Bool × CmdError)) (body : State → Except Raise State)
    (hn : ∀ c ∈ needs, c.1 = true) (hb : body s = .ok t) : runCommand s needs body = .next t.complete := by
  simp [runCommand, (firstFailure_none needs).2 hn, hb]

/-- A line or an element on its own changes the loader's working values or takes an error. -/
theorem loaderStep_cases (s : State) (r : Except Raise Loader) :
    (∃ l, r = .ok l ∧ loaderStep s r = .next { s with ld := l }) ∨
    (∃ e, r = .error e ∧ loaderStep s r = .next (s.raise e)) := by
  cases r with
  | ok l => exact .inl ⟨l, rfl, rfl⟩
  | error e => exact .inr ⟨e, rfl, rfl⟩

/-- The loop over the lines, one line taken off. -/
theorem runLines_cons (f : Format) (lim : Config.Limits) (r : HostRegs) (x : Text) (xs : List Text) (l : Loader) :
    runLines f lim r (x :: xs) l =
      match loadLine f lim r (nextLine l) x with
      | .error e => .error e
      | .ok l' => runLines f lim r xs l' := rfl

/-- The loop over a stream that is processed without error, cut anywhere. -/
theorem runLines_append (f : Format) (lim : Config.Limits) (r : HostRegs) (xs ys : List Text) (l : Loader) :
    runLines f lim r (xs ++ ys) l =
      match runLines f lim r xs l with
      | .error e => .error e
      | .ok l' => runLines f lim r ys l' := by
  induction xs generalizing l with
  | nil => rfl
  | cons x xs ih =>
    simp only [List.cons_append, runLines_cons]
    cases loadLine f lim r (nextLine l) x with
    | error e => rfl
    | ok l' => exact ih l'

/-- The step takes the next entry of the feed. -/
theorem step_cons (s : State) (it : FeedItem) (rest : List FeedItem) (h : s.feed = it :: rest) :
    step s =
      match ({ s with feed := rest }).fetch it with
      | .instr i t => exec i t
      | .done t => .next t
      | .fault f => .fault f
      | .refused r => .refused r := by
  unfold step
  split
  · rename_i h'; rw [h] at h'; cases h'
  · rename_i it' rest' h'
    rw [h] at h'
    cases h'
    rfl

/-- With an empty feed the block holds its state. -/
theorem step_idle (s : State) (h : s.feed = []) : step s = .next s := by
  unfold step
  rw [h]

/-- No steps. -/
theorem run_zero (s : State) : Sys2Proof.core.run 0 s = .next s := rfl

/-- One step of any machine, then the others. -/
theorem Core.run_add_one (M : Host.Core) (k : Nat) (s : M.State) :
    M.run (k + 1) s =
      match M.step s with
      | .next s' => M.run k s'
      | .fault r => .fault r
      | .refused r => .refused r := by rfl

/-- One step, then the others. -/
theorem run_succ (k : Nat) (s t : State) (h : step s = .next t) :
    Sys2Proof.core.run (k + 1) s = Sys2Proof.core.run k t := by
  have h' : Sys2Proof.core.step s = .next t := h
  have e := Core.run_add_one Sys2Proof.core k s
  rw [h'] at e
  exact e

end Sys2Proof.Machine
end

