-- ==== Sys2Proof/Laws/Loader.lean ====
section
/-! SUPPORT. The loader: tokens, what one line can do to the working values, and what holds of them at the end of a stream. -/

namespace Sys2Proof.Machine

/-- Legal tokens give back their values. -/
@[simp] theorem allLegal_map {α : Type} (vs : List α) : allLegal (vs.map some) = some vs := by
  induction vs with
  | nil => rfl
  | cons v vs ih => simp [allLegal, ih]

/-- A list of tokens has no values exactly when one of them is illegal. -/
theorem allLegal_none {α : Type} (ts : List (Token α)) : allLegal ts = none ↔ none ∈ ts := by
  induction ts with
  | nil => simp [allLegal]
  | cons t ts ih =>
    cases t with
    | none => simp [allLegal]
    | some v => cases h : allLegal ts <;> simp_all [allLegal]

/-- A list of tokens with values is the list of their values. -/
theorem allLegal_some {α : Type} (ts : List (Token α)) (vs : List α) : allLegal ts = some vs ↔ ts = vs.map some := by
  constructor
  · induction ts generalizing vs with
    | nil => intro h; simp [allLegal] at h; subst h; rfl
    | cons t ts ih =>
      intro h
      cases t with
      | none => simp [allLegal] at h
      | some v =>
        cases h' : allLegal ts with
        | none => simp [allLegal, h'] at h
        | some ws =>
          simp [allLegal, h'] at h
          subst h
          simp [ih ws h']
  · rintro rfl; exact allLegal_map vs

/-- A gamma value is clamped (30_encoding.md R111). -/
theorem gamByte_toNat (v : Int) : ((gamByte v).toNat : ℤ) = max 0 (min 255 v) := by
  unfold gamByte clampInt
  split
  · simp; omega
  · split
    · simp; omega
    · rw [BitVec.toNat_ofInt]; omega

/-- A coefficient that fits is kept as written (30_encoding.md R112). -/
theorem coefWord_toInt (v : Int) (h : coefFits v = true) : (coefWord v).toInt = v := by
  simp [coefFits] at h
  unfold coefWord
  rw [BitVec.toInt_ofInt]
  simp [Int.bmod]
  omega

/-- Every coefficient fits. -/
theorem coefFits_toInt (c : Coef) : coefFits c.toInt = true := by
  have h1 := BitVec.le_toInt c
  have h2 := BitVec.toInt_lt (x := c)
  simp [coefFits]
  omega

/-- Writing a coefficient and reading it back. -/
theorem coefWord_of_toInt (c : Coef) : coefWord c.toInt = c := by
  simp [coefWord]

/-! ### One line -/

/-- What a line of one of the three streams can do: it is an instruction of the loader, or it is a stray mask line. -/
theorem loadLine_cases (f : Format) (lim : Config.Limits) (r : HostRegs) (l : Loader) (line : Text)
    (hf : f = .fltLine ∨ f = .mskLine ∨ f = .gamLine) :
    (∃ i op, decode f (l.ctx r) line = .ok i ∧ i.format = f ∧ loaderOp lim i = some op ∧ loadLine f lim r l line = op l) ∨
    (f = .mskLine ∧ decode f (l.ctx r) line = .error .strayMaskLine ∧
      loadLine f lim r l line = .error ⟨.badMaskStructure, l.ln⟩) := by
  rcases hf with rfl | rfl | rfl
  · refine .inl ?_
    simp only [loadLine, decode, decodeFlt]
    split
    · exact ⟨_, _, rfl, rfl, rfl, rfl⟩
    · split
      · exact ⟨_, _, rfl, rfl, rfl, rfl⟩
      · split
        · exact ⟨_, _, rfl, rfl, rfl, rfl⟩
        · split <;> exact ⟨_, _, rfl, rfl, rfl, rfl⟩
  · simp only [loadLine, decode, decodeMsk]
    split
    · exact .inl ⟨_, _, rfl, rfl, rfl, rfl⟩
    · split
      · exact .inl ⟨_, _, rfl, rfl, rfl, rfl⟩
      · split
        · exact .inl ⟨_, _, rfl, rfl, rfl, rfl⟩
        · split
          · split <;> exact .inl ⟨_, _, rfl, rfl, rfl, rfl⟩
          · exact .inl ⟨_, _, rfl, rfl, rfl, rfl⟩
          · exact .inr ⟨trivial, rfl, rfl⟩
  · refine .inl ?_
    simp only [loadLine, decode, decodeGam]
    split
    · exact ⟨_, _, rfl, rfl, rfl, rfl⟩
    · split
      · exact ⟨_, _, rfl, rfl, rfl, rfl⟩
      · split <;> exact ⟨_, _, rfl, rfl, rfl, rfl⟩

/-- After a pattern's last row nothing but the mask working values changed. -/
theorem endPattern_cases (lim : Config.Limits) (l : Loader) :
    (endPattern lim l = .error ⟨.limitExceeded, l.ln⟩ ∧ l.msk.cells.length = l.msk.h ∧ lim.maskMaxSets = some l.msk.sets.length) ∨
    (endPattern lim l = .ok { l with msk := { l.msk with
        sets := l.msk.sets ++ [⟨l.msk.res, l.msk.w, l.msk.h, l.msk.cells⟩], state := .done } } ∧
      l.msk.cells.length = l.msk.h ∧ lim.maskMaxSets ≠ some l.msk.sets.length) ∨
    (endPattern lim l = .ok l ∧ l.msk.cells.length ≠ l.msk.h) := by
  unfold endPattern
  split
  · split
    · exact .inl ⟨rfl, by assumption, by assumption⟩
    · exact .inr (.inl ⟨rfl, by assumption, by assumption⟩)
  · exact .inr (.inr ⟨rfl, by assumption⟩)

/-- The row operation once its row is complete. -/
theorem opMskRow_ok (lim : Config.Limits) (row : List CellWord) (l : Loader) (h : row.length = l.msk.w) :
    opMskRow lim (row.map some) l =
      endPattern lim { l with msk := { l.msk with cells := l.msk.cells ++ [row], cur := [] } } := by
  simp [opMskRow, h, closeCells, putCells, openCells]

/-- The row operation of a filter once its four values fit. -/
theorem opFltRow_ok (q : Quad Coef) (l : Loader) :
    opFltRow [some q.k0.toInt, some q.k1.toInt, some q.k2.toInt, some q.k3.toInt] l =
      .ok { l with flt := { l.flt with rows := l.flt.rows ++ [q], nb := l.flt.nb + 1, cur := [] } } := by
  simp [opFltRow, allLegal, coefFits_toInt, coefWord_of_toInt, closeRow, putCoefs, openRow, countLine]

/-- A line operation that succeeds with the line number kept. -/
theorem ok_ln {n : Nat} (r : Loader) (hr : r.ln = n) :
    (∀ l', (Except.ok r : Except Raise Loader) = .ok l' → l'.ln = n) ∧
      (∀ e, (Except.ok r : Except Raise Loader) = .error e → e.info = n) := by
  constructor
  · intro l' h; cases h; exact hr
  · intro e h; cases h

/-- A line operation that fails with the line number. -/
theorem error_ln {n : Nat} (x : Raise) (hx : x.info = n) :
    (∀ l', (Except.error x : Except Raise Loader) = .ok l' → l'.ln = n) ∧
      (∀ e, (Except.error x : Except Raise Loader) = .error e → e.info = n) := by
  constructor
  · intro l' h; cases h
  · intro e h; cases h; exact hx

/-- No line operation changes the line number, and every error carries it (30_encoding.md R97, 10_state.md R27). -/
theorem loaderOp_ln (lim : Config.Limits) (i : Instr) (op : Loader → Except Raise Loader) (h : loaderOp lim i = some op) (l : Loader) :
    (∀ l', op l = .ok l' → l'.ln = l.ln) ∧ (∀ e, op l = .error e → e.info = l.ln) := by
  have close : ∀ l : Loader, (closeRow l).ln = l.ln := by intro l; unfold closeRow; split <;> rfl
  have closeE : ∀ l : Loader, (closeEntry l).ln = l.ln := by intro l; unfold closeEntry; split <;> rfl
  cases i <;> simp only [loaderOp, Option.some.injEq, reduceCtorEq] at h <;> subst h
  case fltBlank => exact ok_ln _ rfl
  case flt10bit => exact ok_ln _ rfl
  case fltAdaptive => exact ok_ln _ rfl
  case fltComment => exact ok_ln _ rfl
  case fltRow toks =>
    unfold opFltRow
    split
    · exact error_ln _ rfl
    · split
      · exact error_ln _ rfl
      · split
        · exact ok_ln _ (close _)
        · exact error_ln _ rfl
  case mskBlank => exact ok_ln _ rfl
  case mskComment => exact ok_ln _ rfl
  case mskRes tok =>
    unfold opMskRes
    split
    · exact error_ln _ rfl
    · split
      · exact error_ln _ rfl
      · split
        · exact error_ln _ rfl
        · split
          · exact error_ln _ rfl
          · exact ok_ln _ rfl
  case mskV2 => exact ok_ln _ rfl
  case mskDims toks =>
    unfold opMskDims
    split
    · split
      · exact error_ln _ rfl
      · split
        · exact error_ln _ rfl
        · exact ok_ln _ rfl
    · exact error_ln _ rfl
  case mskRow toks =>
    unfold opMskRow
    split
    · exact error_ln _ rfl
    · split
      · exact error_ln _ rfl
      · rename_i cws _
        rcases endPattern_cases lim (closeCells (putCells cws (openCells l))) with ⟨h, _⟩ | ⟨h, _⟩ | ⟨h, _⟩ <;> rw [h]
        · exact error_ln _ rfl
        · exact ok_ln _ rfl
        · exact ok_ln _ rfl
  case mskCell => exact ok_ln _ rfl
  case gamBlank => exact ok_ln _ rfl
  case gamComment => exact ok_ln _ rfl
  case gamRgb toks =>
    unfold opGamRgb
    split
    · exact error_ln _ rfl
    · split
      · exact ok_ln _ (closeE _)
      · exact error_ln _ rfl
  case gamMono tok =>
    unfold opGamMono
    split
    · exact error_ln _ rfl
    · split
      · exact ok_ln _ (closeE _)
      · exact error_ln _ rfl
  case coef32 => exact ok_ln _ rfl
  case gam8 => exact ok_ln _ rfl
  case pix32 => exact ok_ln _ rfl

/-- A line keeps the line number, and its error carries it. -/
theorem loadLine_ln (f : Format) (lim : Config.Limits) (r : HostRegs) (l : Loader) (line : Text)
    (hf : f = .fltLine ∨ f = .mskLine ∨ f = .gamLine) :
    (∀ l', loadLine f lim r l line = .ok l' → l'.ln = l.ln) ∧ (∀ e, loadLine f lim r l line = .error e → e.info = l.ln) := by
  rcases loadLine_cases f lim r l line hf with ⟨i, op, _, _, ho, he⟩ | ⟨_, _, he⟩
  · rw [he]; exact loaderOp_ln lim i op ho l
  · rw [he]; exact error_ln _ rfl

/-! ### A whole stream -/

/-- An invariant of one line holds after a stream. -/
theorem runLines_invariant (P : Loader → Prop) (f : Format) (lim : Config.Limits) (r : HostRegs)
    (hnext : ∀ l, P l → P (nextLine l)) (hline : ∀ l line l', P l → loadLine f lim r l line = .ok l' → P l')
    (xs : List Text) : ∀ (l l' : Loader), P l → runLines f lim r xs l = .ok l' → P l' := by
  induction xs with
  | nil => intro l l' hl h; cases h; exact hl
  | cons x xs ih =>
    intro l l' hl h
    rw [runLines_cons] at h
    cases hx : loadLine f lim r (nextLine l) x with
    | error e => rw [hx] at h; cases h
    | ok l1 => rw [hx] at h; exact ih l1 l' (hline _ _ _ (hnext l hl) hx) h

/-- The line number counts the lines (30_encoding.md R97). -/
theorem runLines_ln (f : Format) (lim : Config.Limits) (r : HostRegs) (hf : f = .fltLine ∨ f = .mskLine ∨ f = .gamLine)
    (xs : List Text) : ∀ (l l' : Loader), runLines f lim r xs l = .ok l' → l'.ln = l.ln + xs.length := by
  induction xs with
  | nil => intro l l' h; cases h; rfl
  | cons x xs ih =>
    intro l l' h
    rw [runLines_cons] at h
    cases hx : loadLine f lim r (nextLine l) x with
    | error e => rw [hx] at h; cases h
    | ok l1 =>
      rw [hx] at h
      have h1 := (loadLine_ln f lim r (nextLine l) x hf).1 l1 hx
      have h2 := ih l1 l' h
      rw [h2, h1]
      simp [nextLine]
      omega

/-- What holds of the mask working values between lines (41_mask_loader.md R172): finished sets are complete patterns, and the
block in progress has full rows and not yet all of them. -/
def mskGood (m : MskWork) : Prop :=
  (∀ p ∈ m.sets, p.wf = true) ∧
  (m.state = .rows → 1 ≤ m.w ∧ 1 ≤ m.h ∧ m.cells.length < m.h ∧ ∀ row ∈ m.cells, row.length = m.w)

/-- A mask line keeps `mskGood`. -/
theorem loadLine_mskGood (lim : Config.Limits) (r : HostRegs) (l : Loader) (line : Text) (l' : Loader) (hg : mskGood l.msk)
    (h : loadLine .mskLine lim r l line = .ok l') : mskGood l'.msk := by
  obtain ⟨hs, hr⟩ := hg
  simp only [loadLine, decode, decodeMsk] at h
  split at h
  · rename_i why hd
    split at hd
    · cases hd
    · split at hd
      · cases hd
      · split at hd
        · cases hd
        · split at hd
          · split at hd <;> cases hd
          · cases hd
          · cases hd; simp [rejectRaise] at h
  · rename_i i hd
    split at hd
    · cases hd; cases h; exact ⟨hs, hr⟩
    · rename_i b rest _
      split at hd
      · cases hd; cases h; exact ⟨hs, hr⟩
      · split at hd
        · cases hd
          simp only [loaderOp, opMskRes] at h
          split at h
          · cases h
          · split at h
            · cases h
            · split at h
              · cases h
              · split at h
                · cases h
                · cases h; exact ⟨hs, by simp⟩
        · split at hd
          · split at hd
            · cases hd; cases h; exact ⟨hs, hr⟩
            · cases hd
              simp only [loaderOp, opMskDims] at h
              split at h
              · split at h
                · cases h
                · split at h
                  · cases h
                  · cases h
                    refine ⟨hs, fun _ => ⟨by simp; omega, by simp; omega, by simp; omega, by simp⟩⟩
              · cases h
          · rename_i hst
            cases hd
            have hst' : l.msk.state = .rows := hst
            obtain ⟨hw, hh, hc, hrow⟩ := hr hst'
            simp only [loaderOp, opMskRow] at h
            split at h
            · cases h
            · rename_i hlen
              split at h
              · cases h
              · rename_i cws hcws
                have hl : cws.length = l.msk.w := by
                  have e := (allLegal_some _ _).1 hcws
                  have := congrArg List.length e
                  simp at this hlen
                  omega
                have hc1 : (closeCells (putCells cws (openCells l))).msk.cells = l.msk.cells ++ [cws] := rfl
                have hfull : ∀ row ∈ l.msk.cells ++ [cws], row.length = l.msk.w := by
                  intro row hm
                  rcases List.mem_append.1 hm with hm | hm
                  · exact hrow row hm
                  · simp at hm; rw [hm]; exact hl
                rcases endPattern_cases lim (closeCells (putCells cws (openCells l))) with ⟨h', _⟩ | ⟨h', he, _⟩ | ⟨h', he⟩
                · rw [h'] at h; cases h
                · rw [h'] at h; cases h
                  rw [hc1] at he
                  refine ⟨?_, by simp⟩
                  intro p hp
                  rcases List.mem_append.1 hp with hp | hp
                  · exact hs p hp
                  · simp only [List.mem_singleton] at hp
                    subst hp
                    have h1 : (l.msk.cells ++ [cws]).length = l.msk.h := he
                    simp only [PatternSet.wf, Bool.and_eq_true, decide_eq_true_eq, List.all_eq_true]
                    exact ⟨⟨⟨hw, hh⟩, h1⟩, hfull⟩
                · rw [h'] at h; cases h
                  rw [hc1] at he
                  have h1 : (l.msk.cells ++ [cws]).length ≠ l.msk.h := he
                  simp at h1
                  exact ⟨hs, fun _ => ⟨hw, hh, by rw [hc1]; show _ < l.msk.h; simp; omega, by rw [hc1]; exact hfull⟩⟩
          · cases hd

/-- The mask loader's working values at the end of a stream. -/
theorem runLines_mskGood (lim : Config.Limits) (r : HostRegs) (xs : List Text) (l : Loader)
    (h : runLines .mskLine lim r xs Loader.start = .ok l) : mskGood l.msk :=
  runLines_invariant (fun l => mskGood l.msk) .mskLine lim r (fun _ h => h)
    (fun l line l' hl h => loadLine_mskGood lim r l line l' hl h) xs _ l ⟨by simp [Loader.start], by simp [Loader.start]⟩ h

/-- A gamma line never stores a 257th entry (42_gamma_loader.md R204). -/
theorem loadLine_gam_le (lim : Config.Limits) (r : HostRegs) (l : Loader) (line : Text) (l' : Loader)
    (hg : l.gam.lut.length ≤ 256) (h : loadLine .gamLine lim r l line = .ok l') : l'.gam.lut.length ≤ 256 := by
  unfold loadLine decode decodeGam at h
  cases ht : Text.trim line with
  | nil => simp only [ht, loaderOp, opGamBlank] at h; cases h; exact hg
  | cons b rest =>
    simp only [ht] at h
    by_cases h1 : b = Text.hash
    · simp only [if_pos h1, loaderOp, opGamComment] at h; cases h; exact hg
    · by_cases h2 : Text.comma ∈ b :: rest
      · simp only [if_neg h1, if_pos h2, loaderOp, opGamRgb] at h
        split at h
        · cases h
        · split at h
          · cases h
            simp [gamEntry, closeEntry, putGams, openEntry]; omega
          · cases h
      · simp only [if_neg h1, if_neg h2, loaderOp, opGamMono] at h
        split at h
        · cases h
        · split at h
          · cases h
            simp [gamEntry, closeEntry, putGams, openEntry]; omega
          · cases h

/-- The gamma loader's entries at the end of a stream. -/
theorem runLines_gam_le (lim : Config.Limits) (r : HostRegs) (xs : List Text) (l : Loader)
    (h : runLines .gamLine lim r xs Loader.start = .ok l) : l.gam.lut.length ≤ 256 :=
  runLines_invariant (fun l => l.gam.lut.length ≤ 256) .gamLine lim r (fun _ h => h)
    (fun l line l' hl h => loadLine_gam_le lim r l line l' hl h) xs _ l (by simp [Loader.start]) h

end Sys2Proof.Machine
end

