-- ==== Sys2Proof/Laws/Memory.lean ====
section
/-! SUPPORT. The laws of the port memories: a read after a write, and that every operation keeps the canonical form. -/

namespace Sys2Proof.Machine

/-- Reading the index just written. -/
@[simp] theorem Memory.read_write_same (m : Memory) (i : Nat) (v : Byte) : Memory.read (Memory.write m i v) i = some v := by
  induction m with
  | nil => simp [Memory.write, Memory.read]
  | cons c m ih =>
    obtain ⟨a, b⟩ := c
    unfold Memory.write
    split
    · simp [Memory.read]
    · split
      · simp [Memory.read]
      · rename_i h1 h2
        have h3 : ¬ a = i := fun h => h2 h.symm
        simp only [Memory.read, if_neg h3, ih]

/-- What the host reads where a byte was written. -/
theorem Memory.view_of_read {m : Memory} {i : Nat} {b : Byte} (free : Nat → Byte) (h : Memory.read m i = some b) :
    m.view free i = b := by
  rw [Memory.view, h, Option.getD_some]

/-- What the host reads where no byte was written. -/
theorem Memory.view_of_none {m : Memory} {i : Nat} (free : Nat → Byte) (h : Memory.read m i = none) : m.view free i = free i := by
  rw [Memory.view, h, Option.getD_none]

/-- Reading any other index of a canonical memory. -/
theorem Memory.read_write_other (m : Memory) (i j : Nat) (v : Byte) (h : j ≠ i) :
    Memory.read (Memory.write m i v) j = Memory.read m j := by
  induction m with
  | nil => simp [Memory.write, Memory.read, Ne.symm h]
  | cons c m ih =>
    obtain ⟨a, b⟩ := c
    unfold Memory.write
    split
    · simp [Memory.read, Ne.symm h]
    · split
      · rename_i h1 h2
        subst h2
        simp [Memory.read, Ne.symm h]
      · simp only [Memory.read, ih]

/-- A memory is canonical when its first index is below every later one and the rest is canonical. -/
theorem Memory.wf_cons (a : Nat) (b : Byte) (m : Memory) :
    Memory.wf ((a, b) :: m) = true ↔ (∀ c ∈ m.head?, a < c.1) ∧ Memory.wf m = true := by
  cases m with
  | nil => simp [Memory.wf]
  | cons c m => obtain ⟨a', b'⟩ := c; simp [Memory.wf]

/-- The first index after a write is the written one or the old first one. -/
theorem Memory.head_write (m : Memory) (i : Nat) (v : Byte) (c : Host.Cell) (h : c ∈ (Memory.write m i v).head?) :
    c.1 = i ∨ c ∈ m.head? := by
  cases m with
  | nil => simp [Memory.write] at h; exact .inl (by rw [← h])
  | cons d m =>
    obtain ⟨a, b⟩ := d
    unfold Memory.write at h
    split at h
    · simp at h; exact .inl (by rw [← h])
    · split at h
      · simp at h; exact .inl (by rw [← h])
      · simp at h; exact .inr (by simp [h])

/-- A write keeps the canonical form. -/
theorem Memory.write_wf (m : Memory) (i : Nat) (v : Byte) (h : Memory.wf m = true) :
    Memory.wf (Memory.write m i v) = true := by
  induction m with
  | nil => rfl
  | cons c m ih =>
    obtain ⟨a, b⟩ := c
    have hm := (Memory.wf_cons a b m).1 h
    unfold Memory.write
    split
    · rename_i hia
      exact (Memory.wf_cons i v _).2 ⟨by simpa using hia, h⟩
    · split
      · rename_i _ hia
        subst hia
        exact (Memory.wf_cons _ v m).2 hm
      · rename_i h1 h2
        refine (Memory.wf_cons a b _).2 ⟨fun c hc => ?_, ih hm.2⟩
        rcases Memory.head_write m i v c hc with h' | h'
        · omega
        · exact hm.1 c h'

/-- A block write keeps the canonical form. -/
theorem Memory.writeRange_wf (m : Memory) (i : Nat) (vs : List Byte) (h : Memory.wf m = true) :
    Memory.wf (Memory.writeRange m i vs) = true := by
  induction vs generalizing m i with
  | nil => exact h
  | cons v vs ih => exact ih _ _ (Memory.write_wf m i v h)

/-- The bytes a range read gives, index by index. -/
theorem Memory.readRange_some (m : Memory) (n : Nat) : ∀ (i : Nat) (bs : List Byte), m.readRange i n = some bs →
    bs.length = n ∧ ∀ k, k < n → Memory.read m (i + k) = bs[k]? := by
  induction n with
  | zero => intro i bs h; simp [Memory.readRange] at h; subst h; simp
  | succ n ih =>
    intro i bs h
    simp only [Memory.readRange] at h
    split at h
    · cases h
    · rename_i b hb
      split at h
      · cases h
      · rename_i rest hrest
        cases h
        obtain ⟨hl, hr⟩ := ih _ _ hrest
        refine ⟨by simp [hl], fun k hk => ?_⟩
        cases k with
        | zero => simpa using hb
        | succ k => have := hr k (by omega); simpa [Nat.add_assoc, Nat.add_comm 1 k] using this

/-- A range read succeeds exactly when every byte of the range was written (10_state.md R42). -/
theorem Memory.readRange_isSome (m : Memory) (n : Nat) : ∀ i : Nat,
    (m.readRange i n).isSome = true ↔ ∀ k, k < n → (Memory.read m (i + k)).isSome = true := by
  induction n with
  | zero => intro i; simp [Memory.readRange]
  | succ n ih =>
    intro i
    have key : (∀ k, k < n + 1 → (Memory.read m (i + k)).isSome = true) ↔
        (Memory.read m i).isSome = true ∧ ∀ k, k < n → (Memory.read m (i + 1 + k)).isSome = true := by
      constructor
      · intro h
        exact ⟨by simpa using h 0 (by omega), fun k hk => by have := h (k + 1) (by omega); rwa [show i + (k + 1) = i + 1 + k by omega] at this⟩
      · rintro ⟨h0, h1⟩ k hk
        cases k with
        | zero => simpa using h0
        | succ k => have := h1 k (by omega); rwa [show i + 1 + k = i + (k + 1) by omega] at this
    rw [key, ← ih (i + 1)]
    simp only [Memory.readRange]
    cases hm : Memory.read m i with
    | none => simp
    | some b => cases hr : Memory.readRange m (i + 1) n <;> simp

/-- The port memories of the reset state are canonical. -/
theorem reset_ports_wf : State.reset.txt.wf = true ∧ State.reset.fin.wf = true := ⟨rfl, rfl⟩

end Sys2Proof.Machine
end

