-- ==== Sys2Proof/Laws/Text.lean ====
section
/-! SUPPORT. What reading text does to text that was written: trimming, cutting at commas and at line ends, decimal integers,
cell tokens (30_encoding.md R96 to R107); and that tokens are read as the grammar says. -/

namespace Sys2Proof.Text

/-! ### Trimming -/

theorem trim_of_ends {t : Text} (hh : ∀ b, t.head? = some b → isSpace b = false)
    (hl : ∀ b, t.getLast? = some b → isSpace b = false) : trim t = t := by
  have drop_id : ∀ u : Text, (∀ b, u.head? = some b → isSpace b = false) → u.dropWhile isSpace = u := by
    intro u hu
    cases u with
    | nil => rfl
    | cons b u => simp [hu b rfl]
  unfold trim
  rw [drop_id t hh, drop_id t.reverse (by simpa using hl), List.reverse_reverse]

/-- A text without white space is its own trimmed form. -/
theorem trim_of_noSpace {t : Text} (h : ∀ b ∈ t, isSpace b = false) : trim t = t :=
  trim_of_ends (fun b hb => h b (List.mem_of_mem_head? hb)) (fun b hb => h b (List.mem_of_mem_getLast? hb))

/-- The six white-space bytes. -/
theorem mem_docSpaces (b : Byte) : b ∈ Machine.docSpaces ↔ isSpace b = true := by
  revert b; decide

/-- White space in front is dropped. -/
theorem trim_append_left {pre : Text} (t : Text) (h : ∀ b ∈ pre, isSpace b = true) : trim (pre ++ t) = trim t := by
  unfold trim
  rw [List.dropWhile_append_of_pos (by simpa using h)]

/-- White space at the end is dropped. -/
theorem trim_append_right {post : Text} (t : Text) (h : ∀ b ∈ post, isSpace b = true) : trim (t ++ post) = trim t := by
  unfold trim
  rw [List.dropWhile_append]
  split
  · rename_i he
    have h1 : t.dropWhile isSpace = [] := by simpa using he
    have h2 : post.dropWhile isSpace = [] := by rw [List.dropWhile_eq_nil_iff]; exact h
    rw [h1, h2]
  · rw [List.reverse_append, List.dropWhile_append_of_pos (by simpa using h)]

/-- Every text is its trimmed form with white space around it. -/
theorem trim_split (t : Text) : ∃ pre post, t = pre ++ trim t ++ post ∧ (∀ b ∈ pre, isSpace b = true) ∧
    ∀ b ∈ post, isSpace b = true := by
  refine ⟨t.takeWhile isSpace, ((t.dropWhile isSpace).reverse.takeWhile isSpace).reverse, ?_,
    fun b hb => List.mem_takeWhile_imp hb, fun b hb => List.mem_takeWhile_imp (List.mem_reverse.1 hb)⟩
  have h := congrArg List.reverse (List.takeWhile_append_dropWhile (p := isSpace) (l := (t.dropWhile isSpace).reverse))
  rw [List.reverse_append, List.reverse_reverse] at h
  rw [trim, List.append_assoc, h, List.takeWhile_append_dropWhile]

/-- Trimming finds the text between the white space (30_encoding.md R98). -/
theorem trim_eq_iff {t : Text} (core : Text) (hh : ∀ b, core.head? = some b → isSpace b = false)
    (hl : ∀ b, core.getLast? = some b → isSpace b = false) :
    trim t = core ↔ ∃ pre post, (∀ b ∈ pre, b ∈ Machine.docSpaces) ∧ (∀ b ∈ post, b ∈ Machine.docSpaces) ∧
      t = pre ++ core ++ post := by
  constructor
  · rintro rfl
    obtain ⟨pre, post, h, h1, h2⟩ := trim_split t
    exact ⟨pre, post, fun b hb => (mem_docSpaces b).2 (h1 b hb), fun b hb => (mem_docSpaces b).2 (h2 b hb), h⟩
  · rintro ⟨pre, post, h1, h2, rfl⟩
    rw [trim_append_right _ fun b hb => (mem_docSpaces b).1 (h2 b hb),
      trim_append_left _ fun b hb => (mem_docSpaces b).1 (h1 b hb), trim_of_ends hh hl]

/-! ### Commas -/

theorem cutCommas_noComma {t : Text} (h : comma ∉ t) : cutCommas t = [t] := by
  induction t with
  | nil => rfl
  | cons b t ih =>
    simp only [List.mem_cons, not_or] at h
    simp [cutCommas, ih h.2, Ne.symm h.1]

theorem cutCommas_append {t : Text} (h : comma ∉ t) (rest : Text) :
    cutCommas (t ++ comma :: rest) = t :: cutCommas rest := by
  induction t with
  | nil => simp [cutCommas]
  | cons b t ih =>
    simp only [List.mem_cons, not_or] at h
    simp [cutCommas, ih h.2, Ne.symm h.1]

/-- Pieces without commas, joined and cut again (30_encoding.md R100). -/
theorem cutCommas_joinCommas {ts : List Text} (hne : ts ≠ []) (h : ∀ t ∈ ts, comma ∉ t) :
    cutCommas (joinCommas ts) = ts := by
  induction ts with
  | nil => exact absurd rfl hne
  | cons t ts ih =>
    cases ts with
    | nil => exact cutCommas_noComma (h t (by simp))
    | cons u us =>
      rw [joinCommas, cutCommas_append (h t (by simp)), ih (by simp) (fun x hx => h x (by simp [hx]))]
      simp

theorem splitCommas_joinCommas {ts : List Text} (hne : ts ≠ []) (h : ∀ t ∈ ts, comma ∉ t)
    (hs : ∀ t ∈ ts, ∀ b ∈ t, isSpace b = false) : splitCommas (joinCommas ts) = ts := by
  rw [splitCommas, cutCommas_joinCommas hne h]
  conv_rhs => rw [← List.map_id ts]
  exact List.map_congr_left fun t ht => trim_of_noSpace (hs t ht)

theorem mem_joinCommas {ts : List Text} {b : Byte} (h : b ∈ joinCommas ts) : b = comma ∨ ∃ t ∈ ts, b ∈ t := by
  induction ts with
  | nil => simp [joinCommas] at h
  | cons t ts ih =>
    cases ts with
    | nil => exact .inr ⟨t, by simp, h⟩
    | cons u us =>
      simp only [joinCommas, List.mem_append, List.mem_cons] at h
      rcases h with h | h | h
      · exact .inr ⟨t, by simp, h⟩
      · exact .inl h
      · rcases ih (by simpa [joinCommas] using h) with h | ⟨x, hx, hb⟩
        · exact .inl h
        · exact .inr ⟨x, by simp [hx], hb⟩

/-! ### Lines -/

theorem lines_ended {l : Text} (h : ∀ b ∈ l, b ≠ lf ∧ b ≠ cr) (rest : Text) :
    lines (l ++ [lf] ++ rest) = l :: lines rest := by
  induction l with
  | nil => simp [lines]
  | cons b l ih =>
    have hb := h b (by simp)
    have ih' := ih fun c hc => h c (by simp [hc])
    simp only [List.append_assoc, List.cons_append, List.nil_append] at ih' ⊢
    rw [lines, if_neg hb.1, if_neg hb.2, ih']

/-- Lines written out, each ended by LF, are cut into the same lines and one empty last line (30_encoding.md R96). -/
theorem lines_joinLines {ls : List Text} (h : ∀ l ∈ ls, ∀ b ∈ l, b ≠ lf ∧ b ≠ cr) :
    lines (Machine.joinLines ls) = ls ++ [[]] := by
  induction ls with
  | nil => rfl
  | cons l ls ih =>
    have : Machine.joinLines (l :: ls) = l ++ [lf] ++ Machine.joinLines ls := by simp [Machine.joinLines]
    rw [this, lines_ended (h l (by simp)), ih fun x hx => h x (by simp [hx])]
    rfl

/-! ### Decimal integers -/

theorem digit_facts (d : Nat) (h : d < 10) :
    isDigit (BitVec.ofNat 8 (0x30 + d)) = true ∧ (BitVec.ofNat 8 (0x30 + d)).toNat - 0x30 = d := by
  interval_cases d <;> decide

theorem isDigit_facts {b : Byte} (h : isDigit b = true) :
    isSpace b = false ∧ b ≠ comma ∧ b ≠ minus ∧ b ≠ hash ∧ b ≠ lf ∧ b ≠ cr := by
  revert b; decide

theorem minus_facts : isSpace minus = false ∧ minus ≠ comma ∧ minus ≠ hash ∧ minus ≠ lf ∧ minus ≠ cr := by decide

theorem decimalAux_spec (fuel n : Nat) (acc : Text) (h : n < fuel) :
    ∃ ds, decimalAux fuel n acc = ds ++ acc ∧ ds ≠ [] ∧ ds.all isDigit = true ∧
      ds.foldl (fun v b => 10 * v + (b.toNat - 0x30)) 0 = n := by
  induction fuel generalizing n acc with
  | zero => omega
  | succ fuel ih =>
    have hd := digit_facts (n % 10) (Nat.mod_lt _ (by decide))
    simp only [decimalAux]
    split
    · refine ⟨[BitVec.ofNat 8 (0x30 + n % 10)], rfl, by simp, by simp [hd.1], ?_⟩
      rw [List.foldl_cons, List.foldl_nil, hd.2]
      omega
    · obtain ⟨ds, h1, h2, h3, h4⟩ := ih (n / 10) (BitVec.ofNat 8 (0x30 + n % 10) :: acc) (by omega)
      refine ⟨ds ++ [BitVec.ofNat 8 (0x30 + n % 10)], by simp [h1], by simp, by simp only [List.all_append, h3, List.all_cons, hd.1, List.all_nil, Bool.and_self], ?_⟩
      rw [List.foldl_append, h4, List.foldl_cons, List.foldl_nil, hd.2]
      omega

theorem decimal_spec (n : Nat) : decimal n ≠ [] ∧ (decimal n).all isDigit = true ∧
    (decimal n).foldl (fun v b => 10 * v + (b.toNat - 0x30)) 0 = n := by
  obtain ⟨ds, h1, h2, h3, h4⟩ := decimalAux_spec (n + 1) n [] (by omega)
  rw [decimal, h1, List.append_nil]
  exact ⟨h2, h3, h4⟩

@[simp] theorem digitsValue_decimal (n : Nat) : digitsValue (decimal n) = some n := by
  obtain ⟨h1, h2, h3⟩ := decimal_spec n
  rw [digitsValue, if_pos ⟨h1, h2⟩, h3]

theorem mem_decimal {n : Nat} {b : Byte} (h : b ∈ decimal n) : isDigit b = true :=
  List.all_eq_true.mp (decimal_spec n).2.1 b h

theorem mem_intText {v : Int} {b : Byte} (h : b ∈ intText v) : b = minus ∨ isDigit b = true := by
  unfold intText at h
  split at h
  · rcases List.mem_cons.mp h with h | h
    · exact .inl h
    · exact .inr (mem_decimal h)
  · exact .inr (mem_decimal h)

theorem intText_ne_nil (v : Int) : intText v ≠ [] := by
  unfold intText
  split
  · simp
  · exact (decimal_spec _).1

theorem intText_noComma (v : Int) : comma ∉ intText v := fun h =>
  (mem_intText h).elim (fun e => minus_facts.2.1 e.symm) (fun e => (isDigit_facts e).2.1 rfl)

theorem intText_noSpace (v : Int) : ∀ b ∈ intText v, isSpace b = false := fun _ h =>
  (mem_intText h).elim (fun e => e ▸ minus_facts.1) (fun e => (isDigit_facts e).1)

/-- An integer written and read again (30_encoding.md R99, R117). -/
@[simp] theorem intToken_intText (v : Int) : intToken (intText v) = some v := by
  rw [intToken, trim_of_noSpace (intText_noSpace v)]
  by_cases hv : v < 0
  · simp [intText, hv, abs_of_neg hv]
  · simp only [intText, if_neg hv]
    obtain ⟨h1, h2, -⟩ := decimal_spec v.natAbs
    have h3 := digitsValue_decimal v.natAbs
    cases hd : decimal v.natAbs with
    | nil => exact absurd hd h1
    | cons b ds =>
      have hb : isDigit b = true := mem_decimal (n := v.natAbs) (by simp [hd])
      simp only [if_neg (isDigit_facts hb).2.2.1]
      rw [← hd, h3]
      simp [abs_of_nonneg (not_lt.mp hv)]

/-- A decimal digit. -/
theorem isDigit_iff (b : Byte) : isDigit b = true ↔ 0x30 ≤ b.toNat ∧ b.toNat ≤ 0x39 := by
  revert b; decide

/-- Digits read from the left are the digits' number (30_encoding.md R99). -/
theorem foldl_digits (ds : Text) : ds.foldl (fun v b => 10 * v + (b.toNat - 0x30)) 0
    = Nat.ofDigits 10 (ds.reverse.map fun d => d.toNat - 0x30) := by
  rw [Nat.ofDigits_eq_foldr, List.foldr_map, List.foldr_reverse]
  congr 1
  funext v b
  simp [Nat.add_comm]

theorem digitsValue_eq_some {t : Text} {n : Nat} : digitsValue t = some n ↔
    t ≠ [] ∧ (∀ d ∈ t, 0x30 ≤ d.toNat ∧ d.toNat ≤ 0x39) ∧ n = Nat.ofDigits 10 (t.reverse.map fun d => d.toNat - 0x30) := by
  rw [digitsValue, ← foldl_digits]
  split
  · rename_i h
    have hd : ∀ d ∈ t, 0x30 ≤ d.toNat ∧ d.toNat ≤ 0x39 := fun d hd => (isDigit_iff d).1 (List.all_eq_true.1 h.2 d hd)
    constructor
    · intro e; exact ⟨h.1, hd, (Option.some.inj e).symm⟩
    · rintro ⟨-, -, e⟩; rw [e]
  · rename_i h
    constructor
    · intro e; cases e
    · rintro ⟨h1, h2, -⟩
      exact absurd ⟨h1, List.all_eq_true.2 fun d hd => (isDigit_iff d).2 (h2 d hd)⟩ h

/-- The integer tokens are those of the grammar, with its values (30_encoding.md R99). -/
theorem intToken_readAs (piece : Text) : Machine.ReadAs Machine.DocIntToken piece (intToken piece) := by
  intro v
  have ends : ∀ (neg : Bool) (ds : Text), ds ≠ [] → (∀ d ∈ ds, 0x30 ≤ d.toNat ∧ d.toNat ≤ 0x39) →
      ∀ b ∈ (if neg then [0x2D#8] else []) ++ ds, isSpace b = false := by
    intro neg ds _ hd b hb
    rcases List.mem_append.1 hb with h | h
    · cases neg <;> simp at h; subst h; rfl
    · exact (isDigit_facts ((isDigit_iff b).2 (hd b h))).1
  constructor
  · intro h
    unfold intToken at h
    have key : ∃ (neg : Bool) (ds : Text) (n : Nat), trim piece = (if neg then [0x2D#8] else []) ++ ds ∧
        digitsValue ds = some n ∧ v = (if neg then -1 else 1) * (n : ℤ) := by
      split at h
      · cases h
      · rename_i b ds hb
        split at h
        · rename_i hm
          obtain ⟨n, hn, rfl⟩ := Option.map_eq_some_iff.1 h
          exact ⟨true, ds, n, by rw [hb, hm]; rfl, hn, by simp⟩
        · obtain ⟨n, hn, rfl⟩ := Option.map_eq_some_iff.1 h
          exact ⟨false, b :: ds, n, by rw [hb]; rfl, hn, by simp⟩
    obtain ⟨neg, ds, n, ht, hn, rfl⟩ := key
    obtain ⟨h1, h2, rfl⟩ := digitsValue_eq_some.1 hn
    obtain ⟨pre, post, h3, h4, h5⟩ := (trim_eq_iff _ (fun b hb => ends neg ds h1 h2 b (List.mem_of_mem_head? hb))
      (fun b hb => ends neg ds h1 h2 b (List.mem_of_mem_getLast? hb))).1 ht
    exact ⟨pre, post, ds, neg, h3, h4, h1, h2, by rw [h5]; simp only [List.append_assoc], rfl⟩
  · rintro ⟨pre, post, ds, neg, h3, h4, h1, h2, rfl, rfl⟩
    have ht : trim (pre ++ (if neg then [0x2D#8] else []) ++ ds ++ post) = (if neg then [0x2D#8] else []) ++ ds :=
      (trim_eq_iff _ (fun b hb => ends neg ds h1 h2 b (List.mem_of_mem_head? hb))
        (fun b hb => ends neg ds h1 h2 b (List.mem_of_mem_getLast? hb))).2
        ⟨pre, post, h3, h4, by simp only [List.append_assoc]⟩
    have hv := digitsValue_eq_some.2 ⟨h1, h2, rfl⟩
    rw [intToken, ht]
    cases neg with
    | true => simp [hv, minus]
    | false =>
      cases ds with
      | nil => exact absurd rfl h1
      | cons b ds =>
        have hb := (isDigit_facts ((isDigit_iff b).2 (h2 b (by simp)))).2.2.1
        simp only [Bool.false_eq_true, if_false, List.nil_append, if_neg hb, hv]
        simp

/-! ### Cells -/

theorem hexDigit_eq_some {b : Byte} {d : Nat} : hexDigit b = some d ↔ Machine.DocHexDigit b d := by
  have key : ∀ b : Byte, hexDigit b =
      if 0x30 ≤ b.toNat ∧ b.toNat ≤ 0x39 then some (b.toNat - 0x30)
      else if 0x61 ≤ b.toNat ∧ b.toNat ≤ 0x66 then some (b.toNat - 0x61 + 10)
      else if 0x41 ≤ b.toNat ∧ b.toNat ≤ 0x46 then some (b.toNat - 0x41 + 10) else none := by decide
  rw [key, Machine.DocHexDigit]
  split
  · constructor
    · intro h; cases h; omega
    · intro h; congr 1; omega
  · split
    · constructor
      · intro h; cases h; omega
      · intro h; congr 1; omega
    · split
      · constructor
        · intro h; cases h; omega
        · intro h; congr 1; omega
      · constructor
        · intro h; cases h
        · omega


theorem hexText_facts (d : Nat) (h : d < 16) : hexDigit (hexText d) = some d ∧ isSpace (hexText d) = false ∧
    hexText d ≠ comma ∧ hexText d ≠ hash ∧ hexText d ≠ lf ∧ hexText d ≠ cr ∧ hexText d ≠ 0x52#8 := by
  interval_cases d <;> decide

theorem mem_cellText {cw : CellWord} {b : Byte} (h : b ∈ cellText cw) : ∃ d, d < 16 ∧ b = hexText d := by
  have := cw.isLt
  simp only [cellText, List.mem_cons, List.not_mem_nil, or_false] at h
  rcases h with h | h | h
  · exact ⟨_, by omega, h⟩
  · exact ⟨_, Nat.mod_lt _ (by decide), h⟩
  · exact ⟨_, Nat.mod_lt _ (by decide), h⟩

theorem cellText_noComma (cw : CellWord) : comma ∉ cellText cw := fun h => by
  obtain ⟨d, hd, e⟩ := mem_cellText h
  exact (hexText_facts d hd).2.2.1 e.symm

theorem cellText_noSpace (cw : CellWord) : ∀ b ∈ cellText cw, isSpace b = false := fun b h => by
  obtain ⟨d, hd, rfl⟩ := mem_cellText h
  exact (hexText_facts d hd).2.1

/-- Three digits as a cell word. -/
theorem cellWord_toNat {d1 d2 d3 : Nat} (h1 : d1 ≤ 7) (h2 : d2 < 16) (h3 : d3 < 16) :
    (BitVec.ofNat 3 d1 ++ BitVec.ofNat 4 d2 ++ BitVec.ofNat 4 d3 : CellWord).toNat = 256 * d1 + 16 * d2 + d3 := by
  simp only [BitVec.toNat_append, BitVec.toNat_ofNat]
  rw [← Nat.shiftLeft_add_eq_or_of_lt (by omega), ← Nat.shiftLeft_add_eq_or_of_lt (by omega)]
  simp only [Nat.shiftLeft_eq]
  omega

/-- A cell written and read again (30_encoding.md R104, R107). -/
@[simp] theorem cellToken_cellText (cw : CellWord) : cellToken (cellText cw) = some cw := by
  have hlt := cw.isLt
  rw [cellToken, trim_of_noSpace (cellText_noSpace cw)]
  simp only [cellText]
  rw [(hexText_facts (cw.toNat / 256) (by omega)).1, (hexText_facts (cw.toNat / 16 % 16) (by omega)).1,
    (hexText_facts (cw.toNat % 16) (by omega)).1]
  simp only
  rw [if_pos (by omega)]
  exact congrArg some (BitVec.eq_of_toNat_eq (by rw [cellWord_toNat (by omega) (by omega) (by omega)]; omega))

/-- The cell tokens are those of the grammar, with its words (30_encoding.md R104, R107). -/
theorem cellToken_readAs (piece : Text) : Machine.ReadAs Machine.DocCellToken piece (cellToken piece) := by
  have lt16 : ∀ {b : Byte} {d : Nat}, Machine.DocHexDigit b d → d < 16 := by
    intro b d h; unfold Machine.DocHexDigit at h; omega
  have noSpace : ∀ {b : Byte} {d : Nat}, Machine.DocHexDigit b d → isSpace b = false := by
    intro b d h
    have key : ∀ b : Byte, (hexDigit b).isSome = true → isSpace b = false := by decide
    exact key b (by rw [hexDigit_eq_some.2 h]; rfl)
  intro cw
  constructor
  · intro h
    unfold cellToken at h
    split at h
    · rename_i b1 b2 b3 ht
      split at h
      · rename_i d1 d2 d3 e1 e2 e3
        split at h
        · rename_i h7
          cases h
          have g1 := hexDigit_eq_some.1 e1
          have g2 := hexDigit_eq_some.1 e2
          have g3 := hexDigit_eq_some.1 e3
          obtain ⟨pre, post, h3, h4, h5⟩ := (trim_eq_iff [b1, b2, b3] (by simpa using noSpace g1) (by simpa using noSpace g3)).1 ht
          exact ⟨pre, post, b1, b2, b3, d1, d2, d3, h3, h4, g1, g2, g3, h7, h5, cellWord_toNat h7 (lt16 g2) (lt16 g3)⟩
        · cases h
      · cases h
    · cases h
  · rintro ⟨pre, post, b1, b2, b3, d1, d2, d3, h3, h4, g1, g2, g3, h7, rfl, hc⟩
    rw [cellToken, (trim_eq_iff [b1, b2, b3] (by simpa using noSpace g1) (by simpa using noSpace g3)).2 ⟨pre, post, h3, h4, rfl⟩]
    simp only [hexDigit_eq_some.2 g1, hexDigit_eq_some.2 g2, hexDigit_eq_some.2 g3, if_pos h7]
    exact congrArg some (BitVec.eq_of_toNat_eq (by rw [cellWord_toNat h7 (lt16 g2) (lt16 g3), hc]))

/-! ### Token lists written out -/

/-- A list of integers as a line. -/
theorem splitCommas_ints {vs : List Int} (h : vs ≠ []) :
    (splitCommas (joinCommas (vs.map intText))).map intToken = vs.map some := by
  rw [splitCommas_joinCommas (by simpa using h)]
  · simp [Function.comp_def]
  · simpa using fun v _ => intText_noComma v
  · simpa using fun v _ => intText_noSpace v

/-- A list of cells as a line. -/
theorem splitCommas_cells {cs : List CellWord} (h : cs ≠ []) :
    (splitCommas (joinCommas (cs.map cellText))).map cellToken = cs.map some := by
  rw [splitCommas_joinCommas (by simpa using h)]
  · simp [Function.comp_def]
  · simpa using fun v _ => cellText_noComma v
  · simpa using fun v _ => cellText_noSpace v

theorem mem_ints {vs : List Int} {b : Byte} (h : b ∈ joinCommas (vs.map intText)) :
    b = comma ∨ b = minus ∨ isDigit b = true := by
  rcases mem_joinCommas h with h | ⟨t, ht, hb⟩
  · exact .inl h
  · obtain ⟨v, -, rfl⟩ := List.mem_map.mp ht
    exact .inr (mem_intText hb)

theorem mem_cells {cs : List CellWord} {b : Byte} (h : b ∈ joinCommas (cs.map cellText)) :
    b = comma ∨ ∃ d, d < 16 ∧ b = hexText d := by
  rcases mem_joinCommas h with h | ⟨t, ht, hb⟩
  · exact .inl h
  · obtain ⟨v, -, rfl⟩ := List.mem_map.mp ht
    exact .inr (mem_cellText hb)

end Sys2Proof.Text
end

