-- ==== Sys2Proof/Laws/PerInstr.lean ====
section
/-! SUPPORT. The family `OneLine`, instruction by instruction: a well-formed line instruction is written as one line
(30_encoding.md R96). -/

namespace Sys2Proof.Laws

/-- No byte of the text ends a line. -/
def oneLine (t : Text) : Prop := ∀ b ∈ t, b ≠ Text.lf ∧ b ≠ Text.cr

/-- A well-formed instruction of a line format is written without a line terminator. -/
def OneLine.Statement (i : Instr) : Prop :=
  i.wf = true → i.format = .fltLine ∨ i.format = .mskLine ∨ i.format = .gamLine → oneLine (encode i)

theorem comment_oneLine {t : Text} (h : commentWf t = true) : oneLine (Text.hash :: t) := by
  simp only [commentWf, Bool.and_eq_true, List.all_eq_true, bne_iff_ne, ne_eq] at h
  intro b hb
  rcases List.mem_cons.mp hb with rfl | hb
  · decide
  · exact h.1 b hb

theorem legal_of_any {α : Type} {p : α → Bool} {toks : List (Token α)} (h : toks.all (fun t => t.any p) = true) :
    toks.all Option.isSome = true := by
  simp only [List.all_eq_true] at h ⊢
  intro x hx
  have := h x hx
  cases x with
  | none => simp at this
  | some _ => rfl

/-- Legal tokens are their values. -/
theorem legal_values {α : Type} {toks : List (Token α)} (h : toks.all Option.isSome = true) :
    ∃ vs : List α, toks = vs.map some := by
  induction toks with
  | nil => exact ⟨[], rfl⟩
  | cons t ts ih =>
    simp only [List.all_cons, Bool.and_eq_true] at h
    obtain ⟨vs, rfl⟩ := ih h.2
    obtain ⟨v, rfl⟩ := Option.isSome_iff_exists.mp h.1
    exact ⟨v :: vs, rfl⟩

@[simp] theorem tokens_text {α : Type} (write : α → Text) (vs : List α) :
    (vs.map some).map (tokenText write) = vs.map write := by
  simp [tokenText, Function.comp_def]

theorem ints_oneLine {toks : List (Token Int)} (h : toks.all Option.isSome = true) :
    oneLine (Text.joinCommas (toks.map (tokenText Text.intText))) := by
  obtain ⟨vs, rfl⟩ := legal_values h
  rw [tokens_text]
  intro b hb
  rcases Text.mem_ints hb with rfl | rfl | h
  · decide
  · decide
  · exact (Text.isDigit_facts h).2.2.2.2

theorem cells_oneLine {toks : List (Token CellWord)} (h : toks.all Option.isSome = true) :
    oneLine (Text.joinCommas (toks.map (tokenText Text.cellText))) := by
  obtain ⟨vs, rfl⟩ := legal_values h
  rw [tokens_text]
  intro b hb
  rcases Text.mem_cells hb with rfl | ⟨d, hd, rfl⟩
  · decide
  · exact ⟨(Text.hexText_facts d hd).2.2.2.2.1, (Text.hexText_facts d hd).2.2.2.2.2.1⟩

theorem int_oneLine (v : Int) : oneLine (Text.intText v) := by
  intro b hb
  rcases Text.mem_intText hb with rfl | h
  · decide
  · exact (Text.isDigit_facts h).2.2.2.2

theorem mono_oneLine {tok : Token Int} (h : tok.isSome = true) : oneLine (tokenText Text.intText tok) := by
  cases tok with
  | none => simp at h
  | some v => exact int_oneLine v

theorem res_oneLine {tok : Token Int} (h : tok.any (fun v => decide (0 ≤ v)) = true) :
    oneLine (Text.tokResolution ++ tokenText Text.intText tok) := by
  intro b hb
  replace hb := List.mem_append.mp hb
  rcases hb with hb | hb
  · clear h; revert b; decide
  · cases tok with
    | none => simp at h
    | some v => exact int_oneLine v b hb

theorem OneLine.nop : OneLine.Statement .nop :=
  fun _ h => by simp [Instr.format] at h

theorem OneLine.ldframe : OneLine.Statement .ldframe :=
  fun _ h => by simp [Instr.format] at h

theorem OneLine.ldfiltH : OneLine.Statement .ldfiltH :=
  fun _ h => by simp [Instr.format] at h

theorem OneLine.ldfiltV : OneLine.Statement .ldfiltV :=
  fun _ h => by simp [Instr.format] at h

theorem OneLine.ldmask : OneLine.Statement .ldmask :=
  fun _ h => by simp [Instr.format] at h

theorem OneLine.ldgamma : OneLine.Statement .ldgamma :=
  fun _ h => by simp [Instr.format] at h

theorem OneLine.gamma : OneLine.Statement .gamma :=
  fun _ h => by simp [Instr.format] at h

theorem OneLine.hresample : OneLine.Statement .hresample :=
  fun _ h => by simp [Instr.format] at h

theorem OneLine.vresample : OneLine.Statement .vresample :=
  fun _ h => by simp [Instr.format] at h

theorem OneLine.selpat : OneLine.Statement .selpat :=
  fun _ h => by simp [Instr.format] at h

theorem OneLine.mask : OneLine.Statement .mask :=
  fun _ h => by simp [Instr.format] at h

theorem OneLine.run : OneLine.Statement .run :=
  fun _ h => by simp [Instr.format] at h

theorem OneLine.place : OneLine.Statement .place :=
  fun _ h => by simp [Instr.format] at h

theorem OneLine.placeFull : OneLine.Statement .placeFull :=
  fun _ h => by simp [Instr.format] at h

theorem OneLine.placeFit : OneLine.Statement .placeFit :=
  fun _ h => by simp [Instr.format] at h

theorem OneLine.placeVscale : OneLine.Statement .placeVscale :=
  fun _ h => by simp [Instr.format] at h

theorem OneLine.fltBlank : OneLine.Statement .fltBlank :=
  fun _ _ => by simp [encode, oneLine]

theorem OneLine.flt10bit : OneLine.Statement .flt10bit :=
  fun _ _ => by unfold oneLine encode; decide

theorem OneLine.fltAdaptive : OneLine.Statement .fltAdaptive :=
  fun _ _ => by unfold oneLine encode; decide

theorem OneLine.fltComment (text : Text) : OneLine.Statement (.fltComment text) :=
  fun h _ => comment_oneLine h

theorem OneLine.fltRow (toks : List (Token Int)) : OneLine.Statement (.fltRow toks) :=
  fun h _ => ints_oneLine (legal_of_any (Bool.and_eq_true _ _ ▸ h).2)

theorem OneLine.mskBlank : OneLine.Statement .mskBlank :=
  fun _ _ => by simp [encode, oneLine]

theorem OneLine.mskComment (text : Text) : OneLine.Statement (.mskComment text) :=
  fun h _ => comment_oneLine h

theorem OneLine.mskRes (tok : Token Int) : OneLine.Statement (.mskRes tok) :=
  fun h _ => res_oneLine h

theorem OneLine.mskV2 : OneLine.Statement .mskV2 :=
  fun _ _ => by unfold oneLine encode; decide

theorem OneLine.mskDims (toks : List (Token Int)) : OneLine.Statement (.mskDims toks) :=
  fun h _ => ints_oneLine (legal_of_any (Bool.and_eq_true _ _ ▸ h).2)

theorem OneLine.mskRow (toks : List (Token CellWord)) : OneLine.Statement (.mskRow toks) :=
  fun h _ => cells_oneLine (Bool.and_eq_true _ _ ▸ h).2

theorem OneLine.mskCell (cw : CellWord) : OneLine.Statement (.mskCell cw) :=
  fun _ h => by simp [Instr.format] at h

theorem OneLine.gamBlank : OneLine.Statement .gamBlank :=
  fun _ _ => by simp [encode, oneLine]

theorem OneLine.gamComment (text : Text) : OneLine.Statement (.gamComment text) :=
  fun h _ => comment_oneLine h

theorem OneLine.gamRgb (toks : List (Token Int)) : OneLine.Statement (.gamRgb toks) :=
  fun h _ => ints_oneLine (Bool.and_eq_true _ _ ▸ h).2

theorem OneLine.gamMono (tok : Token Int) : OneLine.Statement (.gamMono tok) :=
  fun h _ => mono_oneLine h

theorem OneLine.coef32 (v : Coef) : OneLine.Statement (.coef32 v) :=
  fun _ h => by simp [Instr.format] at h

theorem OneLine.gam8 (v : Byte) : OneLine.Statement (.gam8 v) :=
  fun _ h => by simp [Instr.format] at h

theorem OneLine.pix32 (p : Pixel) : OneLine.Statement (.pix32 p) :=
  fun _ h => by simp [Instr.format] at h

end Sys2Proof.Laws
end

