-- ==== Sys2Proof/Laws/Stages.lean ====
section
/-! SUPPORT. What each stage and each command may change: a stage changes the frame (or the selection) and the sequencer; a command
completes with such a change or takes an error. -/

namespace Sys2Proof.Machine

/-- `GAMMA` changes the frame and the sequencer only. -/
theorem stageGamma_frame (s : State) :
    stageGamma s = { s with wf := (stageGamma s).wf, seq := (stageGamma s).seq } := by
  unfold stageGamma; split <;> rfl

/-- `HRESAMPLE` changes the frame and the sequencer only. -/
theorem stageHresample_frame (s : State) :
    stageHresample s = { s with wf := (stageHresample s).wf, seq := (stageHresample s).seq } := by
  unfold stageHresample; split
  · rfl
  · split
    · rfl
    · split <;> rfl

/-- `VRESAMPLE` changes the frame and the sequencer only. -/
theorem stageVresample_frame (s : State) :
    stageVresample s = { s with wf := (stageVresample s).wf, seq := (stageVresample s).seq } := by
  unfold stageVresample; split
  · rfl
  · split
    · rfl
    · split <;> rfl

/-- `SELPAT` changes the selection and the sequencer only. -/
theorem stageSelpat_frame (s : State) :
    stageSelpat s = { s with sel := (stageSelpat s).sel, seq := (stageSelpat s).seq } := by
  unfold stageSelpat; split <;> rfl

/-- `MASK` changes the frame and the sequencer only. -/
theorem stageMask_frame (s : State) :
    stageMask s = { s with wf := (stageMask s).wf, seq := (stageMask s).seq } := by
  unfold stageMask; split <;> rfl

/-- A stage of `RUN` changes the frame, the selection and the sequencer only. -/
theorem doStage_frame (st : Stage) (s : State) :
    doStage st s = { s with wf := (doStage st s).wf, sel := (doStage st s).sel, seq := (doStage st s).seq } := by
  cases st with
  | idle => rfl
  | load => rfl
  | place => rfl
  | gamma => unfold doStage; rw [stageGamma_frame s]
  | hresample => unfold doStage; rw [stageHresample_frame s]
  | vresample => unfold doStage; rw [stageVresample_frame s]
  | selpat => unfold doStage; rw [stageSelpat_frame s]
  | mask => unfold doStage; rw [stageMask_frame s]

/-- Any sequence of stages changes the frame, the selection and the sequencer only. -/
theorem foldStages_frame (plan : List Stage) (s : State) :
    plan.foldl (fun t st => doStage st t) s =
      { s with
        wf := (plan.foldl (fun t st => doStage st t) s).wf
        sel := (plan.foldl (fun t st => doStage st t) s).sel
        seq := (plan.foldl (fun t st => doStage st t) s).seq } := by
  induction plan generalizing s with
  | nil => rfl
  | cons st plan ih => rw [List.foldl_cons, ih, doStage_frame st s]

/-- What a command's body may change: slots, selection, placement, frame, sequencer; nothing else. -/
structure BodyFrame (s t : State) : Prop where
  lim : t.lim = s.lim
  csr : t.csr = s.csr
  status : t.status = s.status
  txt : t.txt = s.txt
  fin : t.fin = s.fin
  rd : t.rd = s.rd
  resets : t.resets = s.resets
  feed : t.feed = s.feed

/-- A completed command whose body kept to `BodyFrame`. -/
theorem complete_completed (s t : State) (hf : BodyFrame s t) : Completed s t.complete := by
  constructor
  · simp [State.complete, State.ack, State.settle, hf.status]
  · intro _; rfl
  · exact hf.csr
  · intro i; exact congrArg (Memory.read · i) hf.txt
  · intro i; exact congrArg (Memory.read · i) hf.fin
  · exact hf.lim
  · exact hf.rd
  · exact hf.resets
  · exact hf.feed

/-- A line or an element word executes its loader operation. -/
theorem exec_line (i : Instr) (s : State) (op : Loader → Except Raise Loader) (h : loaderOp s.lim i = some op) :
    exec i s = loaderStep s (op s.ld) := by
  cases i <;> simp only [loaderOp, Option.some.injEq, reduceCtorEq] at h <;> subst h <;> rfl

/-- An instruction is a command or has a loader operation. -/
theorem loaderOp_isNone (lim : Config.Limits) (i : Instr) : (loaderOp lim i).isNone = commandInstr i := by
  cases i <;> rfl

/-- A command whose body keeps to `BodyFrame` completes or takes an error. -/
theorem runCommand_completes (s : State) (needs : List (Bool × CmdError)) (body : State → Except Raise State)
    (hb : ∀ t, body s = .ok t → BodyFrame s t) :
    (∃ t, body s = .ok t ∧ runCommand s needs body = .next t.complete ∧ Completed s t.complete) ∨
    (∃ e, runCommand s needs body = .next (s.raise e)) := by
  rcases runCommand_cases s needs body with ⟨e, _, h⟩ | ⟨e, _, _, h⟩ | ⟨t, _, ht, h⟩
  · exact .inr ⟨_, h⟩
  · exact .inr ⟨_, h⟩
  · exact .inl ⟨t, ht, h, complete_completed s t (hb t ht)⟩

/-- The body of `LDFILT.H` writes slot `FILT_H`. -/
theorem execLdfiltH_frame (s : State) :
    (∃ f, s.parseFilter = .ok f ∧
      execLdfiltH s = .next ({ s with tables := { s.tables with filtH := some f }, seq := .load } : State).complete) ∨
    (∃ e, execLdfiltH s = .next (s.raise e)) := by
  unfold execLdfiltH
  rcases runCommand_cases s s.streamNeeds _ with ⟨e, _, h⟩ | ⟨e, _, _, h⟩ | ⟨t, _, ht, h⟩
  · exact .inr ⟨_, h⟩
  · exact .inr ⟨_, h⟩
  · cases hp : s.parseFilter with
    | error e => simp [hp] at ht
    | ok f => simp only [hp] at ht; cases ht; exact .inl ⟨f, rfl, h⟩

/-- The body of `LDFILT.V` writes slot `FILT_V`. -/
theorem execLdfiltV_frame (s : State) :
    (∃ f, s.parseFilter = .ok f ∧
      execLdfiltV s = .next ({ s with tables := { s.tables with filtV := some f }, seq := .load } : State).complete) ∨
    (∃ e, execLdfiltV s = .next (s.raise e)) := by
  unfold execLdfiltV
  rcases runCommand_cases s s.streamNeeds _ with ⟨e, _, h⟩ | ⟨e, _, _, h⟩ | ⟨t, _, ht, h⟩
  · exact .inr ⟨_, h⟩
  · exact .inr ⟨_, h⟩
  · cases hp : s.parseFilter with
    | error e => simp [hp] at ht
    | ok f => simp only [hp] at ht; cases ht; exact .inl ⟨f, rfl, h⟩

/-- The body of `LDMASK` writes slot `MASK` and clears the selection. -/
theorem execLdmask_frame (s : State) :
    (∃ sets, s.parseMask = .ok sets ∧
      execLdmask s = .next ({ s with tables := { s.tables with mask := some sets }, sel := none, seq := .load } : State).complete) ∨
    (∃ e, execLdmask s = .next (s.raise e)) := by
  unfold execLdmask
  rcases runCommand_cases s s.streamNeeds _ with ⟨e, _, h⟩ | ⟨e, _, _, h⟩ | ⟨t, _, ht, h⟩
  · exact .inr ⟨_, h⟩
  · exact .inr ⟨_, h⟩
  · cases hp : s.parseMask with
    | error e => simp [hp] at ht
    | ok f => simp only [hp] at ht; cases ht; exact .inl ⟨f, rfl, h⟩

/-- The body of `LDGAMMA` writes slot `GAMMA`. -/
theorem execLdgamma_frame (s : State) :
    (∃ g, s.parseGamma = .ok g ∧
      execLdgamma s = .next ({ s with tables := { s.tables with gamma := some g }, seq := .load } : State).complete) ∨
    (∃ e, execLdgamma s = .next (s.raise e)) := by
  unfold execLdgamma
  rcases runCommand_cases s s.streamNeeds _ with ⟨e, _, h⟩ | ⟨e, _, _, h⟩ | ⟨t, _, ht, h⟩
  · exact .inr ⟨_, h⟩
  · exact .inr ⟨_, h⟩
  · cases hp : s.parseGamma with
    | error e => simp [hp] at ht
    | ok f => simp only [hp] at ht; cases ht; exact .inl ⟨f, rfl, h⟩

/-- The three placements write the placement result or take an error. -/
theorem fullPlacement_frame (s : State) :
    fullPlacement s = .next ({ s with pl := some (placeFullResult s.csr), seq := .place } : State).complete ∨
    (∃ e, fullPlacement s = .next (s.raise e)) := by
  unfold fullPlacement
  rcases runCommand_cases s (extentNeeds s) _ with ⟨e, _, h⟩ | ⟨e, _, _, h⟩ | ⟨t, _, ht, h⟩
  · exact .inr ⟨_, h⟩
  · exact .inr ⟨_, h⟩
  · cases ht; exact .inl h

/-- See `fullPlacement_frame`. -/
theorem fitPlacement_frame (s : State) :
    (1 ≤ s.csr.srcW.toNat ∧ 1 ≤ s.csr.srcH.toNat ∧
      fitPlacement s = .next ({ s with pl := some (placeFitResult s.csr), seq := .place } : State).complete) ∨
    (∃ e, fitPlacement s = .next (s.raise e)) := by
  unfold fitPlacement
  rcases runCommand_cases s (extentNeeds s ++ fitNeeds s) _ with ⟨e, _, h⟩ | ⟨e, _, _, h⟩ | ⟨t, hn, ht, h⟩
  · exact .inr ⟨_, h⟩
  · exact .inr ⟨_, h⟩
  · cases ht
    have hn := (firstFailure_none _).1 hn
    refine .inl ⟨?_, ?_, h⟩
    · simpa using hn (decide (1 ≤ s.csr.srcW.toNat), .notReady) (by simp [fitNeeds])
    · simpa using hn (decide (1 ≤ s.csr.srcH.toNat), .notReady) (by simp [fitNeeds])

/-- See `fullPlacement_frame`. -/
theorem vscalePlacement_frame (s : State) :
    vscalePlacement s = .next ({ s with pl := some (placeVscaleResult s.csr), seq := .place } : State).complete ∨
    (∃ e, vscalePlacement s = .next (s.raise e)) := by
  unfold vscalePlacement
  rcases runCommand_cases s _ _ with ⟨e, _, h⟩ | ⟨e, _, _, h⟩ | ⟨t, _, ht, h⟩
  · exact .inr ⟨_, h⟩
  · exact .inr ⟨_, h⟩
  · cases ht; exact .inl h

end Sys2Proof.Machine
end

