-- ==== Sys2Proof/Tests/Slice0.lean ====
section
/-! SUPPORT. The model's own tests: the checks of WellFormed, a word of every constructor written out from the spec's encoding,
one step of every instruction against an example of the spec, and for every statement with hypotheses a state that meets
them. The theorems are checked one after the other (no asynchronous elaboration), which keeps the checker's memory small. -/

namespace Sys2Proof.Tests

set_option Elab.async false

open Sys2Proof Sys2Proof.Machine

/-! ### Helpers -/

/-- A field of the state an outcome answers. -/
def after {α : Type} (o : Host.Outcome State Fault Refusal) (f : State → α) : Option α :=
  match o with
  | .next t => some (f t)
  | .fault _ => none
  | .refused _ => none

/-- A port that holds these bytes from index `i` on. -/
def portFrom : Nat → List Byte → Memory
  | _, [] => []
  | i, b :: bs => (i, b) :: portFrom (i + 1) bs

/-- Reset with a text in `TXT` and its length in `TXT_LEN`. -/
def withText (t : Text) : State :=
  { State.reset with txt := portFrom 0 t, csr := { State.reset.csr with txtLen := BitVec.ofNat 32 t.length } }

/-- Reset with a frame. -/
def withFrame (f : Frame) : State := { State.reset with wf := some f }

/-- A grey line of one row, alpha 7. -/
def greyRow (vs : List Byte) : Frame := ⟨vs.length, 1, [vs.map fun v => ⟨v, v, v, 7⟩]⟩

/-- A grey column, alpha 7. -/
def greyColumn (vs : List Byte) : Frame := ⟨1, vs.length, vs.map fun v => [⟨v, v, v, 7⟩]⟩

/-- The red samples of row 0, with alpha. -/
def redRow (s : State) : Option (List (Byte × Byte)) :=
  s.wf.map fun f => (f.px.getD 0 []).map fun p => (p.r, p.a)

/-- The red samples of column 0. -/
def redColumn (s : State) : Option (List Byte) :=
  s.wf.map fun f => f.px.map fun row => (row.getD 0 Pixel.absent).r

/-- A coefficient row. -/
def row (a b c d : Int) : Quad Coef := ⟨BitVec.ofInt 32 a, BitVec.ofInt 32 b, BitVec.ofInt 32 c, BitVec.ofInt 32 d⟩

/-- `LIN4` (95_test_vectors.md). -/
def lin4 : FilterSlot := ⟨false, false, false, [row 0 128 0 0, row 0 96 32 0, row 0 64 64 0, row 0 32 96 0]⟩

/-- `LIN4T` (95_test_vectors.md). -/
def lin4t : FilterSlot := ⟨true, false, false, [row 0 256 0 0, row 0 192 64 0, row 0 128 128 0, row 0 64 192 0]⟩

/-- `SHARP4` (95_test_vectors.md). -/
def sharp4 : FilterSlot :=
  ⟨false, false, false, [row (-16) 160 (-16) 0, row (-20) 140 16 (-8), row (-12) 76 76 (-12), row (-8) 16 140 (-20)]⟩

/-- `AD4` (95_test_vectors.md). -/
def ad4 : FilterSlot :=
  ⟨true, true, false, [row 0 256 0 0, row 0 192 64 0, row 0 128 128 0, row 0 64 192 0, row 0 256 0 0, row 0 256 0 0,
    row 0 0 256 0, row 0 0 256 0]⟩

/-- The largest legal filter: 512 adaptive rows. -/
def widest : FilterSlot := ⟨true, true, false, List.replicate 512 (row 0 256 0 0)⟩

/-- The inverting gamma table (42_gamma_loader.md R209). -/
def inverting : GammaTable :=
  let lut := (List.range 256).map fun v => BitVec.ofNat 8 (255 - v)
  ⟨lut, lut, lut⟩

/-- The sets of `MSK1` (95_test_vectors.md P3). -/
def msk1 : List PatternSet :=
  [⟨0, 2, 1, [[0x700#11, 0x000#11]]⟩, ⟨480, 2, 2, [[0x50A#11, 0x2F8#11], [0x7F0#11, 0x403#11]]⟩]

/-- The frame of 47_pipeline.md R322. -/
def frame21 : Frame := ⟨2, 1, [[⟨10, 20, 30, 255⟩, ⟨200, 100, 50, 9⟩]]⟩

/-- A state in which everything is valid, an earlier error is remembered, and every stage has work. -/
def rich : State :=
  { State.reset with
    csr := { State.reset.csr with
      ctrl := 3, dstW := 4, dstH := 2, outW := 640, outH := 480, srcW := 320, srcH := 240, aspectNum := 4, aspectDen := 3 }
    status := ⟨some .notReady, false, true, 0⟩
    tables := ⟨some lin4, some lin4t, some msk1, some inverting⟩
    sel := some ⟨1, 480, 2, 2⟩
    pl := some ⟨2, 1, 640, 480, 0, 0⟩
    wf := some frame21 }

/-- Limits of one and nothing else. -/
def tight : Config.Limits := ⟨some 1, some 1, some 1, some 1, some 1⟩

theorem portFrom_read (bs : List Byte) : ∀ i k : Nat, Memory.read (portFrom i bs) (i + k) = bs[k]? := by
  induction bs with
  | nil => intro i k; rfl
  | cons b bs ih =>
    intro i k
    cases k with
    | zero => simp [portFrom, Memory.read]
    | succ k =>
      have := ih (i + 1) k
      simp only [portFrom, Memory.read, List.getElem?_cons_succ]
      rw [if_neg (by omega), show i + (k + 1) = i + 1 + k by omega, this]

/-- A text that was written is the stream a load command reads. -/
theorem withText_stream (t : Text) (h : t.length < 4294967296) : (withText t).stream = some t := by
  have hl : (withText t).csr.txtLen.toNat = t.length := by
    simp only [withText, BitVec.toNat_ofNat]
    omega
  have hall : ((withText t).txt.readRange 0 t.length).isSome = true := by
    rw [Memory.readRange_isSome]
    intro k hk
    rw [show (withText t).txt = portFrom 0 t from rfl, portFrom_read, List.getElem?_eq_getElem hk]
    rfl
  obtain ⟨bs, hbs⟩ := Option.isSome_iff_exists.mp hall
  obtain ⟨h1, h2⟩ := Memory.readRange_some _ _ _ _ hbs
  rw [State.stream, hl, hbs]
  congr 1
  apply List.ext_getElem?
  intro k
  by_cases hk : k < t.length
  · rw [← h2 k hk]
    exact portFrom_read t 0 k
  · rw [List.getElem?_eq_none (by omega), List.getElem?_eq_none (by omega)]

/-! ### WellFormed: each check refuses an ill-formed term -/

theorem test_wf_comment_with_terminator : Instr.wf (.fltComment [0x0A#8]) = false ∧ Instr.wf (.mskComment [0x0D#8]) = false ∧
    Instr.wf (.gamComment [0x61#8, 0x0A#8, 0x62#8]) = false := by decide

theorem test_wf_comment_trailing_space : Instr.wf (.fltComment [0x61#8, 0x20#8]) = false ∧
    Instr.wf (.mskComment [0x09#8]) = false ∧ Instr.wf (.gamComment [0x20#8]) = false := by decide

theorem test_wf_fltRow_count : Instr.wf (.fltRow [some 1, some 2, some 3]) = false ∧
    Instr.wf (.fltRow [some 1, some 2, some 3, some 4, some 5]) = false := by decide

theorem test_wf_fltRow_token : Instr.wf (.fltRow [some 1, none, some 3, some 4]) = false := by decide

theorem test_wf_fltRow_range : Instr.wf (.fltRow [some 2147483648, some 0, some 0, some 0]) = false ∧
    Instr.wf (.fltRow [some 0, some 0, some 0, some (-2147483649)]) = false ∧
    Instr.wf (.fltRow [some 2147483647, some (-2147483648), some 0, some 0]) = true := by decide

theorem test_wf_mskRes : Instr.wf (.mskRes none) = false ∧ Instr.wf (.mskRes (some (-1))) = false ∧
    Instr.wf (.mskRes (some 0)) = true := by decide

theorem test_wf_mskDims : Instr.wf (.mskDims [some 1]) = false ∧ Instr.wf (.mskDims [some 1, none]) = false ∧
    Instr.wf (.mskDims [some 0, some 1]) = false ∧ Instr.wf (.mskDims [some 1, some 1]) = true := by decide

theorem test_wf_mskRow : Instr.wf (.mskRow []) = false ∧ Instr.wf (.mskRow [some 0x700#11, none]) = false := by decide

theorem test_wf_gamma : Instr.wf (.gamRgb [some 1, some 2]) = false ∧ Instr.wf (.gamRgb [some 1, none, some 3]) = false ∧
    Instr.wf (.gamMono none) = false := by decide

/-! ### Decoding: words written out from the encoding of the spec -/

/-- 30_encoding.md R94: bits [7:4] `CLASS`, bits [3:0] `SUB`. -/
theorem test_decode_commands :
    [0b00000000, 0b00000001, 0b00010000, 0b00010001, 0b00010010, 0b00010011, 0b00100000, 0b00100001, 0b00100010, 0b00100011,
      0b00100100, 0b00101111, 0b00110000].map (fun w => decodeTableWord 8 w)
    = ([.nop, .ldframe, .ldfiltH, .ldfiltV, .ldmask, .ldgamma, .gamma, .hresample, .vresample, .selpat, .mask, .run, .place]
      : List Instr).map some := by decide

/-- 46_placement.md R290: the code 0x30 with the mode registers. -/
theorem test_decode_place_variants :
    decode .cmd8reg { Ctx.initial with scaleMode := 0 } [0x30#8] = .ok .placeFull ∧
    decode .cmd8reg { Ctx.initial with scaleMode := 1 } [0x30#8] = .ok .placeFit ∧
    decode .cmd8reg { Ctx.initial with scaleMode := 2, vscaleMode := 3 } [0x30#8] = .ok .placeVscale ∧
    decode .cmd8reg { Ctx.initial with scaleMode := 2, vscaleMode := 4 } [0x30#8] = .ok .place ∧
    decode .cmd8reg { Ctx.initial with scaleMode := 3 } [0x30#8] = .ok .place ∧
    decode .cmd8reg Ctx.initial [0x21#8] = .ok .hresample := by decide

/-- 30_encoding.md R95. -/
theorem test_decode_reserved_codes :
    ∀ w ∈ [0x02, 0x0F, 0x14, 0x1F, 0x25, 0x2E, 0x31, 0xFF], decodeTableWord 8 w = none := by decide

/-- 30_encoding.md R101 to R103, 40_filter_loader.md R143 to R145. The lines, in order: three spaces; `10bit`; `adaptive`;
`# LIN4`; ` 0, 96,32 ,0`; `-16,160,-16,0`. -/
theorem test_decode_filter_lines :
    decode .fltLine Ctx.initial [0x20#8, 0x20#8, 0x20#8] = .ok .fltBlank ∧
    decode .fltLine { Ctx.initial with nb := 4 } [0x31#8, 0x30#8, 0x62#8, 0x69#8, 0x74#8] = .ok .flt10bit ∧
    decode .fltLine { Ctx.initial with nb := 4 }
      [0x61#8, 0x64#8, 0x61#8, 0x70#8, 0x74#8, 0x69#8, 0x76#8, 0x65#8] = .ok .fltAdaptive ∧
    decode .fltLine Ctx.initial [0x23#8, 0x20#8, 0x4C#8, 0x49#8, 0x4E#8, 0x34#8] = .ok (.fltComment [0x20#8, 0x4C#8, 0x49#8, 0x4E#8, 0x34#8]) ∧
    decode .fltLine Ctx.initial
      [0x20#8, 0x30#8, 0x2C#8, 0x20#8, 0x39#8, 0x36#8, 0x2C#8, 0x33#8, 0x32#8, 0x20#8, 0x2C#8, 0x30#8]
      = .ok (.fltRow [some 0, some 96, some 32, some 0]) ∧
    decode .fltLine Ctx.initial
      [0x2D#8, 0x31#8, 0x36#8, 0x2C#8, 0x31#8, 0x36#8, 0x30#8, 0x2C#8, 0x2D#8, 0x31#8, 0x36#8, 0x2C#8, 0x30#8]
      = .ok (.fltRow [some (-16), some 160, some (-16), some 0]) := by decide

/-- 30_encoding.md R101, R103: `10bit` as the sixth non-blank line, `10BIT`, and `1,,2,3` are rows with an illegal token. -/
theorem test_decode_filter_not_tokens :
    decode .fltLine { Ctx.initial with nb := 5 } [0x31#8, 0x30#8, 0x62#8, 0x69#8, 0x74#8] = .ok (.fltRow [none]) ∧
    decode .fltLine Ctx.initial [0x31#8, 0x30#8, 0x42#8, 0x49#8, 0x54#8] = .ok (.fltRow [none]) ∧
    decode .fltLine Ctx.initial [0x31#8, 0x2C#8, 0x2C#8, 0x32#8, 0x2C#8, 0x33#8] = .ok (.fltRow [some 1, none, some 2, some 3]) := by decide

/-- 30_encoding.md R108, 41_mask_loader.md R172. The lines, in order: empty; `# demo`; `Resolution=480`; `v2`; `2,2`;
`50a,2F8` where a row is expected; `700` after the last row. -/
theorem test_decode_mask_lines :
    decode .mskLine Ctx.initial [] = .ok .mskBlank ∧
    decode .mskLine Ctx.initial [0x23#8, 0x20#8, 0x64#8, 0x65#8, 0x6D#8, 0x6F#8] = .ok (.mskComment [0x20#8, 0x64#8, 0x65#8, 0x6D#8, 0x6F#8]) ∧
    decode .mskLine { Ctx.initial with maskState := .done }
      [0x52#8, 0x65#8, 0x73#8, 0x6F#8, 0x6C#8, 0x75#8, 0x74#8, 0x69#8, 0x6F#8, 0x6E#8, 0x3D#8, 0x34#8, 0x38#8, 0x30#8]
      = .ok (.mskRes (some 480)) ∧
    decode .mskLine Ctx.initial [0x76#8, 0x32#8] = .ok .mskV2 ∧
    decode .mskLine Ctx.initial [0x32#8, 0x2C#8, 0x32#8] = .ok (.mskDims [some 2, some 2]) ∧
    decode .mskLine { Ctx.initial with maskState := .rows } [0x35#8, 0x30#8, 0x61#8, 0x2C#8, 0x32#8, 0x46#8, 0x38#8]
      = .ok (.mskRow [some 0x50A#11, some 0x2F8#11]) ∧
    decode .mskLine { Ctx.initial with maskState := .done } [0x37#8, 0x30#8, 0x30#8] = .error .strayMaskLine := by decide

/-- 30_encoding.md R107: the reserved cell tokens `800`, `70`, `7g0` and the empty one. -/
theorem test_decode_bad_cells :
    ∀ t ∈ [[0x38#8, 0x30#8, 0x30#8], [0x37#8, 0x30#8], [0x37#8, 0x67#8, 0x30#8], ([] : Text)], Text.cellToken t = none := by decide

/-- 30_encoding.md R110. The lines, in order: empty; `# c`; `10,12,9`; `300`; `12.5`. -/
theorem test_decode_gamma_lines :
    decode .gamLine Ctx.initial [] = .ok .gamBlank ∧
    decode .gamLine Ctx.initial [0x23#8, 0x20#8, 0x63#8] = .ok (.gamComment [0x20#8, 0x63#8]) ∧
    decode .gamLine Ctx.initial [0x31#8, 0x30#8, 0x2C#8, 0x31#8, 0x32#8, 0x2C#8, 0x39#8] = .ok (.gamRgb [some 10, some 12, some 9]) ∧
    decode .gamLine Ctx.initial [0x33#8, 0x30#8, 0x30#8] = .ok (.gamMono (some 300)) ∧
    decode .gamLine Ctx.initial [0x31#8, 0x32#8, 0x2E#8, 0x35#8] = .ok (.gamMono none) := by decide

/-- 30_encoding.md R104 and R112, 20_memory.md R62: the element words. `CELL11` is d1[2:0] d2[3:0] d3[3:0]: the cell `50a` is
101 0000 1010. The coefficient is -16. The order of the bytes of a cell and of a coefficient is the model's own (log 11). -/
theorem test_decode_elements :
    decodeTableWord 11 0b10100001010 = some (.mskCell 0x50A#11) ∧
    decode .cell11 Ctx.initial [0b00001010#8, 0b00000101#8] = .ok (.mskCell 0x50A#11) ∧
    decode .cell11 Ctx.initial [0x00#8, 0x08#8] = .error .reservedBits ∧
    decode .coef32 Ctx.initial [0xF0#8, 0xFF#8, 0xFF#8, 0xFF#8] = .ok (.coef32 (BitVec.ofInt 32 (-16))) ∧
    decode .gam8 Ctx.initial [0b11111111#8] = .ok (.gam8 255) ∧
    decode .pix32 Ctx.initial [0xC8#8, 0x64#8, 0x32#8, 0x09#8] = .ok (.pix32 ⟨200, 100, 50, 9⟩) ∧
    decode .pix32 Ctx.initial [0xC8#8, 0x64#8, 0x32#8] = .error .badLength := by decide

/-- 30_encoding.md R96 (95_test_vectors.md 2.1): `31 0D 0A 32 0D 33 0A 0A 34` is five lines. -/
theorem test_lines : Text.lines [0x31#8, 0x0D#8, 0x0A#8, 0x32#8, 0x0D#8, 0x33#8, 0x0A#8, 0x0A#8, 0x34#8]
    = [[0x31#8], [0x32#8], [0x33#8], [], [0x34#8]] := by decide

/-- 30_encoding.md R99 (95_test_vectors.md 2.1): `-0`, `007`, `-12`; then `+1`, `1 2`, `12a` and the empty token. -/
theorem test_int_tokens :
    [[0x2D#8, 0x30#8], [0x30#8, 0x30#8, 0x37#8], [0x2D#8, 0x31#8, 0x32#8]].map Text.intToken = [some 0, some 7, some (-12)] ∧
    ∀ t ∈ [[0x2B#8, 0x31#8], [0x31#8, 0x20#8, 0x32#8], [0x31#8, 0x32#8, 0x61#8], ([] : Text)], Text.intToken t = none := by decide

/-! ### One step of every instruction -/

/-- 95_test_vectors.md 2.11: after reset, `NOP` leaves `STATUS = 0x100`. -/
theorem test_nop : after (step (State.reset.withFetchWord 8 0x00)) (fun t => t.regRead 1) = some 0x100#32 := by decide +kernel

/-- 95_test_vectors.md 2.11: bits above 7 of the command word are ignored, and `RUN` after reset leaves 0x211. -/
theorem test_run_not_ready : after (step { State.reset with feed := [.host (.writeReg 0 0x12F#32)] }) (fun t => t.regRead 1)
    = some 0x211#32 := by decide +kernel

/-- 47_pipeline.md R322, the example. -/
theorem test_ldframe :
    after (exec .ldframe { State.reset with
      fin := portFrom 0 [10, 20, 30, 255, 200, 100, 50, 9], csr := { State.reset.csr with frmW := 2, frmH := 1 } })
      (fun t => (t.wf, t.regRead 1, t.regRead 0x11, t.regRead 0x13)) = some (some frame21, 0x100#32, 2#32, 0x10#32) := by
  decide +kernel

/-- 20_memory.md R62, the frame of the example: byte `4*(0*2+1)+1` is the green of the second pixel; byte 8 is past the end. -/
theorem test_frame_byte : after (step { withFrame frame21 with feed := [.host (.readFrameByte 5)] }) (fun t => t.rd.byte) = some 100#8 ∧
    after (step { withFrame frame21 with feed := [.host (.readFrameByte 8)] }) (fun t => t.rd.byte) = none := by decide +kernel

/-- 47_pipeline.md R337: the host reads back what it wrote to a port. -/
theorem test_port_read : after (step { State.reset with txt := portFrom 3 [1, 2], feed := [.host (.readTxt 4)] }) (fun t => t.rd.byte)
    = some 2#8 ∧ after (step { State.reset with fin := portFrom 0 [9], feed := [.host (.readFin 0)] }) (fun t => t.rd.byte) = some 9#8 := by
  decide +kernel

/-- `LIN4` as text (95_test_vectors.md: 47 bytes). -/
def lin4Text : Text :=
  [0x23#8, 0x20#8, 0x4C#8, 0x49#8, 0x4E#8, 0x34#8, 0x0A#8]
  ++ [0x30#8, 0x2C#8, 0x31#8, 0x32#8, 0x38#8, 0x2C#8, 0x30#8, 0x2C#8, 0x30#8, 0x0A#8]
  ++ [0x30#8, 0x2C#8, 0x39#8, 0x36#8, 0x2C#8, 0x33#8, 0x32#8, 0x2C#8, 0x30#8, 0x0A#8]
  ++ [0x30#8, 0x2C#8, 0x36#8, 0x34#8, 0x2C#8, 0x36#8, 0x34#8, 0x2C#8, 0x30#8, 0x0A#8]
  ++ [0x30#8, 0x2C#8, 0x33#8, 0x32#8, 0x2C#8, 0x39#8, 0x36#8, 0x2C#8, 0x30#8, 0x0A#8]

theorem test_lin4Text_length : lin4Text.length = 47 := by decide

/-- 95_test_vectors.md P1: the stored table, `FILT_H_DESC` and `SLOTS`. -/
theorem test_ldfiltH : after (exec .ldfiltH (withText lin4Text)) (fun t => (t.tables.filtH, t.regRead 0x14, t.regRead 0x13))
    = some (some lin4, 0x00100004#32, 0x001#32) := by decide +kernel

/-- `AD4` (95_test_vectors.md 2.2): `FILT_s_DESC = 0x00230004`. The text is the serialised table, 99 bytes. -/
theorem test_ldfiltV : (filterText ad4).length = 99 ∧
    after (exec .ldfiltV (withText (filterText ad4))) (fun t => (t.tables.filtV, t.regRead 0x15, t.tables.filtH))
    = some (some ad4, 0x00230004#32, none) := by decide +kernel

/-- 40_filter_loader.md R155: `0,128,0` as line 3 is `MalformedCoefficientRow` with `ERRINFO` 3. The first two lines are `# c`
and an empty one. -/
theorem test_ldfiltH_malformed :
    after (exec .ldfiltH (withText [0x23#8, 0x20#8, 0x63#8, 0x0A#8, 0x0A#8, 0x30#8, 0x2C#8, 0x31#8, 0x32#8, 0x38#8, 0x2C#8, 0x30#8]))
      (fun t => (t.regRead 1, t.regRead 2)) = some (0x201#32, 3#32) := by decide +kernel

/-- `MSK1` as text (95_test_vectors.md P3: 73 bytes). -/
def msk1Text : Text :=
  [0x23#8, 0x20#8, 0x64#8, 0x65#8, 0x6D#8, 0x6F#8, 0x0A#8]
  ++ [0x52#8, 0x65#8, 0x73#8, 0x6F#8, 0x6C#8, 0x75#8, 0x74#8, 0x69#8, 0x6F#8, 0x6E#8, 0x3D#8, 0x30#8, 0x0A#8]
  ++ [0x76#8, 0x32#8, 0x0A#8]
  ++ [0x32#8, 0x2C#8, 0x31#8, 0x0A#8]
  ++ [0x37#8, 0x30#8, 0x30#8, 0x2C#8, 0x30#8, 0x30#8, 0x30#8, 0x0A#8]
  ++ [0x52#8, 0x65#8, 0x73#8, 0x6F#8, 0x6C#8, 0x75#8, 0x74#8, 0x69#8, 0x6F#8, 0x6E#8, 0x3D#8, 0x34#8, 0x38#8, 0x30#8, 0x0A#8]
  ++ [0x76#8, 0x32#8, 0x0A#8]
  ++ [0x32#8, 0x2C#8, 0x32#8, 0x0A#8]
  ++ [0x35#8, 0x30#8, 0x61#8, 0x2C#8, 0x32#8, 0x66#8, 0x38#8, 0x0A#8]
  ++ [0x37#8, 0x66#8, 0x30#8, 0x2C#8, 0x34#8, 0x30#8, 0x33#8, 0x0A#8]

/-- 95_test_vectors.md P3: two sets, `MASK_NSETS = 2`, the selection cleared. -/
theorem test_ldmask : msk1Text.length = 73 ∧
    after (exec .ldmask { withText msk1Text with sel := some ⟨1, 480, 2, 2⟩ })
      (fun t => (t.tables.mask, t.regRead 0x16, t.sel)) = some (some msk1, 2#32, none) := by decide +kernel

/-- 41_mask_loader.md R185: `1,1` / `700` / `700` is `BadMaskStructure` with `ERRINFO` 3. -/
theorem test_ldmask_stray : after (exec .ldmask (withText [0x31#8, 0x2C#8, 0x31#8, 0x0A#8, 0x37#8, 0x30#8, 0x30#8, 0x0A#8, 0x37#8, 0x30#8, 0x30#8])) (fun t => (t.regRead 1, t.regRead 2))
    = some (0x213#32, 3#32) := by decide +kernel

/-- 42_gamma_loader.md R203: the lines `300`, `-4`, `10,12,9` and then 253 lines `3` (95_test_vectors.md 2.4, its tail shortened). -/
theorem test_ldgamma :
    (match runLines .gamLine Config.unlimited State.reset.csr (Text.lines ([0x33#8, 0x30#8, 0x30#8, 0x0A#8, 0x2D#8, 0x34#8, 0x0A#8, 0x31#8, 0x30#8, 0x2C#8, 0x31#8, 0x32#8, 0x2C#8, 0x39#8, 0x0A#8]
        ++ (List.range 253).flatMap fun _ => [0x33#8, 0x0A#8])) Loader.start with
      | .ok l => (match gammaTable l.gam with
        | .ok g => some (g.r.take 4, g.g.take 4, g.b.take 4, g.r.length)
        | .error _ => none)
      | .error _ => none)
    = some ([255, 0, 10, 3], [255, 0, 12, 3], [255, 0, 9, 3], 256) := by decide +kernel

/-- 42_gamma_loader.md R206: a short stream, one line `7`. -/
theorem test_ldgamma_short : after (exec .ldgamma (withText [0x37#8])) (fun t => (t.regRead 1, t.regRead 2))
    = some (0x208#32, 0#32) := by decide +kernel

/-- 45_gamma_compositor.md R283: the inverting table. -/
theorem test_gamma : after (exec .gamma { withFrame frame21 with tables := ⟨none, none, none, some inverting⟩ })
    (fun t => t.wf.map fun f => f.at 0 1) = some (some ⟨55, 155, 205, 9⟩) := by decide +kernel

/-- 43_resampler.md R251: negative lobes, both clamps. -/
theorem test_hresample : after (exec .hresample { withFrame (greyRow [0, 255, 255, 0]) with
      tables := ⟨some sharp4, none, none, none⟩, csr := { State.reset.csr with dstW := 8 } }) redRow
    = some (some [(0, 255), (16, 255), (239, 255), (255, 255), (255, 255), (239, 255), (16, 255), (0, 255)]) := by
  decide +kernel

/-- 43_resampler.md R252: the adaptive blend. -/
theorem test_hresample_adaptive : after (exec .hresample { withFrame (greyRow [0, 100, 255]) with
      tables := ⟨some ad4, none, none, none⟩, csr := { State.reset.csr with dstW := 6 } }) redRow
    = some (some [(0, 255), (25, 255), (75, 255), (124, 255), (231, 255), (255, 255)]) := by decide +kernel

/-- 43_resampler.md R250: two ties rounded up, in a column. -/
theorem test_vresample : after (exec .vresample { withFrame (greyColumn [10, 200]) with
      tables := ⟨none, some lin4, none, none⟩, csr := { State.reset.csr with dstH := 4 } }) redColumn
    = some (some [10, 58, 153, 200]) := by decide +kernel

/-- 95_test_vectors.md E3: equal extents, no filter needed, alpha kept. -/
theorem test_vresample_skip : after (exec .vresample { withFrame (greyColumn [10, 20, 30, 40]) with
      csr := { State.reset.csr with dstH := 4 } }) (fun t => t.wf) = some (some (greyColumn [10, 20, 30, 40])) := by
  decide +kernel

/-- 95_test_vectors.md 2.3: the sets 480, 0, 480, 0 at height 500 select the first of the two 480s. -/
theorem test_selpat_tie : after (exec .selpat { State.reset with
      csr := { State.reset.csr with outH := 500 }
      tables := ⟨none, none, some ([480, 0, 480, 0].map fun r => ⟨r, 1, 1, [[0x700#11]]⟩), none⟩ })
      (fun t => (t.regRead 0x17, t.regRead 0x18)) = some (0#32, 480#32) := by decide +kernel

/-- 95_test_vectors.md 2.3: the sets 480, 240, 240 at height 100 fall back to the first of the two 240s. -/
theorem test_selpat_fallback : after (exec .selpat { State.reset with
      csr := { State.reset.csr with outH := 100 }
      tables := ⟨none, none, some ([480, 240, 240].map fun r => ⟨r, 1, 1, [[0x700#11]]⟩), none⟩ })
      (fun t => (t.regRead 0x17, t.regRead 0x18)) = some (1#32, 240#32) := by decide +kernel

/-- 95_test_vectors.md P3 (a). -/
theorem test_mask : after (exec .mask { rich with wf := some ⟨4, 2,
      [[⟨200, 100, 50, 9⟩, ⟨255, 255, 255, 255⟩, ⟨16, 17, 1, 0⟩, ⟨200, 100, 50, 9⟩],
       [⟨200, 100, 50, 9⟩, ⟨128, 64, 32, 1⟩, ⟨255, 0, 255, 2⟩, ⟨31, 33, 63, 3⟩]]⟩ }) (fun t => t.wf.map Frame.px)
    = some (some [[⟨200, 62, 50, 9⟩, ⟨127, 255, 127, 255⟩, ⟨16, 10, 1, 0⟩, ⟨100, 193, 25, 9⟩],
       [⟨255, 193, 96, 9⟩, ⟨128, 12, 6, 1⟩, ⟨255, 0, 255, 2⟩, ⟨31, 6, 10, 3⟩]]) := by decide +kernel

/-- 44_mask_compositor.md R262, 95_test_vectors.md 2.8: with `MASK_2X` the pixel in column 3 of row 1 takes cell [0][1], 0x2F8. -/
theorem test_mask_2x : after (exec .mask { rich with
      csr := { rich.csr with ctrl := 4 }
      wf := some ⟨4, 2, List.replicate 2 (List.replicate 4 ⟨200, 100, 50, 9⟩)⟩ }) (fun t => t.wf.map fun f => f.at 1 3)
    = some (some ⟨100, 193, 25, 9⟩) := by decide +kernel

/-- 95_test_vectors.md P1. -/
theorem test_run : after (exec .run { State.reset with
      csr := { State.reset.csr with dstW := 4, dstH := 1 }, tables := ⟨some lin4, none, none, none⟩
      wf := some ⟨2, 1, [[⟨10, 50, 0, 7⟩, ⟨200, 250, 255, 9⟩]]⟩ }) (fun t => (t.wf.map Frame.px, t.regRead 0x13))
    = some (some [[⟨10, 50, 0, 255⟩, ⟨58, 100, 64, 255⟩, ⟨153, 200, 191, 255⟩, ⟨200, 250, 255, 255⟩]], 0x011#32) := by
  decide +kernel

/-- 95_test_vectors.md P2: gamma, a horizontal 9-bit pass, a vertical 10-bit pass. -/
theorem test_run_gamma : after (exec .run { rich with
      csr := { rich.csr with ctrl := 1, dstW := 3, dstH := 4 }
      wf := some ⟨2, 2, [[⟨0, 64, 128, 1⟩, ⟨255, 192, 128, 2⟩], [⟨100, 100, 100, 3⟩, ⟨30, 60, 90, 4⟩]]⟩ })
      (fun t => t.wf.map Frame.px)
    = some (some [[⟨255, 191, 127, 255⟩, ⟨128, 127, 127, 255⟩, ⟨0, 63, 127, 255⟩],
       [⟨230, 182, 134, 255⟩, ⟨144, 139, 135, 255⟩, ⟨56, 96, 137, 255⟩],
       [⟨180, 164, 148, 255⟩, ⟨175, 163, 152, 255⟩, ⟨169, 162, 156, 255⟩],
       [⟨155, 155, 155, 255⟩, ⟨190, 175, 160, 255⟩, ⟨225, 195, 165, 255⟩]]) := by decide +kernel

/-- The placement registers of 46_placement.md R308 with another source, canvas and modes. -/
def placeState (mode vmode srcW srcH outW outH : Nat) : State :=
  { State.reset with csr := { State.reset.csr with
      scaleMode := BitVec.ofNat 32 mode, vscaleMode := BitVec.ofNat 32 vmode, srcW := BitVec.ofNat 32 srcW
      srcH := BitVec.ofNat 32 srcH, outW := BitVec.ofNat 32 outW, outH := BitVec.ofNat 32 outH, aspectNum := 4, aspectDen := 3 } }

/-- 46_placement.md R308, R309: through `PLACE`, the document's example and a degenerate result. -/
theorem test_place : after (exec .place (placeState 2 1 320 240 640 480)) (fun t => t.pl) = some (some ⟨2, 1, 640, 480, 0, 0⟩) ∧
    after (exec .place (placeState 2 1 320 240 100 480)) (fun t => t.pl) = some (some ⟨0, 1, 0, 0, 50, 240⟩) := by decide +kernel

/-- 46_placement.md R309: `SCALE_MODE = 3` and `VSCALE 4`. -/
theorem test_place_modes : after (exec .place (placeState 3 1 320 240 640 480)) (fun t => t.regRead 1) = some 0x209#32 ∧
    after (exec .place (placeState 2 4 320 240 640 480)) (fun t => t.regRead 1) = some 0x20A#32 := by decide +kernel

/-- 46_placement.md R294, the example. -/
theorem test_placeFull : after (exec .placeFull (placeState 0 0 0 0 1920 1080)) (fun t => t.pl)
    = some (some ⟨0, 1, 1920, 1080, 0, 0⟩) := by decide +kernel

/-- 46_placement.md R309: `FIT`, width-limited and height-limited. -/
theorem test_placeFit : after (exec .placeFit (placeState 1 0 3 2 10 10)) (fun t => t.pl) = some (some ⟨10, 3, 10, 6, 0, 2⟩) ∧
    after (exec .placeFit (placeState 1 9 256 224 640 480)) (fun t => t.pl) = some (some ⟨15, 7, 548, 480, 46, 0⟩) := by
  decide +kernel

/-- 46_placement.md R309: steps of one half and of one quarter. -/
theorem test_placeVscale : after (exec .placeVscale (placeState 2 2 320 224 1920 1080)) (fun t => t.pl)
      = some (some ⟨9, 2, 1344, 1008, 288, 36⟩) ∧
    after (exec .placeVscale (placeState 2 3 320 224 1920 1080)) (fun t => t.pl)
      = some (some ⟨19, 4, 1418, 1064, 251, 8⟩) := by decide +kernel

/-- 40_filter_loader.md R142, R143: the lines of a filter, one by one. -/
theorem test_filter_lines : after (exec .flt10bit State.reset) (fun t => (t.ld.flt.tenbit, t.ld.flt.nb)) = some (true, 1) ∧
    after (exec .fltAdaptive State.reset) (fun t => (t.ld.flt.adaptive, t.ld.flt.nb)) = some (true, 1) ∧
    after (exec (.fltComment [0x61#8]) State.reset) (fun t => t.ld.flt.nb) = some 1 ∧
    after (exec .fltBlank State.reset) (fun t => t.ld.flt.nb) = some 0 := by decide +kernel

/-- 40_filter_loader.md R145, R154: a row; a value that does not fit `COEF_BITS`. -/
theorem test_fltRow : after (exec (.fltRow [some 0, some 96, some 32, some 0]) State.reset) (fun t => t.ld.flt.rows)
      = some [row 0 96 32 0] ∧
    after (exec (.fltRow [some 0, some 4294967296, some 0, some 0]) State.reset) (fun t => t.regRead 1) = some 0x215#32 := by
  decide +kernel

/-- 41_mask_loader.md R172 to R176: the lines before a pattern's rows. -/
theorem test_mask_lines : after (exec (.mskRes (some 240)) State.reset) (fun t => (t.ld.msk.res, t.ld.msk.state))
      = some (240, .dims) ∧
    after (exec (.mskDims [some 2, some 1]) State.reset) (fun t => (t.ld.msk.w, t.ld.msk.h, t.ld.msk.state)) = some (2, 1, .rows) ∧
    (∀ i ∈ ([.mskBlank, .mskV2, .mskComment [0x61#8]] : List Instr), after (exec i State.reset) (fun t => t.ld) = some Loader.start)
    := by decide +kernel

/-- 41_mask_loader.md R177, R178: the last row of a pattern; a row of another width. -/
theorem test_mskRow :
    let s : State := { State.reset with ld := { Loader.start with msk := ⟨[], 0, .rows, 2, 1, [], []⟩ } }
    after (exec (.mskRow [some 0x700#11, some 0x000#11]) s) (fun t => (t.ld.msk.sets, t.ld.msk.state))
      = some ([⟨0, 2, 1, [[0x700#11, 0x000#11]]⟩], .done) ∧
    after (exec (.mskRow [none]) s) (fun t => t.regRead 1) = some 0x213#32 := by decide +kernel

/-- 42_gamma_loader.md R203: a three-channel line, a single-channel line, clamping. -/
theorem test_gamma_lines : after (exec (.gamRgb [some 300, some 12, some (-4)]) State.reset) (fun t => t.ld.gam.lut)
      = some [⟨255, 12, 0⟩] ∧
    after (exec (.gamMono (some 7)) State.reset) (fun t => t.ld.gam.lut) = some [⟨7, 7, 7⟩] ∧
    after (exec .gamBlank State.reset) (fun t => t.ld.gam.lut) = some [] ∧
    after (exec (.gamComment []) State.reset) (fun t => t.ld.gam.lut) = some [] := by decide +kernel

/-- 30_encoding.md R104, R112, 20_memory.md R62: element words go to the structure in flight. -/
theorem test_elements : after (exec (.coef32 5) State.reset) (fun t => t.ld.flt.cur) = some [5] ∧
    after (exec (.mskCell 0x50A#11) State.reset) (fun t => t.ld.msk.cur) = some [0x50A#11] ∧
    after (exec (.gam8 9) State.reset) (fun t => t.ld.gam.cur) = some [9] ∧
    after (exec (.pix32 ⟨1, 2, 3, 4⟩) State.reset) (fun t => t.ld.pix) = some [⟨1, 2, 3, 4⟩] := by decide +kernel

/-! ### Witnesses: for every statement with hypotheses, states and operands that meet them -/

/-- Every constructor, well-formed, in a context that admits it. -/
theorem witness_DecodeOfEncode : ∀ p ∈ ([(.nop, Ctx.initial), (.ldframe, Ctx.initial), (.ldfiltH, Ctx.initial),
    (.ldfiltV, Ctx.initial), (.ldmask, Ctx.initial), (.ldgamma, Ctx.initial), (.gamma, Ctx.initial), (.hresample, Ctx.initial),
    (.vresample, Ctx.initial), (.selpat, Ctx.initial), (.mask, Ctx.initial), (.run, Ctx.initial), (.place, Ctx.initial),
    (.placeFull, Ctx.initial), (.placeFit, ⟨0, .dims, 1, 0⟩), (.placeVscale, ⟨0, .dims, 2, 3⟩), (.fltBlank, Ctx.initial),
    (.flt10bit, ⟨4, .dims, 0, 0⟩), (.fltAdaptive, ⟨4, .dims, 0, 0⟩), (.fltComment [0x61#8], Ctx.initial),
    (.fltRow [some (-2147483648), some 2147483647, some 0, some 1], Ctx.initial), (.mskBlank, Ctx.initial),
    (.mskComment [], Ctx.initial), (.mskRes (some 0), ⟨0, .done, 0, 0⟩), (.mskV2, Ctx.initial),
    (.mskDims [some 1, some 1], Ctx.initial), (.mskRow [some 0x7FF#11], ⟨0, .rows, 0, 0⟩), (.mskCell 0x7FF#11, Ctx.initial),
    (.gamBlank, Ctx.initial), (.gamComment [0x23#8], Ctx.initial), (.gamRgb [some 300, some (-4), some 0], Ctx.initial),
    (.gamMono (some (-1)), Ctx.initial), (.coef32 0x80000000#32, Ctx.initial), (.gam8 255, Ctx.initial),
    (.pix32 ⟨0, 255, 0, 255⟩, Ctx.initial)] : List (Instr × Ctx)), p.1.wf = true ∧ p.1.admittedIn p.2 = true := by decide

theorem witness_ReservedCodeIsIllegal : ∀ n ∈ [0x02, 0x0F, 0x14, 0x1F, 0x25, 0x2E, 0x31, 0xFF, 0x1FF],
    ({ rich with feed := [.host (.writeReg 0 (BitVec.ofNat 32 n))] } : State).feed = .host (.writeReg 0 (BitVec.ofNat 32 n)) :: [] ∧
    (BitVec.ofNat 32 n).toNat % 256 ∉ [0x00, 0x01, 0x10, 0x11, 0x12, 0x13, 0x20, 0x21, 0x22, 0x23, 0x24, 0x2F, 0x30] := by
  intro n hn
  exact ⟨rfl, by revert n; decide⟩

theorem witness_CommandWordHighBits : (0x12F#32).toNat % 256 = (0x2F#32).toNat % 256 := by decide

theorem witness_LinesCutAtTerminators : (∀ b ∈ ([0x31#8, 0x2C#8] : Text), b ≠ Text.lf ∧ b ≠ Text.cr) ∧
    (∀ b ∈ ([] : Text), b ≠ Text.lf ∧ b ≠ Text.cr) ∧ ([] : Text).head? ≠ some Text.lf ∧
    ([Text.cr, Text.lf] : Text).head? ≠ some Text.lf := by decide

theorem witness_TrimmingIsIgnored : ∀ f ∈ [Format.fltLine, .mskLine, .gamLine],
    (f = .fltLine ∨ f = .mskLine ∨ f = .gamLine) ∧
    (∀ b ∈ ([0x20#8, 0x09#8] : Text), b ∈ [0x20#8, 0x09#8, 0x0B#8, 0x0C#8, 0x0D#8, 0x0A#8]) ∧
    (∀ b ∈ ([0x0B#8, 0x0C#8, 0x0D#8] : Text), b ∈ [0x20#8, 0x09#8, 0x0B#8, 0x0C#8, 0x0D#8, 0x0A#8]) := by decide

/-- A command; a mask line `2,2`; a pixel. -/
theorem witness_StepRunsTheDecodedInstruction :
    decode .cmd8 ({ rich with feed := [.host (.writeReg 0 0x12F#32)] } : State).ctx [(0x12F#32).setWidth 8] = .ok .run ∧
    decode .mskLine ({ State.reset with ld := { State.reset.ld with ln := State.reset.ld.ln + 1 } } : State).ctx
      [0x32#8, 0x2C#8, 0x32#8] = .ok (.mskDims [some 2, some 2]) ∧
    Format.pix32 ≠ .fltLine ∧ Format.pix32 ≠ .mskLine ∧ Format.pix32 ≠ .gamLine ∧
    decode .pix32 State.reset.ctx [1, 2, 3, 4] = .ok (.pix32 ⟨1, 2, 3, 4⟩) := by decide

theorem witness_IdleStepHolds : rich.feed = [] ∧ State.reset.feed = [] := by decide

/-- `CTRL`, the first and the last RW register, read-only and reserved numbers next to them. -/
theorem witness_HostWriteAndReadBack : ∀ n ∈ [3, 4, 0x10, 1, 2, 0x11, 0x20, 0x21],
    ({ rich with feed := [.host (.writeReg n 0xFFFFFFFF#32)] } : State).feed = .host (.writeReg n 0xFFFFFFFF#32) :: [] ∧
    n ≠ 0 ∧ (n = 3 ∨ (4 ≤ n ∧ n ≤ 0x10) ∨ n < 3 ∨ 0x10 < n) := by
  intro n hn
  exact ⟨rfl, by revert n; decide⟩

/-- Lines of every kind, with the context: blank, `10bit` as the fifth and as the sixth non-blank line, `adaptive`, a comment, a
row of integers, `Resolution=1`, `v2`, a row of cells, stray data, `300`. -/
theorem witness_LinesAndTokens : ∀ p ∈ ([(0, .dims, [[]]), (4, .dims, [[0x31#8, 0x30#8, 0x62#8, 0x69#8, 0x74#8]]),
      (5, .done, [[0x31#8, 0x30#8, 0x62#8, 0x69#8, 0x74#8]]),
      (0, .rows, [[0x61#8, 0x64#8, 0x61#8, 0x70#8, 0x74#8, 0x69#8, 0x76#8, 0x65#8]]), (9, .done, [[0x23#8], [0x20#8, 0x78#8]]),
      (0, .dims, [[0x31#8, 0x20#8], [0x20#8, 0x32#8]]), (0, .done, [Text.tokResolution ++ [0x31#8]]), (0, .dims, [[0x76#8, 0x32#8]]),
      (0, .rows, [[0x37#8, 0x30#8, 0x30#8], [0x38#8, 0x30#8, 0x30#8]]), (0, .done, [[0x31#8], [0x31#8]]),
      (0, .done, [[0x33#8, 0x30#8, 0x30#8]])] : List (Nat × MaskState × List Text)),
    (∀ b ∈ ([0x20#8, 0x09#8, 0x0D#8] : Text), b ∈ docSpaces) ∧
    (∀ b, (Text.joinCommas p.2.2).head? = some b → b ∉ docSpaces) ∧
    (∀ b, (Text.joinCommas p.2.2).getLast? = some b → b ∉ docSpaces) ∧
    p.2.2 ≠ [] ∧ ∀ t ∈ p.2.2, 0x2C#8 ∉ t := by decide +kernel

/-- A register; `CMD` and the first reserved number; the last pixel and its last byte; the pixels and the byte just outside; no
frame at all; a port byte that was written and one that was not. -/
theorem witness_HostReads :
    [(frame21.at 0 1).r, (frame21.at 0 1).g, (frame21.at 0 1).b, (frame21.at 0 1).a][3]? = some 9#8 ∧
    (∀ f, rich.wf = some f → 4 * (f.w * f.h) ≤ 8) ∧ (∀ f, State.reset.wf = some f → 4 * (f.w * f.h) ≤ 0) ∧
    Memory.read (portFrom 3 [1, 2]) 4 = some 2#8 ∧ Memory.read (portFrom 3 [1, 2]) 5 = none ∧
    ({ rich with feed := [.host (.readReg 0x13)] } : State).feed = .host (.readReg 0x13) :: [] ∧
    (0 = 0 ∨ 0x20 < 0) ∧ (0x21 = 0 ∨ 0x20 < 0x21) ∧
    rich.wf = some frame21 ∧ 0 < frame21.h ∧ 1 < frame21.w ∧
    (∀ f, rich.wf = some f → f.h ≤ 0 ∨ f.w ≤ 2) ∧ (∀ f, rich.wf = some f → f.h ≤ 1 ∨ f.w ≤ 0) ∧
    (∀ f, State.reset.wf = some f → f.h ≤ 0 ∨ f.w ≤ 0) := by
  refine ⟨by decide, ?_, ?_, by decide, by decide, rfl, by decide, by decide, rfl, by decide, by decide, ?_, ?_, ?_⟩
  · intro f h; cases h; decide
  · intro f h; cases h
  · intro f h; cases h; decide
  · intro f h; cases h; decide
  · intro f h; cases h

theorem witness_PortWriteByteByByte :
    ({ rich with feed := [.host (.writeTxt 3 [1, 2])] } : State).feed = .host (.writeTxt 3 [1, 2]) :: [] ∧
    ({ rich with feed := [.host (.writeFin 0 [9])] } : State).feed = .host (.writeFin 0 [9]) :: [] := ⟨rfl, rfl⟩

/-- No filter, mask, selection, placement or frame; each of them valid, with numbers below 2^32, the largest one too; a filter of
each kind and the largest legal filter. -/
theorem witness_RegisterLayouts : (State.reset.wf = none ∧ State.reset.tables.mask = none ∧ State.reset.sel = none ∧
      State.reset.pl = none) ∧
    (rich.status.info < 2 ^ 32 ∧ rich.wf = some frame21 ∧ frame21.w < 2 ^ 32 ∧ frame21.h < 2 ^ 32 ∧ rich.tables.mask = some msk1 ∧
      msk1.length < 2 ^ 32 ∧ rich.sel = some ⟨1, 480, 2, 2⟩ ∧ rich.pl = some ⟨2, 1, 640, 480, 0, 0⟩ ∧ 4294967295 < 2 ^ 32) ∧ State.reset.tables.filtH = none ∧ State.reset.tables.filtV = none ∧
    rich.tables.filtH = some lin4 ∧ lin4.wf = true ∧ rich.tables.filtV = some lin4t ∧ lin4t.wf = true ∧
    ({ rich with tables := { rich.tables with filtH := some ad4, filtV := some widest } } : State).tables.filtV = some widest ∧
    ad4.wf = true ∧ widest.wf = true := by decide +kernel

theorem witness_PlatformReset : ({ rich with feed := [.host .reset] } : State).feed = .host .reset :: [] := rfl

/-- A state with everything valid meets the invariant, and a step from it answers a next state. -/
theorem witness_StepKeepsTheInvariant : ({ rich with feed := [.host (.writeReg 0 0x2F#32)] } : State).Inv ∧
    after (step { rich with feed := [.host (.writeReg 0 0x2F#32)] }) (fun t => t.regRead 1) = some 0x300#32 := by decide +kernel

/-- A command that ends with an error. -/
theorem witness_ErrorEntry : commandInstr .run = true ∧ exec .run State.reset = .next (State.reset.raise ⟨.notReady, 0⟩) ∧
    (State.reset.raise ⟨.notReady, 0⟩).status.err ≠ none := ⟨by decide, rfl, by decide⟩

theorem witness_CommandCompletesOrRaises : ∀ i ∈ ([.nop, .ldframe, .ldfiltH, .ldfiltV, .ldmask, .ldgamma, .gamma, .hresample,
    .vresample, .selpat, .mask, .run, .place, .placeFull, .placeFit, .placeVscale] : List Instr), commandInstr i = true := by
  decide

/-- The state before an `LDMASK` that clears a selection. -/
def clearing : State :=
  { rich with
    txt := portFrom 0 [0x31#8, 0x2C#8, 0x31#8, 0x0A#8, 0x37#8, 0x30#8, 0x30#8]
    csr := { rich.csr with txtLen := 7 }
    feed := [.host (.writeReg 0 0x12#32)] }

/-- Everything that only reset clears is there; the step answers a next state, and it clears the selection. -/
theorem witness_OnlyResetClears : clearing.feed.head? ≠ some (.host .reset) ∧ clearing.status.esticky = true ∧
    clearing.tables.filtH.isSome = true ∧ clearing.tables.filtV.isSome = true ∧ clearing.tables.mask.isSome = true ∧
    clearing.tables.gamma.isSome = true ∧ clearing.wf.isSome = true ∧ clearing.pl.isSome = true ∧ clearing.Inv ∧
    clearing.sel.isSome = true ∧ after (step clearing) (fun t => t.sel) = some none := by decide +kernel

theorem witness_InstructionsKeepPortsAndRegisters : exec .nop rich = .next rich.ack ∧ 3 ≤ 3 ∧ 3 ≤ 0x10 ∧ 0x10 ≤ 0x10 :=
  ⟨rfl, by decide, by decide, by decide⟩

/-- A frame of one pixel and a frame of two in `FIN`. -/
def framePort (w : Nat) (lim : Config.Limits) : State :=
  { State.reset with
    lim := lim, fin := portFrom 0 [10, 20, 30, 255, 200, 100, 50, 9]
    csr := { State.reset.csr with frmW := BitVec.ofNat 32 w, frmH := 1 } }

theorem witness_LdframeReadsRowMajor :
    (∀ k, k < 4 * (framePort 2 Config.unlimited).csr.frmW.toNat * (framePort 2 Config.unlimited).csr.frmH.toNat →
      (Memory.read (framePort 2 Config.unlimited).fin k).isSome = true) ∧
    1 ≤ (framePort 2 Config.unlimited).csr.frmW.toNat ∧ 1 ≤ (framePort 2 Config.unlimited).csr.frmH.toNat ∧
    exceeds (framePort 1 tight).lim.maxExtent (framePort 1 tight).csr.frmW.toNat = false ∧
    exceeds (framePort 1 tight).lim.maxExtent (framePort 1 tight).csr.frmH.toNat = false ∧
    1 ≤ (framePort 1 tight).csr.frmW.toNat ∧
    (∀ k, k < 4 * (framePort 1 tight).csr.frmW.toNat * (framePort 1 tight).csr.frmH.toNat →
      (Memory.read (framePort 1 tight).fin k).isSome = true) := by decide +kernel

/-- No extent; an extent one above the limit; one pixel too few in `FIN`. -/
theorem witness_LdframeRefusals : (framePort 0 Config.unlimited).csr.frmW = 0#32 ∧
    exceeds (framePort 2 tight).lim.maxExtent (framePort 2 tight).csr.frmW.toNat = true ∧
    (framePort 3 Config.unlimited).csr.frmW ≠ 0#32 ∧ (framePort 3 Config.unlimited).csr.frmH ≠ 0#32 ∧
    exceeds (framePort 3 Config.unlimited).lim.maxExtent (framePort 3 Config.unlimited).csr.frmW.toNat = false ∧
    8 < 4 * (framePort 3 Config.unlimited).csr.frmW.toNat * (framePort 3 Config.unlimited).csr.frmH.toNat ∧
    Memory.read (framePort 3 Config.unlimited).fin 8 = none := by decide +kernel

/-- A text one byte too long for the limit; a text of which the last byte was not written. -/
theorem witness_LoadRefusals : (∀ i ∈ ([.ldfiltH, .ldfiltV, .ldmask, .ldgamma] : List Instr), commandInstr i = true) ∧
    exceeds tight.txtMaxLen (withText [0x31#8, 0x32#8]).csr.txtLen.toNat = true ∧
    exceeds tight.txtMaxLen (withText [0x31#8]).csr.txtLen.toNat = false ∧
    (let s : State := { withText [0x31#8] with csr := { State.reset.csr with txtLen := 2 } }
     1 < s.csr.txtLen.toNat ∧ Memory.read s.txt 1 = none) := by decide +kernel

/-- `0,128,0,0` and then `1,2`: the second line fails. -/
theorem witness_LineErrorEndsTheLoad :
    let bytes : Text := [0x30#8, 0x2C#8, 0x31#8, 0x32#8, 0x38#8, 0x2C#8, 0x30#8, 0x2C#8, 0x30#8, 0x0A#8, 0x31#8, 0x2C#8, 0x32#8]
    ((.fltLine, .ldfiltV) : Format × Instr)
      ∈ ([(.fltLine, .ldfiltH), (.fltLine, .ldfiltV), (.mskLine, .ldmask), (.gamLine, .ldgamma)] : List (Format × Instr)) ∧
    exceeds (withText bytes).lim.txtMaxLen (withText bytes).csr.txtLen.toNat = false ∧ (withText bytes).stream = some bytes ∧
    Text.lines bytes = [[0x30#8, 0x2C#8, 0x31#8, 0x32#8, 0x38#8, 0x2C#8, 0x30#8, 0x2C#8, 0x30#8]] ++ [0x31#8, 0x2C#8, 0x32#8] :: [] ∧
    ∃ l, runLines .fltLine Config.unlimited State.reset.csr [[0x30#8, 0x2C#8, 0x31#8, 0x32#8, 0x38#8, 0x2C#8, 0x30#8, 0x2C#8, 0x30#8]] Loader.start = .ok l ∧
      loadLine .fltLine Config.unlimited State.reset.csr (nextLine l) [0x31#8, 0x2C#8, 0x32#8]
        = .error ⟨.malformedCoefficientRow, 2⟩ := by
  refine ⟨by decide, by decide, withText_stream _ (by decide), by decide, ⟨1, ⟨false, false, [row 0 128 0 0], 1, []⟩,
    ⟨[], 0, .dims, 0, 0, [], []⟩, ⟨[], []⟩, []⟩, by decide +kernel, by decide +kernel⟩

/-- A text of no rows, of an odd number of adaptive rows, of five rows and of four, each parsed to its end. -/
theorem witness_FilterChecksAndCommit :
    (∀ t ∈ ([[], filterText ⟨false, true, false, [row 0 1 0 0]⟩, filterText ⟨false, false, false, List.replicate 5 (row 0 1 0 0)⟩,
        lin4Text] : List Text), (withText t).stream = some t ∧ exceeds (withText t).lim.txtMaxLen (withText t).csr.txtLen.toNat = false) ∧
    ([[], filterText ⟨false, true, false, [row 0 1 0 0]⟩, filterText ⟨false, false, false, List.replicate 5 (row 0 1 0 0)⟩,
        lin4Text] : List Text).map (fun t =>
      match runLines .fltLine Config.unlimited State.reset.csr (Text.lines t) Loader.start with
      | .ok l => some (l.flt.adaptive, l.flt.rows.length)
      | .error _ => none) = [some (false, 0), some (true, 1), some (false, 5), some (false, 4)] := by decide +kernel

theorem witness_FilterTextRoundTrip : (∀ f ∈ [lin4, lin4t, sharp4, ad4, widest], f.wf = true) ∧
    (withText (filterText sharp4)).stream = some (filterText sharp4) ∧
    exceeds (withText (filterText sharp4)).lim.txtMaxLen (withText (filterText sharp4)).csr.txtLen.toNat = false := by
  decide +kernel

/-- `2,2` with a row missing, a text without a pattern, and `MSK1`, each parsed to its end. -/
theorem witness_MaskChecksAndCommit :
    (∀ t ∈ ([[0x32#8, 0x2C#8, 0x32#8, 0x0A#8, 0x37#8, 0x30#8, 0x30#8, 0x2C#8, 0x30#8, 0x37#8, 0x30#8], [], msk1Text] : List Text),
      (withText t).stream = some t ∧ exceeds (withText t).lim.txtMaxLen (withText t).csr.txtLen.toNat = false) ∧
    ([[0x32#8, 0x2C#8, 0x32#8, 0x0A#8, 0x37#8, 0x30#8, 0x30#8, 0x2C#8, 0x30#8, 0x37#8, 0x30#8], [], msk1Text] : List Text).map (fun t =>
      match runLines .mskLine Config.unlimited State.reset.csr (Text.lines t) Loader.start with
      | .ok l => some (l.msk.state, l.msk.sets.length)
      | .error _ => none) = [some (.rows, 0), some (.dims, 0), some (.done, 2)] := by decide +kernel

/-- Without limits, and with every extent at its limit. -/
theorem witness_MaskTextRoundTrip : maskWf msk1 = true ∧
    (∀ p ∈ msk1, exceeds Config.unlimited.maxExtent p.res = false ∧ exceeds Config.unlimited.maskMaxW p.w = false ∧
      exceeds Config.unlimited.maskMaxH p.h = false) ∧
    (∀ p ∈ msk1, exceeds (some 480) p.res = false ∧ exceeds (some 2) p.w = false ∧ exceeds (some 2) p.h = false) ∧
    exceeds (some 2) msk1.length = false ∧ (withText (maskText msk1)).stream = some (maskText msk1) := by decide +kernel

/-- A short stream, and a stream of 256 lines. -/
theorem witness_GammaChecksAndCommit :
    (withText [0x37#8]).stream = some [0x37#8] ∧
    (withText ((List.range 256).flatMap fun _ => [0x33#8, 0x0A#8])).stream
      = some ((List.range 256).flatMap fun _ => [0x33#8, 0x0A#8]) ∧
    ([[0x37#8], (List.range 256).flatMap fun _ => [0x33#8, 0x0A#8]] : List Text).map (fun t =>
      match runLines .gamLine Config.unlimited State.reset.csr (Text.lines t) Loader.start with
      | .ok l => some l.gam.lut.length
      | .error _ => none) = [some 1, some 256] := by
  refine ⟨by decide +kernel, withText_stream _ (by decide +kernel), by decide +kernel⟩

theorem witness_GammaTextRoundTrip : inverting.wf = true ∧
    (withText (gammaText inverting)).stream = some (gammaText inverting) := by
  refine ⟨by decide +kernel, withText_stream _ (by decide +kernel)⟩

/-- Two mask lines given one by one. -/
theorem witness_LoadIsItsLines :
    let s : State := { State.reset with feed := ([[0x31#8, 0x2C#8, 0x31#8], [0x37#8, 0x30#8, 0x30#8]] : List Text).map (FeedItem.unit .mskLine) }
    s.feed = ([[0x31#8, 0x2C#8, 0x31#8], [0x37#8, 0x30#8, 0x30#8]] : List Text).map (FeedItem.unit .mskLine) ++ [] ∧
    runLines .mskLine s.lim s.csr [[0x31#8, 0x2C#8, 0x31#8], [0x37#8, 0x30#8, 0x30#8]] s.ld
      = .ok { Loader.start with ln := 2, msk := ⟨[⟨0, 1, 1, [[0x700#11]]⟩], 0, .done, 1, 1, [[0x700#11]], []⟩ } := by
  decide +kernel

/-- Three tokens; an illegal token; the first values outside `COEF_BITS`; the last values inside. -/
theorem witness_FltRowLine : (([some 1, some 2, some 3] : List (Token Int)).length ≠ 4) ∧
    none ∈ ([some 1, none, some 2, some 3] : List (Token Int)) ∧
    (∀ v ∈ ([2147483648, -2147483649] : List Int), decide (v < -2147483648) || decide (2147483647 < v) = true) ∧
    (∀ v ∈ ([2147483647, -2147483648] : List Int), decide (v < -2147483648) || decide (2147483647 < v) = false) := by decide

/-- While rows are missing; otherwise an illegal token, -1, a value above a limit and 0. -/
theorem witness_MskResLine :
    ({ State.reset with ld := { Loader.start with msk := ⟨[], 0, .rows, 1, 1, [], []⟩ } } : State).ld.msk.state = .rows ∧
    State.reset.ld.msk.state ≠ .rows ∧ (-1 : Int) < 0 ∧ ¬ (2 : Int) < 0 ∧ exceeds tight.maxExtent (2 : Int).toNat = true ∧
    ¬ (0 : Int) < 0 ∧ exceeds tight.maxExtent (0 : Int).toNat = false := by decide

/-- One token, an illegal token; a zero; a width above a limit; the least dimensions. -/
theorem witness_MskDimsLine : (¬ ∃ w h, ([some 1] : List (Token Int)) = [some w, some h]) ∧
    (¬ ∃ w h, ([some 1, none] : List (Token Int)) = [some w, some h]) ∧ ((0 : Int) < 1 ∨ (1 : Int) < 1) ∧
    ¬ ((2 : Int) < 1 ∨ (1 : Int) < 1) ∧ exceeds tight.maskMaxW (2 : Int).toNat = true ∧
    ¬ ((1 : Int) < 1 ∨ (1 : Int) < 1) ∧ exceeds tight.maskMaxW (1 : Int).toNat = false := by
  refine ⟨?_, ?_, by decide, by decide, by decide, by decide, by decide⟩
  · rintro ⟨w, h, e⟩; simp at e
  · rintro ⟨w, h, e⟩; simp at e

/-- A row too short; an illegal cell; a row that is not the last, the last row with a set too many, the last row. -/
theorem witness_MskRowLine :
    let s (h : Nat) (sets : List PatternSet) (lim : Config.Limits) : State :=
      { State.reset with lim := lim, ld := { Loader.start with msk := ⟨sets, 0, .rows, 1, h, [], []⟩ } }
    ([] : List (Token CellWord)).length ≠ (s 1 [] tight).ld.msk.w ∧ ([none] : List (Token CellWord)).length = (s 1 [] tight).ld.msk.w ∧
    ([0x700#11] : List CellWord).length = (s 1 [] tight).ld.msk.w ∧
    (s 2 [] tight).ld.msk.cells.length + 1 ≠ (s 2 [] tight).ld.msk.h ∧
    (s 1 [⟨0, 1, 1, [[0x700#11]]⟩] tight).ld.msk.cells.length + 1 = (s 1 [⟨0, 1, 1, [[0x700#11]]⟩] tight).ld.msk.h ∧
    (s 1 [⟨0, 1, 1, [[0x700#11]]⟩] tight).lim.maskMaxSets = some (s 1 [⟨0, 1, 1, [[0x700#11]]⟩] tight).ld.msk.sets.length ∧
    (s 1 [] tight).lim.maskMaxSets ≠ some (s 1 [] tight).ld.msk.sets.length ∧
    -- `700` after the last row
    ({ Loader.start with msk := ⟨[], 0, .done, 1, 1, [], []⟩ } : Loader).msk.state = .done ∧
    Text.trim [0x37#8, 0x30#8, 0x30#8] ≠ [] ∧ (Text.trim [0x37#8, 0x30#8, 0x30#8]).head? ≠ some 0x23#8 ∧
    ¬ [0x52#8, 0x65#8, 0x73#8, 0x6F#8, 0x6C#8, 0x75#8, 0x74#8, 0x69#8, 0x6F#8, 0x6E#8, 0x3D#8] <+: Text.trim [0x37#8, 0x30#8, 0x30#8] := by decide

/-- 256 entries; two tokens; fewer entries. -/
theorem witness_GammaDataLines :
    ({ State.reset with ld := { Loader.start with gam := ⟨List.replicate 256 ⟨0, 0, 0⟩, []⟩ } } : State).ld.gam.lut.length = 256 ∧
    ({ State.reset with ld := { Loader.start with gam := ⟨List.replicate 255 ⟨0, 0, 0⟩, []⟩ } } : State).ld.gam.lut.length ≠ 256 ∧
    (¬ ∃ r g b, ([some 1, some 2] : List (Token Int)) = [some r, some g, some b]) := by
  refine ⟨by decide +kernel, by decide +kernel, ?_⟩
  rintro ⟨r, g, b, e⟩; simp at e

theorem witness_GammaPixels : rich.wf = some frame21 ∧ frame21.wf = true ∧ rich.tables.gamma = some inverting ∧
    inverting.wf = true ∧ 0 < frame21.h ∧ 1 < frame21.w := by decide +kernel

theorem witness_PositionMatchesTheDocument : (1 ≤ 1) ∧ ∀ P ∈ [4, 8, 16, 64, 256], legalPhases P = true := by decide

/-- The first and the last coordinate. -/
theorem witness_PositionRanges : 1 ≤ 1 ∧ 0 < 4 ∧ 3 < 4 ∧ 1 ≤ 1 ∧ (pos 0 2 4 4).base = -1 := by decide

theorem witness_QuantMatchesTheDocument : (0 : Int) < 128 ∧ (0 : Int) < 65280 := by decide

theorem witness_BlendFromDarkToLight : 1 ≤ 128 ∧ 1 ≤ 256 ∧ (25600 : Int) ≤ 51200 ∧ (0 : Byte).toNat ≤ (255 : Byte).toNat := by
  decide

theorem witness_HresampleMatchesTheDocument : rich.wf = some frame21 ∧ frame21.wf = true ∧ rich.tables.filtH = some lin4 ∧
    lin4.wf = true ∧ 1 ≤ rich.csr.dstW.toNat ∧ exceeds rich.lim.maxExtent rich.csr.dstW.toNat = false ∧
    frame21.w ≠ rich.csr.dstW.toNat ∧ ad4.wf = true := by decide +kernel

theorem witness_VresampleMatchesTheDocument : rich.wf = some frame21 ∧ frame21.wf = true ∧ rich.tables.filtV = some lin4t ∧
    lin4t.wf = true ∧ 1 ≤ rich.csr.dstH.toNat ∧ exceeds rich.lim.maxExtent rich.csr.dstH.toNat = false ∧
    frame21.h ≠ rich.csr.dstH.toNat := by decide +kernel

theorem witness_EqualExtentsSkipThePass :
    let s : State := { withFrame frame21 with csr := { State.reset.csr with dstW := 2, dstH := 1 } }
    s.wf = some frame21 ∧ 1 ≤ frame21.w ∧ exceeds s.lim.maxExtent frame21.w = false ∧ frame21.w = s.csr.dstW.toNat ∧
    1 ≤ frame21.h ∧ exceeds s.lim.maxExtent frame21.h = false ∧ frame21.h = s.csr.dstH.toNat := by decide +kernel

/-- Nothing there; a frame without tables; a destination of 0, above a limit, and another than the frame's. -/
theorem witness_StageRefusals : State.reset.wf = none ∧ State.reset.tables.mask = none ∧ State.reset.sel = none ∧
    (withFrame frame21).wf ≠ none ∧ (withFrame frame21).tables.gamma = none ∧ (withFrame frame21).csr.dstW = 0#32 ∧
    (withFrame frame21).csr.dstH = 0#32 ∧ exceeds tight.maxExtent rich.csr.dstW.toNat = true ∧
    exceeds tight.maxExtent rich.csr.dstH.toNat = true ∧
    (let s : State := { rich with tables := State.reset.tables }
     s.wf ≠ none ∧ s.csr.dstW ≠ 0#32 ∧ s.csr.dstH ≠ 0#32 ∧ exceeds s.lim.maxExtent s.csr.dstW.toNat = false ∧
     s.wfW ≠ s.csr.dstW.toNat ∧ s.wfH ≠ s.csr.dstH.toNat ∧ s.tables.filtH = none ∧ s.tables.filtV = none) := by decide +kernel

/-- No mask; a height that selects by threshold; a height below every threshold. -/
theorem witness_SelpatSelects : State.reset.tables.mask = none ∧ rich.tables.mask = some msk1 ∧ msk1 ≠ [] ∧
    (∃ p ∈ msk1, p.res ≤ rich.csr.outH.toNat) ∧ (∀ q ∈ [(⟨240, 1, 1, [[0x700#11]]⟩ : PatternSet)], 100 < q.res) := by decide +kernel

theorem witness_MaskPixels : rich.wf = some frame21 ∧ frame21.wf = true ∧ rich.tables.mask = some msk1 ∧ maskWf msk1 = true ∧
    msk1[1]? = some ⟨480, 2, 2, [[0x50A#11, 0x2F8#11], [0x7F0#11, 0x403#11]]⟩ ∧ rich.sel = some ⟨1, 480, 2, 2⟩ := by decide +kernel

/-- Mode 0, with `VSCALE_MODE` illegal and the width at a limit. -/
theorem witness_PlaceFullscreen :
    let s : State := { placeState 0 9 0 0 640 480 with lim := ⟨some 640, none, none, none, none⟩ }
    s.csr.scaleMode = 0#32 ∧
    (∀ v ∈ [s.csr.srcW, s.csr.srcH, s.csr.outW, s.csr.outH], exceeds s.lim.maxExtent v.toNat = false) := by
  simp only [List.forall_mem_cons]
  exact ⟨by decide +kernel, by decide +kernel, by decide +kernel, by decide +kernel, by decide +kernel, by simp⟩

/-- Mode 1, with the least source, no width and the height at a limit. -/
theorem witness_PlaceAspectFit :
    let s : State := { placeState 1 9 1 1 0 480 with lim := ⟨some 480, none, none, none, none⟩ }
    s.csr.scaleMode = 1#32 ∧ 1 ≤ s.csr.srcW.toNat ∧ 1 ≤ s.csr.srcH.toNat ∧
    (∀ v ∈ [s.csr.srcW, s.csr.srcH, s.csr.outW, s.csr.outH], exceeds s.lim.maxExtent v.toNat = false) := by
  simp only [List.forall_mem_cons]
  exact ⟨by decide +kernel, by decide +kernel, by decide +kernel, by decide +kernel, by decide +kernel, by decide +kernel,
    by decide +kernel, by simp⟩

/-- Mode 2 with each step mode. -/
theorem witness_PlaceSteppedScale (c : Nat × Nat) (hc : c ∈ [(1, 1), (2, 2), (3, 4)]) :
    let s := placeState 2 c.1 320 240 640 480
    s.csr.scaleMode = 2#32 ∧ (s.csr.vscaleMode, c.2) ∈ [(1#32, 1), (2#32, 2), (3#32, 4)] ∧
    1 ≤ s.csr.srcH.toNat ∧ 1 ≤ s.csr.aspectNum.toNat ∧ 1 ≤ s.csr.aspectDen.toNat ∧
    (∀ v ∈ [s.csr.srcW, s.csr.srcH, s.csr.outW, s.csr.outH], exceeds s.lim.maxExtent v.toNat = false) := by
  simp only [List.forall_mem_cons]
  exact ⟨rfl, by revert c; decide +kernel, by decide +revert +kernel, by decide +revert +kernel, by decide +revert +kernel,
    rfl, rfl, rfl, rfl, by simp⟩

/-- The mode 3; the step modes 0 and 4, by `PLACE` and by its variant; an extent above a limit; no width; no height; no aspect. -/
theorem witness_PlaceRefusals : 2 < (placeState 3 1 1 1 1 1).csr.scaleMode.toNat ∧
    (∀ m ∈ [0, 4], (placeState 2 m 1 1 1 1).csr.vscaleMode.toNat ∉ [1, 2, 3]) ∧
    (∃ v ∈ [(placeState 0 0 1 1 1 2).csr.outW, (placeState 0 0 1 1 1 2).csr.outH], exceeds tight.maxExtent v.toNat = true) ∧
    (placeState 1 0 0 1 1 1).csr.srcW = 0#32 ∧ (placeState 2 1 1 0 1 1).csr.srcH = 0#32 ∧
    ({ placeState 2 1 1 1 1 1 with csr := { (placeState 2 1 1 1 1 1).csr with aspectNum := 0 } } : State).csr.aspectNum = 0#32 ∧
    (Instr.placeVscale, (placeState 2 0 1 1 1 1).csr.scaleMode.toNat) ∈ ([(.place, 0), (.place, 1), (.place, 2), (.placeFull, 0),
      (.placeFit, 1), (.placeVscale, 2)] : List (Instr × Nat)) :=
  ⟨by decide +kernel, by decide +kernel, ⟨_, List.mem_cons_of_mem _ (List.mem_singleton.mpr rfl), by decide +kernel⟩,
    by decide +kernel, by decide +kernel, by decide +kernel, by decide +kernel⟩

/-- With gamma, both passes and the mask. -/
theorem witness_RunIsItsStages : rich.Inv ∧ rich.wf = some frame21 ∧ 1 ≤ rich.csr.dstW.toNat ∧ 1 ≤ rich.csr.dstH.toNat ∧
    exceeds rich.lim.maxExtent rich.csr.dstW.toNat = false ∧ exceeds rich.lim.maxExtent rich.csr.dstH.toNat = false ∧
    rich.tables.gamma.isSome = true ∧ rich.tables.filtH.isSome = true ∧ rich.tables.filtV.isSome = true ∧
    rich.tables.mask.isSome = true ∧ rich.csr.ctrl.getLsbD 0 = true ∧ rich.csr.ctrl.getLsbD 1 = true := by decide +kernel

/-- No frame; a limit exceeded; a filter missing; all needs met. -/
theorem witness_RunRefusals : State.reset.wf = none ∧
    (rich.wf ≠ none ∧ rich.csr.dstW ≠ 0#32 ∧ rich.csr.dstH ≠ 0#32 ∧ exceeds tight.maxExtent rich.csr.dstW.toNat = true) ∧
    exceeds rich.lim.maxExtent rich.csr.dstW.toNat = false ∧ exceeds rich.lim.maxExtent rich.csr.dstH.toNat = false ∧
    (let s : State := { rich with tables := { rich.tables with filtV := none } }
     s.wfH ≠ s.csr.dstH.toNat ∧ s.tables.filtV = none) ∧
    after (exec .run rich) (fun t => t.regRead 1) = some 0x300#32 := by decide +kernel

end Sys2Proof.Tests
end

section
/-! The registers at reset (10_state.md R43). Every register is one of four kinds: an RW register, a packed word (`STATUS`,
`SLOTS`, `FILT_s_DESC`), a number viewed through 32 bits, or reserved. One lemma per kind says why it reads 0. -/

namespace Sys2Proof.Machine

/-! ### Views of what is invalid -/

/-- 0 fits every register, so no free value (log 8) is read. -/
@[simp] theorem regView_zero (reg : Nat) : regView reg 0 = 0#32 := by
  simp [regView]

@[simp] theorem filterDesc_none : filterDesc none = 0#32 := rfl

@[simp] theorem maskNsets_none : maskNsets none = 0 := rfl

@[simp] theorem selField_none (get : Selection → Nat) : selField get none = 0 := rfl

@[simp] theorem plField_none (get : Placement → Nat) : plField get none = 0 := rfl

theorem State.wfW_of_invalid {s : State} (h : s.wf = none) : s.wfW = 0 := by
  simp [State.wfW, h]

theorem State.wfH_of_invalid {s : State} (h : s.wf = none) : s.wfH = 0 := by
  simp [State.wfH, h]

/-! ### The fields and the packed words at reset -/

@[simp] theorem reset_tables : State.reset.tables = ⟨none, none, none, none⟩ := rfl

@[simp] theorem reset_wf : State.reset.wf = none := rfl

@[simp] theorem reset_pl : State.reset.pl = none := rfl

@[simp] theorem reset_sel : State.reset.sel = none := rfl

@[simp] theorem reset_seq : State.reset.seq = .idle := rfl

@[simp] theorem reset_csr : State.reset.csr = ⟨0, 0, 0, 0, 0, 0, 0, 0, 0, 0, 0, 0, 0, 0⟩ := rfl

@[simp] theorem reset_info : State.reset.status.info = 0 := rfl

@[simp] theorem reset_statusWord : State.reset.status.word = 0#32 := by decide

@[simp] theorem reset_slotsWord : State.reset.slotsWord = 0#32 := by decide

@[simp] theorem reset_wfW : State.reset.wfW = 0 := State.wfW_of_invalid reset_wf

@[simp] theorem reset_wfH : State.reset.wfH = 0 := State.wfH_of_invalid reset_wf

/-! ### The register file at reset -/

/-- The case split is that of the register map (10_state.md R26). -/
@[simp] theorem regRead_reset (n : Nat) : State.reset.regRead n = 0#32 := by
  unfold State.regRead
  split <;> simp

/-- Settles O14: the register file by the split over its map, each slot and latch by its field at reset. -/
theorem resetState : Obligations.ResetState :=
  ⟨regRead_reset, reset_tables, reset_wf, reset_pl, reset_sel, reset_seq⟩

end Sys2Proof.Machine
end

section
/-! `LDFRAME` (47_pipeline.md R322, 20_memory.md R62). First the frame that row-major bytes make, with no machine; then the
bytes `FIN` holds; then the command whose tests pass. -/

namespace Sys2Proof.Machine

/-! ### The frame made of pixels, and of bytes -/

/-- The place of a pixel in row-major order. -/
theorem rowMajor_lt {w h y x : Nat} (hy : y < h) (hx : x < w) : y * w + x < h * w :=
  calc y * w + x < y * w + w := Nat.add_lt_add_left hx _
    _ = (y + 1) * w := (Nat.succ_mul y w).symm
    _ ≤ h * w := Nat.mul_le_mul_right w hy

theorem frameOf_at (w h : Nat) (px : List Pixel) {y x : Nat} (hy : y < h) (hx : x < w) :
    (frameOf w h px).at y x = px.getD (y * w + x) Pixel.absent :=
  rowsOf_getD w h px y x hy hx

/-- Enough pixels fill every row. -/
theorem frameOf_wf {w h : Nat} {px : List Pixel} (hw : 1 ≤ w) (hh : 1 ≤ h) (hw' : w < 4294967296) (hh' : h < 4294967296)
    (hp : h * w ≤ px.length) : (frameOf w h px).wf = true :=
  (Frame.wf_iff _).2 ⟨hw, hh, hw', hh', rowsOf_length w h px, rowsOf_rows w h px hp⟩

/-- The byte layout of a frame read from bytes (20_memory.md R62). -/
theorem frameOf_pixelsOf_bytes {w h : Nat} {bs : List Byte} (hb : bs.length = 4 * (h * w)) {y x : Nat} (hy : y < h)
    (hx : x < w) :
    let p := (frameOf w h (pixelsOf bs)).at y x
    bs[4 * (y * w + x) + 0]? = some p.r ∧ bs[4 * (y * w + x) + 1]? = some p.g ∧
      bs[4 * (y * w + x) + 2]? = some p.b ∧ bs[4 * (y * w + x) + 3]? = some p.a := by
  obtain ⟨p, hp, hr, hg, hb, ha⟩ := pixelsOf_getElem? bs (h * w) (y * w + x) hb (rowMajor_lt hy hx)
  have hat : (frameOf w h (pixelsOf bs)).at y x = p := by
    rw [frameOf_at w h _ hy hx, List.getD_eq_getElem?_getD, hp, Option.getD_some]
  rw [hat]
  exact ⟨hr, hg, hb, ha⟩

/-! ### The command -/

/-- The bytes `LDFRAME` reads, when all of them were written. -/
theorem State.frameBytes_of_written {s : State}
    (h : ∀ k, k < 4 * s.csr.frmW.toNat * s.csr.frmH.toNat → (Memory.read s.fin k).isSome = true) :
    ∃ bs, s.frameBytes = some bs ∧ bs.length = 4 * (s.csr.frmH.toNat * s.csr.frmW.toNat) ∧
      ∀ k, k < 4 * (s.csr.frmH.toNat * s.csr.frmW.toNat) → Memory.read s.fin k = bs[k]? := by
  have hsize : 4 * s.csr.frmW.toNat * s.csr.frmH.toNat = 4 * (s.csr.frmH.toNat * s.csr.frmW.toNat) := by ring
  have hsome : s.frameBytes.isSome = true :=
    (Memory.readRange_isSome s.fin _ 0).2 fun k hk => by rw [Nat.zero_add]; exact h k hk
  obtain ⟨bs, hbs⟩ := Option.isSome_iff_exists.1 hsome
  obtain ⟨hlen, hread⟩ := Memory.readRange_some s.fin _ 0 bs hbs
  rw [hsize] at hlen hread
  exact ⟨bs, hbs, hlen, fun k hk => by rw [← hread k hk, Nat.zero_add]⟩

/-- What the body of `LDFRAME` makes of the state when the bytes it reads are `bs`. -/
def State.withLoadedFrame (s : State) (bs : List Byte) : State :=
  { s.enter .load with wf := some (frameOf s.csr.frmW.toNat s.csr.frmH.toNat (pixelsOf bs)) }

/-- `LDFRAME` as the dispatch runs it. -/
theorem exec_ldframe (s : State) : exec .ldframe s = execLdframe s := rfl

/-- `LDFRAME` with every test passed (47_pipeline.md R324). -/
theorem exec_ldframe_loads {s : State} {bs : List Byte} (hw : 1 ≤ s.csr.frmW.toNat) (hh : 1 ≤ s.csr.frmH.toNat)
    (hlw : exceeds s.lim.maxExtent s.csr.frmW.toNat = false) (hlh : exceeds s.lim.maxExtent s.csr.frmH.toNat = false)
    (hbs : s.frameBytes = some bs) : exec .ldframe s = .next (s.withLoadedFrame bs).complete := by
  have hneeds : ∀ c ∈ ldframeNeeds s, c.1 = true := by
    simp [ldframeNeeds, hw, hh, hlw, hlh, hbs]
  rw [exec_ldframe, execLdframe]
  exact runCommand_ok s _ _ _ hneeds (by simp [hbs, putPixels, Loader.start, State.withLoadedFrame])

/-- Loading a frame changes the frame and the status. -/
theorem withLoadedFrame_frameCommand (s : State) (bs : List Byte) : FrameCommand s (s.withLoadedFrame bs).complete where
  completed := complete_completed s _ ⟨rfl, rfl, rfl, rfl, rfl, rfl, rfl, rfl⟩
  tables := rfl
  sel := rfl
  pl := rfl

/-- Settles O24: the tests pass, the bytes read are those of `FIN`, and the frame they make lays them out row by row. -/
theorem ldframeReadsRowMajor : Obligations.LdframeReadsRowMajor := by
  intro s hw hh hlw hlh hwritten
  obtain ⟨bs, hbs, hlen, hread⟩ := s.frameBytes_of_written hwritten
  refine ⟨(s.withLoadedFrame bs).complete, _, exec_ldframe_loads hw hh hlw hlh hbs, withLoadedFrame_frameCommand s bs, rfl,
    frameOf_wf hw hh s.csr.frmW.isLt s.csr.frmH.isLt (pixelsOf_length bs _ hlen).ge, rfl, rfl, fun y x hy hx => ?_⟩
  have hlt : y * s.csr.frmW.toNat + x < s.csr.frmH.toNat * s.csr.frmW.toNat := rowMajor_lt hy hx
  have hfin : ∀ c, c < 4 → Memory.read s.fin (4 * (y * s.csr.frmW.toNat + x) + c) =
      bs[4 * (y * s.csr.frmW.toNat + x) + c]? := fun c hc => hread _ (by omega)
  obtain ⟨hr, hg, hb, ha⟩ := frameOf_pixelsOf_bytes hlen hy hx
  exact ⟨(hfin 0 (by omega)).trans hr, (hfin 1 (by omega)).trans hg, (hfin 2 (by omega)).trans hb, (hfin 3 (by omega)).trans ha⟩

end Sys2Proof.Machine
end

section
/-! Reserved command codes (30_encoding.md R92 to R95). First which codes the decoder refuses, then the write to `CMD` that carries
one, which takes the error on the spot. -/

namespace Sys2Proof.Machine

/-! ### The codes -/

/-- The thirteen command codes (30_encoding.md R94). -/
def commandCodes : List Nat :=
  [0x00, 0x01, 0x10, 0x11, 0x12, 0x13, 0x20, 0x21, 0x22, 0x23, 0x24, 0x2F, 0x30]

/-- The case split is that of the code table: each of its rows fixes the code, and the last case excludes every row. -/
theorem decodeCmd_illegal_iff (code : Byte) :
    decodeCmd code = .error .illegalCommand ↔ code.toNat ∉ commandCodes := by
  unfold decodeCmd
  split <;> simp_all [commandCodes]

/-! ### The write -/

/-- A write to `CMD` issues its word. -/
theorem fetch_writeCmd (s : State) (v : Word) : s.fetch (.host (.writeReg 0 v)) = s.issue v := rfl

/-- Issuing a word whose code the decoder refuses. -/
theorem State.issue_illegal {s : State} {v : Word} (h : decodeCmd (v.setWidth 8) = .error .illegalCommand) :
    s.issue v = .done (s.raise ⟨.illegalCommand, 0⟩) := by
  have hdecode : decode .cmd8 s.ctx [v.setWidth 8] = .error .illegalCommand := h
  simp [State.issue, hdecode, rejectRaise]

/-- Settles O3: the decoder refuses the code, so issuing the word takes the error, and the step takes the write off the feed. -/
theorem reservedCodeIsIllegal : Obligations.ReservedCodeIsIllegal := by
  intro s v rest hfeed hcode
  have hillegal : decodeCmd (v.setWidth 8) = .error .illegalCommand :=
    (decodeCmd_illegal_iff _).2 (by rw [BitVec.toNat_setWidth]; exact hcode)
  rw [step_cons s _ rest hfeed, fetch_writeCmd, State.issue_illegal hillegal]
  rfl

end Sys2Proof.Machine
end

section
/-! The filter loader after the last line (40_filter_loader.md R148 to R153). First the checks and the warning, about the collected
rows alone; then the command for both slots. -/

namespace Sys2Proof.Machine

/-! ### The range warning -/

theorem inModeRange_eq_false (tenbit : Bool) (c : Int) :
    inModeRange tenbit c = false ↔ if tenbit then c < -512 ∨ 511 < c else c < -256 ∨ 255 < c := by
  cases tenbit with
  | false => simp only [inModeRange, Bool.false_eq_true, if_false, Bool.and_eq_false_iff, decide_eq_false_iff_not, not_le]
  | true => simp only [inModeRange, if_true, Bool.and_eq_false_iff, decide_eq_false_iff_not, not_le]

theorem quad_all_eq_false {α : Type} (p : α → Bool) (q : Quad α) :
    q.all p = false ↔ ∃ c ∈ [q.k0, q.k1, q.k2, q.k3], p c = false := by
  simp only [Quad.all, Bool.and_eq_false_iff, List.exists_mem_cons_iff, List.not_mem_nil, false_and, exists_false,
    or_false, or_assoc]

/-- The warning is about some coefficient of some row (40_filter_loader.md R152). -/
theorem rangeWarning_iff (tenbit : Bool) (rows : List (Quad Coef)) :
    rangeWarning tenbit rows = true ↔ ∃ q ∈ rows, ∃ c ∈ [q.k0.toInt, q.k1.toInt, q.k2.toInt, q.k3.toInt],
      if tenbit then c < -512 ∨ 511 < c else c < -256 ∨ 255 < c := by
  have hrow (q : Quad Coef) : q.all (fun c => inModeRange tenbit c.toInt) = false ↔
      ∃ c ∈ [q.k0.toInt, q.k1.toInt, q.k2.toInt, q.k3.toInt], inModeRange tenbit c = false := by
    simp only [quad_all_eq_false, List.exists_mem_cons_iff, List.not_mem_nil, false_and, exists_false]
  simp only [rangeWarning, Bool.not_eq_true', List.all_eq_false, Bool.not_eq_true, hrow, inModeRange_eq_false]

/-! ### The checks -/

/-- The phase counts of `PHASE_SET` (00_scope.md R6). -/
theorem legalPhases_iff (n : Nat) : legalPhases n = true ↔ n ∈ [4, 8, 16, 64, 256] := by
  simp [legalPhases, or_assoc]

/-- The filter that collected rows and mode flags make, if the checks admit it (40_filter_loader.md R153). -/
def FltWork.slot (w : FltWork) : FilterSlot where
  tenbit := w.tenbit
  adaptive := w.adaptive
  warn := rangeWarning w.tenbit w.rows
  rows := w.rows

theorem filterTable_empty {w : FltWork} (hempty : w.rows = []) : filterTable w = .error ⟨.emptyFilter, 0⟩ :=
  if_pos hempty

theorem filterTable_odd {w : FltWork} (hrows : w.rows ≠ []) (hodd : w.adaptive = true ∧ w.rows.length % 2 = 1) :
    filterTable w = .error ⟨.oddAdaptiveRowCount, 0⟩ := by
  rw [filterTable, if_neg hrows, if_pos hodd]

/-- Past the first two checks the phase count decides. -/
theorem filterTable_phases {w : FltWork} (hrows : w.rows ≠ []) (heven : ¬ (w.adaptive = true ∧ w.rows.length % 2 = 1)) :
    filterTable w = if w.slot.nphases ∈ [4, 8, 16, 64, 256] then .ok w.slot else .error ⟨.invalidPhaseCount, 0⟩ := by
  rw [filterTable, if_neg hrows, if_neg heven]
  exact if_congr (legalPhases_iff _) rfl rfl

/-! ### The command -/

/-- A command whose tests pass and whose body takes an error. -/
theorem runCommand_error {s : State} {needs : List (Bool × CmdError)} {body : State → Except Raise State} {e : Raise}
    (hneeds : ∀ c ∈ needs, c.1 = true) (hbody : body s = .error e) : runCommand s needs body = .next (s.raise e) := by
  simp [runCommand, (firstFailure_none needs).2 hneeds, hbody]

/-- The tests of every load command pass (47_pipeline.md R324). -/
theorem State.streamNeeds_pass {s : State} {bytes : List Byte} (hlen : exceeds s.lim.txtMaxLen s.csr.txtLen.toNat = false)
    (hstream : s.stream = some bytes) : ∀ c ∈ s.streamNeeds, c.1 = true := by
  simp [State.streamNeeds, hlen, hstream]

/-- Once every line is processed, the checks decide what the stream stands for. -/
theorem State.parseFilter_of_lines {s : State} {bytes : List Byte} {l : Loader} (hstream : s.stream = some bytes)
    (hlines : runLines .fltLine s.lim s.csr (Text.lines bytes) Loader.start = .ok l) : s.parseFilter = filterTable l.flt := by
  have hparse : s.parse .fltLine = .ok l := by rw [State.parse, hstream, Option.getD_some, hlines]
  rw [State.parseFilter, hparse]

/-- What the body of `LDFILT` makes of the state when the stream is the filter `f`; `v` names the slot `FILT_V`. -/
def State.withFilter (s : State) (v : Bool) (f : FilterSlot) : State :=
  { s.enter .load with tables := if v then { s.tables with filtV := some f } else { s.tables with filtH := some f } }

/-- `LDFILT.H` as the dispatch runs it. -/
theorem exec_ldfiltH (s : State) : exec .ldfiltH s = execLdfiltH s := rfl

/-- `LDFILT.V` as the dispatch runs it. -/
theorem exec_ldfiltV (s : State) : exec .ldfiltV s = execLdfiltV s := rfl

/-- `LDFILT` for both slots: the stream's filter goes to the slot, or its error is taken (40_filter_loader.md R140). -/
theorem exec_ldfilt (s : State) (v : Bool) : exec (if v then .ldfiltV else .ldfiltH) s =
    runCommand s s.streamNeeds fun t => t.parseFilter.map (t.withFilter v) := by
  cases v with
  | false =>
    rw [if_neg Bool.false_ne_true, exec_ldfiltH, execLdfiltH]
    congr with t
    cases t.parseFilter <;> rfl
  | true =>
    rw [if_pos rfl, exec_ldfiltV, execLdfiltV]
    congr with t
    cases t.parseFilter <;> rfl

theorem exec_ldfilt_loads {s : State} {bytes : List Byte} {f : FilterSlot} (v : Bool)
    (hlen : exceeds s.lim.txtMaxLen s.csr.txtLen.toNat = false) (hstream : s.stream = some bytes)
    (hparse : s.parseFilter = .ok f) :
    exec (if v then .ldfiltV else .ldfiltH) s = .next (s.withFilter v f).complete := by
  rw [exec_ldfilt]
  exact runCommand_ok s _ _ _ (s.streamNeeds_pass hlen hstream) (by rw [hparse]; rfl)

theorem exec_ldfilt_raises {s : State} {bytes : List Byte} {e : Raise} (v : Bool)
    (hlen : exceeds s.lim.txtMaxLen s.csr.txtLen.toNat = false) (hstream : s.stream = some bytes)
    (hparse : s.parseFilter = .error e) : exec (if v then .ldfiltV else .ldfiltH) s = .next (s.raise e) := by
  rw [exec_ldfilt]
  exact runCommand_error (State.streamNeeds_pass hlen hstream) (by rw [hparse]; rfl)

/-- Loading a filter changes its slot and the status. -/
theorem withFilter_completed (s : State) (v : Bool) (f : FilterSlot) : Completed s (s.withFilter v f).complete :=
  complete_completed s _ ⟨rfl, rfl, rfl, rfl, rfl, rfl, rfl, rfl⟩

/-- Settles O28: the lines leave the rows to the checks, so each check that fails is the command's error, and the filter they
admit goes to its slot with its warning. -/
theorem filterChecksAndCommit : Obligations.FilterChecksAndCommit := by
  intro s v bytes l hlen hstream hlines i rows np
  have hparse : s.parseFilter = filterTable l.flt := State.parseFilter_of_lines hstream hlines
  split
  next hempty => exact exec_ldfilt_raises v hlen hstream (hparse.trans (filterTable_empty hempty))
  next hrows =>
    split
    next hodd => exact exec_ldfilt_raises v hlen hstream (hparse.trans (filterTable_odd hrows hodd))
    next heven =>
      rw [filterTable_phases hrows heven] at hparse
      split
      next hphases => exact exec_ldfilt_raises v hlen hstream (hparse.trans (if_neg hphases))
      next hphases =>
        exact ⟨(s.withFilter v l.flt.slot).complete, l.flt.slot,
          exec_ldfilt_loads v hlen hstream (hparse.trans (if_pos (not_not.1 hphases))), withFilter_completed s v l.flt.slot,
          rfl, rfl, rfl, rfl, rfl, rfl, rfl, rfl, rangeWarning_iff _ _⟩

end Sys2Proof.Machine
end

section
/-! The refusals of the load commands (40_filter_loader.md R141, 41_mask_loader.md R171, 42_gamma_loader.md R201): the four commands
share their tests, so the tests decide for all four. -/

namespace Sys2Proof.Machine

/-- A command ends with the first test that fails (47_pipeline.md R324). -/
theorem runCommand_refused {s : State} {needs : List (Bool × CmdError)} {e : CmdError} (h : firstFailure needs = some e)
    (body : State → Except Raise State) : runCommand s needs body = .next (s.raise ⟨e, 0⟩) := by
  rw [runCommand, h]

/-- The stream cannot be read exactly where one of its bytes was not written (10_state.md R42). -/
theorem State.stream_eq_none_iff (s : State) :
    s.stream = none ↔ ∃ k, k < s.csr.txtLen.toNat ∧ Memory.read s.txt k = none := by
  rw [← Option.not_isSome_iff_eq_none, State.stream, Memory.readRange_isSome]
  simp only [Nat.zero_add, Classical.not_forall, Option.not_isSome_iff_eq_none, exists_prop]

theorem streamNeeds_tooLong {s : State} (hlen : exceeds s.lim.txtMaxLen s.csr.txtLen.toNat = true) :
    firstFailure s.streamNeeds = some .limitExceeded := by
  simp [State.streamNeeds, firstFailure, hlen]

theorem streamNeeds_unwritten {s : State} (hlen : exceeds s.lim.txtMaxLen s.csr.txtLen.toNat = false)
    (hstream : s.stream = none) : firstFailure s.streamNeeds = some .notReady := by
  simp [State.streamNeeds, firstFailure, hlen, hstream]

/-- Every load command starts with the tests on the stream, whatever it does with the lines. -/
theorem exec_load_tests (s : State) {i : Instr} (hi : i ∈ ([.ldfiltH, .ldfiltV, .ldmask, .ldgamma] : List Instr)) :
    ∃ body, exec i s = runCommand s s.streamNeeds body := by
  simp only [List.mem_cons, List.not_mem_nil, or_false] at hi
  rcases hi with rfl | rfl | rfl | rfl
  · exact ⟨_, show execLdfiltH s = _ from rfl⟩
  · exact ⟨_, show execLdfiltV s = _ from rfl⟩
  · exact ⟨_, show execLdmask s = _ from rfl⟩
  · exact ⟨_, show execLdgamma s = _ from rfl⟩

/-- Settles O26: the length is tested first, then whether every byte was written, and the first failing test is the error. -/
theorem loadRefusals : Obligations.LoadRefusals := by
  intro s i hi
  obtain ⟨body, hexec⟩ := exec_load_tests s hi
  rw [hexec]
  split
  next htooLong => exact runCommand_refused (streamNeeds_tooLong htooLong) body
  next hfits =>
    intro hunwritten
    exact runCommand_refused
      (streamNeeds_unwritten (Bool.eq_false_of_not_eq_true hfits) (s.stream_eq_none_iff.2 hunwritten)) body

end Sys2Proof.Machine
end

section
/-! `LDMASK` after the last line (41_mask_loader.md R179, R182 to R184). First the checks, about the loader's working values alone;
then the command. -/

namespace Sys2Proof.Machine

/-! ### The checks -/

/-- A block that lacks rows (41_mask_loader.md R179). -/
theorem maskTable_incomplete {w : MskWork} (hstate : w.state = .rows) : maskTable w = .error ⟨.badMaskStructure, 0⟩ :=
  if_pos hstate

/-- No pattern set at all (41_mask_loader.md R182). -/
theorem maskTable_empty {w : MskWork} (hstate : w.state ≠ .rows) (hempty : w.sets = []) :
    maskTable w = .error ⟨.noPatternsFound, 0⟩ := by
  rw [maskTable, if_neg hstate, if_pos hempty]

theorem maskTable_sets {w : MskWork} (hstate : w.state ≠ .rows) (hsets : w.sets ≠ []) : maskTable w = .ok w.sets := by
  rw [maskTable, if_neg hstate, if_neg hsets]

/-- A valid mask slot, as a proposition (10_state.md R37). -/
theorem maskWf_iff (sets : List PatternSet) : maskWf sets = true ↔ sets ≠ [] ∧ ∀ p ∈ sets, p.wf = true := by
  rw [maskWf, Bool.and_eq_true, decide_eq_true_iff, List.all_eq_true]

/-! ### The command -/

/-- The stream of a load command, once every line is processed. -/
theorem State.parse_of_lines {s : State} {f : Format} {bytes : List Byte} {l : Loader} (hstream : s.stream = some bytes)
    (hlines : runLines f s.lim s.csr (Text.lines bytes) Loader.start = .ok l) : s.parse f = .ok l := by
  rw [State.parse, hstream, Option.getD_some, hlines]

/-- Once every line is processed, the checks decide which sets the stream stands for. -/
theorem State.parseMask_of_lines {s : State} {bytes : List Byte} {l : Loader} (hstream : s.stream = some bytes)
    (hlines : runLines .mskLine s.lim s.csr (Text.lines bytes) Loader.start = .ok l) : s.parseMask = maskTable l.msk := by
  rw [State.parseMask, State.parse_of_lines hstream hlines]

/-- What the body of `LDMASK` makes of the state when the stream is the list `sets` (41_mask_loader.md R184). -/
def State.withMask (s : State) (sets : List PatternSet) : State :=
  { s.enter .load with tables := { s.tables with mask := some sets }, sel := none }

/-- `LDMASK` as the dispatch runs it: the stream's sets go to the slot, or its error is taken. -/
theorem exec_ldmask (s : State) :
    exec .ldmask s = runCommand s s.streamNeeds fun t => t.parseMask.map t.withMask := by
  change execLdmask s = _
  rw [execLdmask]
  congr with t
  cases t.parseMask <;> rfl

theorem exec_ldmask_loads {s : State} {bytes : List Byte} {sets : List PatternSet}
    (hlen : exceeds s.lim.txtMaxLen s.csr.txtLen.toNat = false) (hstream : s.stream = some bytes)
    (hparse : s.parseMask = .ok sets) : exec .ldmask s = .next (s.withMask sets).complete := by
  rw [exec_ldmask]
  exact runCommand_ok s _ _ _ (State.streamNeeds_pass hlen hstream) (by rw [hparse]; rfl)

theorem exec_ldmask_raises {s : State} {bytes : List Byte} {e : Raise}
    (hlen : exceeds s.lim.txtMaxLen s.csr.txtLen.toNat = false) (hstream : s.stream = some bytes)
    (hparse : s.parseMask = .error e) : exec .ldmask s = .next (s.raise e) := by
  rw [exec_ldmask]
  exact runCommand_error (State.streamNeeds_pass hlen hstream) (by rw [hparse]; rfl)

/-- Loading a mask changes its slot, the selection and the status. -/
theorem withMask_completed (s : State) (sets : List PatternSet) : Completed s (s.withMask sets).complete :=
  complete_completed s _ ⟨rfl, rfl, rfl, rfl, rfl, rfl, rfl, rfl⟩

/-- Settles O30: the lines leave the sets to the checks, so each check that fails is the command's error; that every committed set
is a full grid is the loader's invariant `mskGood` at the end of the stream. -/
theorem maskChecksAndCommit : Obligations.MaskChecksAndCommit := by
  intro s bytes l hlen hstream hlines
  have hparse : s.parseMask = maskTable l.msk := State.parseMask_of_lines hstream hlines
  split
  next hrows => exact exec_ldmask_raises hlen hstream (hparse.trans (maskTable_incomplete hrows))
  next hrows =>
    split
    next hempty => exact exec_ldmask_raises hlen hstream (hparse.trans (maskTable_empty hrows hempty))
    next hsets =>
      obtain ⟨hfull, -⟩ : mskGood l.msk := runLines_mskGood s.lim s.csr _ l hlines
      exact ⟨(s.withMask l.msk.sets).complete, exec_ldmask_loads hlen hstream (hparse.trans (maskTable_sets hrows hsets)),
        withMask_completed s l.msk.sets, rfl, rfl, rfl, rfl, (maskWf_iff _).2 ⟨hsets, hfull⟩⟩

end Sys2Proof.Machine
end

section
/-! The rows of a mask pattern (41_mask_loader.md R172, R177, R178, R180). First the operation of a row on the working values, test
by test; then the decoder in a block that has all its rows. -/

namespace Sys2Proof.Machine

/-! ### One row -/

/-- The token count is tested before any token (41_mask_loader.md R178). -/
theorem opMskRow_count (lim : Config.Limits) {toks : List (Token CellWord)} {l : Loader} (hcount : toks.length ≠ l.msk.w) :
    opMskRow lim toks l = .error ⟨.badMaskStructure, l.ln⟩ :=
  if_pos hcount

theorem opMskRow_badToken (lim : Config.Limits) {toks : List (Token CellWord)} {l : Loader} (hcount : toks.length = l.msk.w)
    (hbad : none ∈ toks) : opMskRow lim toks l = .error ⟨.badToken, l.ln⟩ := by
  rw [opMskRow, if_neg (not_not.2 hcount), (allLegal_none toks).2 hbad]

/-- The working values with one more row of cells. -/
def Loader.withCellRow (l : Loader) (row : List CellWord) : Loader :=
  { l with msk := { l.msk with cells := l.msk.cells ++ [row], cur := [] } }

theorem withCellRow_cells_length (l : Loader) (row : List CellWord) :
    (l.withCellRow row).msk.cells.length = l.msk.cells.length + 1 :=
  List.length_append

/-- A row that is not the last of its pattern is stored (41_mask_loader.md R177). -/
theorem opMskRow_inner (lim : Config.Limits) {row : List CellWord} {l : Loader} (hlen : row.length = l.msk.w)
    (hinner : l.msk.cells.length + 1 ≠ l.msk.h) : opMskRow lim (row.map some) l = .ok (l.withCellRow row) := by
  rw [opMskRow_ok lim row l hlen]
  exact if_neg fun h => hinner ((withCellRow_cells_length l row).symm.trans h)

/-- The last row of a pattern adds it to the list of sets, unless the list is full (41_mask_loader.md R172). -/
theorem opMskRow_last (lim : Config.Limits) {row : List CellWord} {l : Loader} (hlen : row.length = l.msk.w)
    (hlast : l.msk.cells.length + 1 = l.msk.h) :
    opMskRow lim (row.map some) l =
      if lim.maskMaxSets = some l.msk.sets.length then .error ⟨.limitExceeded, l.ln⟩
      else .ok { l with msk := { l.msk with
        cells := l.msk.cells ++ [row], cur := [], state := .done
        sets := l.msk.sets ++ [⟨l.msk.res, l.msk.w, l.msk.h, l.msk.cells ++ [row]⟩] } } := by
  rw [opMskRow_ok lim row l hlen]
  exact if_pos ((withCellRow_cells_length l row).trans hlast)

theorem exec_mskRow (s : State) (toks : List (Token CellWord)) :
    exec (.mskRow toks) s = loaderStep s (opMskRow s.lim toks s.ld) :=
  exec_line (.mskRow toks) s _ rfl

/-! ### After the last row -/

/-- In a block that has all its rows only blank lines, comments and `Resolution=` lines are instructions (41_mask_loader.md R172,
R180). -/
theorem decodeMsk_done {line : Text} (hblank : Text.trim line ≠ []) (hcomment : (Text.trim line).head? ≠ some Text.hash)
    (hres : ¬ Text.tokResolution <+: Text.trim line) : decodeMsk .done line = .error .strayMaskLine := by
  rw [decodeMsk]
  cases htrim : Text.trim line with
  | nil => exact absurd htrim hblank
  | cons b rest =>
    rw [htrim] at hcomment hres
    have hb : b ≠ Text.hash := fun h => hcomment (congrArg some h)
    have htake : (b :: rest).take 11 ≠ Text.tokResolution := fun h => hres (h ▸ List.take_prefix 11 (b :: rest))
    simp only [if_neg hb, if_neg htake]

/-- A stray line ends the load with its number (41_mask_loader.md R180). -/
theorem loadLine_stray (lim : Config.Limits) {r : HostRegs} {l : Loader} {line : Text}
    (hstray : decodeMsk l.msk.state line = .error .strayMaskLine) :
    loadLine .mskLine lim r l line = .error ⟨.badMaskStructure, l.ln⟩ := by
  have hdecode : decode .mskLine (l.ctx r) line = .error .strayMaskLine := hstray
  rw [loadLine, hdecode]
  rfl

/-- Settles O40: the count, the tokens and the last row by the row operation's own cases; a line after the last row by the decoder. -/
theorem mskRowLine : Obligations.MskRowLine := by
  refine ⟨fun s toks hcount => ?_, fun s toks hcount hbad => ?_, fun s row hlen => ?_,
    fun lim r l line hdone hblank hcomment hres => ?_⟩
  · rw [exec_mskRow, opMskRow_count s.lim hcount]; rfl
  · rw [exec_mskRow, opMskRow_badToken s.lim hcount hbad]; rfl
  · rw [exec_mskRow]
    split
    next hinner => rw [opMskRow_inner s.lim hlen hinner]; rfl
    next hlast =>
      rw [opMskRow_last s.lim hlen (not_not.1 hlast)]
      split <;> rfl
  · exact loadLine_stray lim (by rw [hdone]; exact decodeMsk_done hblank hcomment hres)

end Sys2Proof.Machine
end

section
/-! `SELPAT` (41_mask_loader.md R190 to R193). Both loops of R190 look for the earliest admissible set that no other one beats: the
first loop admits thresholds not above the target and prefers the higher, the second admits all and prefers the lower. The common
loop is proved once, for any admission `ok` and any strict total order `beats`. -/

namespace Sys2Proof.Machine

/-! ### The common loop -/

section
variable (ok : Nat → Prop) [DecidablePred ok] (beats : Nat → Nat → Prop) [DecidableRel beats]

/-- One turn of the loop: set number `n` replaces the best so far if it is admissible and beats it. -/
def keepBetter (n : Nat) (p : PatternSet) (best : Option (Nat × PatternSet)) : Option (Nat × PatternSet) :=
  if ok p.res then
    match best with
    | none => some (n, p)
    | some (m, q) => if beats p.res q.res then some (n, p) else some (m, q)
  else best

/-- The loop, from set number `n` on. -/
def scanSets : List PatternSet → Nat → Option (Nat × PatternSet) → Option (Nat × PatternSet)
  | [], _, best => best
  | p :: rest, n, best => scanSets rest (n + 1) (keepBetter ok beats n p best)

/-- What the loop is to find in a list: the earliest admissible set that no other one beats, `none` if no set is admissible
(41_mask_loader.md R191, R192). -/
def IsFirstBest (sets : List PatternSet) : Option (Nat × PatternSet) → Prop
  | none => ∀ q ∈ sets, ¬ ok q.res
  | some (n, p) => sets[n]? = some p ∧ ok p.res ∧
      ∀ m q, sets[m]? = some q → ok q.res → beats p.res q.res ∨ (q.res = p.res ∧ n ≤ m)

end

/-- A place in a list with one more element at its end. -/
theorem getElem?_snoc_eq_some {α : Type} {xs : List α} {x y : α} {m : Nat} (h : (xs ++ [x])[m]? = some y) :
    xs[m]? = some y ∨ (m = xs.length ∧ y = x) := by
  grind

theorem getElem?_snoc_of_some {α : Type} {xs : List α} {y : α} {m : Nat} (x : α) (h : xs[m]? = some y) :
    (xs ++ [x])[m]? = some y := by
  grind

section
variable {ok : Nat → Prop} {beats : Nat → Nat → Prop} {sets : List PatternSet} {p : PatternSet}

/-- The next set is not admissible: the best stays. -/
theorem IsFirstBest.snoc_refused {best : Option (Nat × PatternSet)} (h : IsFirstBest ok beats sets best) (hp : ¬ ok p.res) :
    IsFirstBest ok beats (sets ++ [p]) best := by
  cases best with
  | none =>
    intro q hq
    rcases List.mem_append.1 hq with hq | hq
    · exact h q hq
    · rwa [List.mem_singleton.1 hq]
  | some c =>
    obtain ⟨hget, hok, hbest⟩ := h
    refine ⟨getElem?_snoc_of_some p hget, hok, fun m q hq hokq => ?_⟩
    rcases getElem?_snoc_eq_some hq with hq | ⟨-, rfl⟩
    · exact hbest m q hq hokq
    · exact absurd hokq hp

/-- The next set is the first admissible one. -/
theorem IsFirstBest.snoc_first (h : IsFirstBest ok beats sets none) (hp : ok p.res) :
    IsFirstBest ok beats (sets ++ [p]) (some (sets.length, p)) := by
  refine ⟨List.getElem?_concat_length, hp, fun m q hq hokq => ?_⟩
  rcases getElem?_snoc_eq_some hq with hq | ⟨rfl, rfl⟩
  · exact absurd hokq (h q (List.mem_of_getElem? hq))
  · exact .inr ⟨rfl, le_rfl⟩

/-- The next set beats the best so far, and with it all the others. -/
theorem IsFirstBest.snoc_better [IsTrans Nat beats] {n : Nat} {b : PatternSet}
    (h : IsFirstBest ok beats sets (some (n, b))) (hp : ok p.res) (hbeats : beats p.res b.res) :
    IsFirstBest ok beats (sets ++ [p]) (some (sets.length, p)) := by
  obtain ⟨-, -, hbest⟩ := h
  refine ⟨List.getElem?_concat_length, hp, fun m q hq hokq => ?_⟩
  rcases getElem?_snoc_eq_some hq with hq | ⟨rfl, rfl⟩
  · rcases hbest m q hq hokq with hlt | ⟨heq, -⟩
    · exact .inl (trans_of beats hbeats hlt)
    · exact .inl (heq ▸ hbeats)
  · exact .inr ⟨rfl, le_rfl⟩

/-- The next set does not beat the best so far: it is worse, or as good and later. -/
theorem IsFirstBest.snoc_worse [Std.Trichotomous beats] {n : Nat} {b : PatternSet}
    (h : IsFirstBest ok beats sets (some (n, b))) (hbeats : ¬ beats p.res b.res) :
    IsFirstBest ok beats (sets ++ [p]) (some (n, b)) := by
  obtain ⟨hget, hok, hbest⟩ := h
  refine ⟨getElem?_snoc_of_some p hget, hok, fun m q hq hokq => ?_⟩
  rcases getElem?_snoc_eq_some hq with hq | ⟨rfl, rfl⟩
  · exact hbest m q hq hokq
  · have hn : n ≤ sets.length := (List.getElem?_eq_some_iff.1 hget).1.le
    rcases trichotomous_of beats q.res b.res with hlt | heq | hgt
    · exact absurd hlt hbeats
    · exact .inr ⟨heq, hn⟩
    · exact .inl hgt

variable [DecidablePred ok] [DecidableRel beats]

/-- One turn of the loop finds the best of one more set. -/
theorem keepBetter_isFirstBest [IsStrictTotalOrder Nat beats] {best : Option (Nat × PatternSet)}
    (h : IsFirstBest ok beats sets best) : IsFirstBest ok beats (sets ++ [p]) (keepBetter ok beats sets.length p best) := by
  unfold keepBetter
  split
  next hp =>
    split
    next => exact h.snoc_first hp
    next n b =>
      split
      next hbeats => exact h.snoc_better hp hbeats
      next hbeats => exact h.snoc_worse hbeats
  next hp => exact h.snoc_refused hp

/-- The loop, started after the sets `pre` with their best, ends with the best of all. -/
theorem scanSets_isFirstBest [IsStrictTotalOrder Nat beats] (rest : List PatternSet) :
    ∀ (pre : List PatternSet) (best : Option (Nat × PatternSet)), IsFirstBest ok beats pre best →
      IsFirstBest ok beats (pre ++ rest) (scanSets ok beats rest pre.length best) := by
  induction rest with
  | nil => intro pre best h; rwa [List.append_nil]
  | cons p rest ih =>
    intro pre best h
    have hnext := ih (pre ++ [p]) _ (keepBetter_isFirstBest (p := p) h)
    rwa [List.append_assoc, List.singleton_append, List.length_append] at hnext

end

/-! ### The two loops of R190 -/

theorem bestNotAbove_cons (T : Nat) (p : PatternSet) (rest : List PatternSet) (n : Nat) (best : Option (Nat × PatternSet)) :
    bestNotAbove T (p :: rest) n best = bestNotAbove T rest (n + 1) (keepBetter (· ≤ T) (· > ·) n p best) := rfl

theorem lowest_cons (p : PatternSet) (rest : List PatternSet) (n : Nat) (best : Option (Nat × PatternSet)) :
    lowest (p :: rest) n best = lowest rest (n + 1) (keepBetter (fun _ => True) (· < ·) n p best) := rfl

theorem bestNotAbove_eq_scanSets (T : Nat) (sets : List PatternSet) : ∀ (n : Nat) (best : Option (Nat × PatternSet)),
    bestNotAbove T sets n best = scanSets (· ≤ T) (· > ·) sets n best := by
  induction sets with
  | nil => exact fun _ _ => rfl
  | cons p rest ih => exact fun n best => (bestNotAbove_cons T p rest n best).trans (ih (n + 1) _)

theorem lowest_eq_scanSets (sets : List PatternSet) : ∀ (n : Nat) (best : Option (Nat × PatternSet)),
    lowest sets n best = scanSets (fun _ => True) (· < ·) sets n best := by
  induction sets with
  | nil => exact fun _ _ => rfl
  | cons p rest ih => exact fun n best => (lowest_cons p rest n best).trans (ih (n + 1) _)

/-- The first loop: the highest threshold not above the target. -/
theorem bestNotAbove_isFirstBest (T : Nat) (sets : List PatternSet) :
    IsFirstBest (· ≤ T) (· > ·) sets (bestNotAbove T sets 0 none) := by
  rw [bestNotAbove_eq_scanSets]
  exact scanSets_isFirstBest sets [] none (fun _ hq => absurd hq List.not_mem_nil)

/-- The second loop: the lowest threshold. -/
theorem lowest_isFirstBest (sets : List PatternSet) : IsFirstBest (fun _ => True) (· < ·) sets (lowest sets 0 none) := by
  rw [lowest_eq_scanSets]
  exact scanSets_isFirstBest sets [] none (fun _ hq => absurd hq List.not_mem_nil)

/-- The selected set, from a list that is not empty (41_mask_loader.md R191, R192). -/
theorem selectSet_spec (T : Nat) {sets : List PatternSet} (hne : sets ≠ []) :
    ∃ n p, selectSet T sets = some (n, p) ∧ sets[n]? = some p ∧
      ((p.res ≤ T ∧ ∀ m q, sets[m]? = some q → q.res ≤ T → q.res < p.res ∨ (q.res = p.res ∧ n ≤ m)) ∨
       ((∀ q ∈ sets, T < q.res) ∧ ∀ m q, sets[m]? = some q → p.res < q.res ∨ (q.res = p.res ∧ n ≤ m))) := by
  have hfirst := bestNotAbove_isFirstBest T sets
  have hsecond := lowest_isFirstBest sets
  unfold selectSet
  cases hbest : bestNotAbove T sets 0 none with
  | some c =>
    rw [hbest] at hfirst
    obtain ⟨hget, hle, hmax⟩ := hfirst
    exact ⟨c.1, c.2, rfl, hget, .inl ⟨hle, hmax⟩⟩
  | none =>
    rw [hbest] at hfirst
    have habove : ∀ q ∈ sets, T < q.res := fun q hq => Nat.lt_of_not_le (hfirst q hq)
    cases hlow : lowest sets 0 none with
    | none =>
      rw [hlow] at hsecond
      obtain ⟨q, hq⟩ := List.exists_mem_of_ne_nil sets hne
      exact absurd trivial (hsecond q hq)
    | some c =>
      rw [hlow] at hsecond
      obtain ⟨hget, -, hmin⟩ := hsecond
      exact ⟨c.1, c.2, rfl, hget, .inr ⟨habove, fun m q hq => hmin m q hq trivial⟩⟩

/-! ### The command -/

/-- `SELPAT` as the dispatch runs it. -/
theorem exec_selpat (s : State) : exec .selpat s = execSelpat s := rfl

/-- `SELPAT` without a mask (41_mask_loader.md R193, 47_pipeline.md R324). -/
theorem exec_selpat_notReady {s : State} (h : s.tables.mask = none) : exec .selpat s = .next (s.raise ⟨.notReady, 0⟩) := by
  rw [exec_selpat, execSelpat]
  exact runCommand_refused (by rw [h]; rfl) _

/-- `SELPAT` with a mask. -/
theorem exec_selpat_completes {s : State} {sets : List PatternSet} (h : s.tables.mask = some sets) :
    exec .selpat s = .next (stageSelpat s).complete := by
  rw [exec_selpat, execSelpat]
  exact runCommand_ok s _ _ _ (by simp [h]) rfl

theorem stageSelpat_sel {s : State} {sets : List PatternSet} (h : s.tables.mask = some sets) :
    (stageSelpat s).sel = (selectSet s.csr.outH.toNat sets).map latchOf := by
  rw [stageSelpat, h]

/-- The stage keeps to what a command's body may change. -/
theorem stageSelpat_bodyFrame (s : State) : BodyFrame s (stageSelpat s) := by
  rw [stageSelpat_frame s]
  exact ⟨rfl, rfl, rfl, rfl, rfl, rfl, rfl, rfl⟩

/-- Settles O52: the command latches what `selectSet` finds, and the two loops find the first best of the admissible sets. -/
theorem selpatSelects : Obligations.SelpatSelects := by
  refine ⟨fun s hnone => exec_selpat_notReady hnone, fun s sets hmask hne => ?_⟩
  obtain ⟨n, p, hselect, hget, hbest⟩ := selectSet_spec s.csr.outH.toNat hne
  have hsel : (stageSelpat s).sel = some ⟨n, p.res, p.w, p.h⟩ := by rw [stageSelpat_sel hmask, hselect]; rfl
  have htables : (stageSelpat s).tables = s.tables := by rw [stageSelpat_frame s]
  have hpl : (stageSelpat s).pl = s.pl := by rw [stageSelpat_frame s]
  have hwf : (stageSelpat s).wf = s.wf := by rw [stageSelpat_frame s]
  exact ⟨(stageSelpat s).complete, n, p, exec_selpat_completes hmask, complete_completed s _ (stageSelpat_bodyFrame s),
    htables, hpl, hwf, hget, hsel, hbest⟩

end Sys2Proof.Machine
end

section
/-! `LDGAMMA` after the last line (42_gamma_loader.md R206, R208). First the check and the channel tables, about the stored entries
alone; then the command. -/

namespace Sys2Proof.Machine

/-! ### The check and the channel tables -/

/-- Too few entries (42_gamma_loader.md R206). -/
theorem gammaTable_sizeMismatch {w : GamWork} (hcount : w.lut.length ≠ 256) :
    gammaTable w = .error ⟨.gammaTableSizeMismatch, 0⟩ :=
  if_pos hcount

/-- The channel tables that stored entries make (42_gamma_loader.md R208). -/
def GamWork.channels (w : GamWork) : GammaTable where
  r := w.lut.map Chan.r
  g := w.lut.map Chan.g
  b := w.lut.map Chan.b

theorem gammaTable_full {w : GamWork} (hcount : w.lut.length = 256) : gammaTable w = .ok w.channels :=
  if_neg (not_not.2 hcount)

theorem channels_wf {w : GamWork} (hcount : w.lut.length = 256) : w.channels.wf = true := by
  simp [GammaTable.wf, GamWork.channels, hcount]

/-- Every entry reaches its place in each channel. -/
theorem channels_getElem? {w : GamWork} {v : Nat} {e : Chan Byte} (hentry : w.lut[v]? = some e) :
    w.channels.r[v]? = some e.r ∧ w.channels.g[v]? = some e.g ∧ w.channels.b[v]? = some e.b := by
  simp [GamWork.channels, hentry]

/-! ### The command -/

/-- Once every line is processed, the check decides which table the stream stands for. -/
theorem State.parseGamma_of_lines {s : State} {bytes : List Byte} {l : Loader} (hstream : s.stream = some bytes)
    (hlines : runLines .gamLine s.lim s.csr (Text.lines bytes) Loader.start = .ok l) : s.parseGamma = gammaTable l.gam := by
  rw [State.parseGamma, State.parse_of_lines hstream hlines]

/-- What the body of `LDGAMMA` makes of the state when the stream is the table `g` (42_gamma_loader.md R208). -/
def State.withGamma (s : State) (g : GammaTable) : State :=
  { s.enter .load with tables := { s.tables with gamma := some g } }

/-- `LDGAMMA` as the dispatch runs it: the stream's table goes to the slot, or its error is taken. -/
theorem exec_ldgamma (s : State) :
    exec .ldgamma s = runCommand s s.streamNeeds fun t => t.parseGamma.map t.withGamma := by
  change execLdgamma s = _
  rw [execLdgamma]
  congr with t
  cases t.parseGamma <;> rfl

theorem exec_ldgamma_loads {s : State} {bytes : List Byte} {g : GammaTable}
    (hlen : exceeds s.lim.txtMaxLen s.csr.txtLen.toNat = false) (hstream : s.stream = some bytes)
    (hparse : s.parseGamma = .ok g) : exec .ldgamma s = .next (s.withGamma g).complete := by
  rw [exec_ldgamma]
  exact runCommand_ok s _ _ _ (State.streamNeeds_pass hlen hstream) (by rw [hparse]; rfl)

theorem exec_ldgamma_raises {s : State} {bytes : List Byte} {e : Raise}
    (hlen : exceeds s.lim.txtMaxLen s.csr.txtLen.toNat = false) (hstream : s.stream = some bytes)
    (hparse : s.parseGamma = .error e) : exec .ldgamma s = .next (s.raise e) := by
  rw [exec_ldgamma]
  exact runCommand_error (State.streamNeeds_pass hlen hstream) (by rw [hparse]; rfl)

/-- Loading a gamma table changes its slot and the status. -/
theorem withGamma_completed (s : State) (g : GammaTable) : Completed s (s.withGamma g).complete :=
  complete_completed s _ ⟨rfl, rfl, rfl, rfl, rfl, rfl, rfl, rfl⟩

/-- Settles O33: the lines never store a 257th entry, so the one check left is whether there are 256, and the channel tables hold
the entries place by place. -/
theorem gammaChecksAndCommit : Obligations.GammaChecksAndCommit := by
  intro s bytes l hlen hstream hlines
  have hparse : s.parseGamma = gammaTable l.gam := State.parseGamma_of_lines hstream hlines
  refine ⟨runLines_gam_le s.lim s.csr _ l hlines, ?_⟩
  split
  next hshort => exact exec_ldgamma_raises hlen hstream (hparse.trans (gammaTable_sizeMismatch hshort))
  next hfull =>
    have hcount : l.gam.lut.length = 256 := not_not.1 hfull
    exact ⟨(s.withGamma l.gam.channels).complete, l.gam.channels,
      exec_ldgamma_loads hlen hstream (hparse.trans (gammaTable_full hcount)), withGamma_completed s l.gam.channels,
      rfl, rfl, rfl, rfl, channels_wf hcount, fun _ _ hentry => channels_getElem? hentry⟩

end Sys2Proof.Machine
end

section
/-! The data lines of a gamma stream (42_gamma_loader.md R202 to R204). First the two line operations on the working values, test by
test; then the lines as instructions. -/

namespace Sys2Proof.Machine

/-! ### A full table -/

/-- The overflow is tested before any token (42_gamma_loader.md R204). -/
theorem opGamRgb_overflow {l : Loader} (hfull : l.gam.lut.length = 256) (toks : List (Token Int)) :
    opGamRgb toks l = .error ⟨.gammaTableOverflow, l.ln⟩ :=
  if_pos hfull

/-- See `opGamRgb_overflow`. -/
theorem opGamMono_overflow {l : Loader} (hfull : l.gam.lut.length = 256) (tok : Token Int) :
    opGamMono tok l = .error ⟨.gammaTableOverflow, l.ln⟩ :=
  if_pos hfull

/-! ### Room for an entry -/

/-- The working values with one more entry. -/
def Loader.withGamEntry (l : Loader) (e : Chan Byte) : Loader :=
  { l with gam := { lut := l.gam.lut ++ [e], cur := [] } }

/-- Three values, clamped, make one entry (30_encoding.md R111). -/
theorem gamEntry_eq (r g b : Int) (l : Loader) : gamEntry r g b l = l.withGamEntry ⟨gamByte r, gamByte g, gamByte b⟩ := rfl

/-- A comma line that is not three integers (42_gamma_loader.md R203). -/
theorem opGamRgb_badLine {l : Loader} (hroom : l.gam.lut.length ≠ 256) {toks : List (Token Int)}
    (hbad : ¬ ∃ r g b, toks = [some r, some g, some b]) : opGamRgb toks l = .error ⟨.badGammaLine, l.ln⟩ := by
  unfold opGamRgb
  rw [if_neg hroom]
  split
  next r g b => exact absurd ⟨r, g, b, rfl⟩ hbad
  next => rfl

theorem opGamRgb_stores {l : Loader} (hroom : l.gam.lut.length ≠ 256) (r g b : Int) :
    opGamRgb [some r, some g, some b] l = .ok (l.withGamEntry ⟨gamByte r, gamByte g, gamByte b⟩) :=
  (if_neg hroom).trans (congrArg Except.ok (gamEntry_eq r g b l))

theorem opGamMono_badToken {l : Loader} (hroom : l.gam.lut.length ≠ 256) : opGamMono none l = .error ⟨.badToken, l.ln⟩ :=
  if_neg hroom

/-- A single value stands for all three channels (42_gamma_loader.md R203). -/
theorem opGamMono_stores {l : Loader} (hroom : l.gam.lut.length ≠ 256) (g : Int) :
    opGamMono (some g) l = .ok (l.withGamEntry ⟨gamByte g, gamByte g, gamByte g⟩) :=
  (if_neg hroom).trans (congrArg Except.ok (gamEntry_eq g g g l))

/-! ### The lines as instructions -/

theorem exec_gamRgb (s : State) (toks : List (Token Int)) : exec (.gamRgb toks) s = loaderStep s (opGamRgb toks s.ld) :=
  exec_line (.gamRgb toks) s _ rfl

theorem exec_gamMono (s : State) (tok : Token Int) : exec (.gamMono tok) s = loaderStep s (opGamMono tok s.ld) :=
  exec_line (.gamMono tok) s _ rfl

/-- A blank line leaves the working values as they are (42_gamma_loader.md R202). -/
theorem exec_gamBlank (s : State) : exec .gamBlank s = .next s :=
  exec_line .gamBlank s opGamBlank rfl

/-- A comment line leaves the working values as they are (42_gamma_loader.md R202). -/
theorem exec_gamComment (s : State) (text : Text) : exec (.gamComment text) s = .next s :=
  exec_line (.gamComment text) s (opGamComment text) rfl

/-- Settles O41: each clause is one case of the line's operation, and `gamByte_toNat` says that a stored value is clamped. -/
theorem gammaDataLines : Obligations.GammaDataLines := by
  refine ⟨fun s toks tok hfull => ⟨?_, ?_, exec_gamBlank s, exec_gamComment s⟩, fun s toks hroom hbad => ?_,
    fun s hroom => ?_, fun s r g b hroom => ?_, fun s g hroom => ?_⟩
  · rw [exec_gamRgb, opGamRgb_overflow hfull]; rfl
  · rw [exec_gamMono, opGamMono_overflow hfull]; rfl
  · rw [exec_gamRgb, opGamRgb_badLine hroom hbad]; rfl
  · rw [exec_gamMono, opGamMono_badToken hroom]; rfl
  · refine ⟨⟨gamByte r, gamByte g, gamByte b⟩, gamByte_toNat r, gamByte_toNat g, gamByte_toNat b, ?_⟩
    rw [exec_gamRgb, opGamRgb_stores hroom]; rfl
  · refine ⟨gamByte g, gamByte_toNat g, ?_⟩
    rw [exec_gamMono, opGamMono_stores hroom]; rfl

end Sys2Proof.Machine
end

section
/-! The resampler's arithmetic against the document's rational formulas (43_resampler.md R220, R221, R233, R238 to R241), and the
skipped pass (R218). First the quantiser, which the blend is stated through; then position and phase; then the two commands. -/

namespace Sys2Proof.Machine

/-! ### The quantiser -/

/-- A byte holds what the clamp leaves (43_resampler.md R241). -/
theorem quant_toNat (num den : Int) : ((quant num den).toNat : ℤ) = max 0 (min 255 ((2 * num + den) / (2 * den))) :=
  gamByte_toNat ((2 * num + den) / (2 * den))

/-- Floor division of integers is the floor of the exact quotient. -/
theorem floor_intCast_div {n d : ℤ} (hd : 0 ≤ d) : ⌊(n : ℚ) / (d : ℚ)⌋ = n / d := by
  lift d to ℕ using hd
  rw [Int.cast_natCast, Rat.floor_intCast_div_natCast]

/-- Rounding is monotone and keeps the two ends, so it may come before the clamp (43_resampler.md R241). -/
theorem docRound_eq_clamp (final : ℚ) : docRound final = max 0 (min 255 ⌊final + 1 / 2⌋) := by
  have hmono : Monotone fun q : ℚ => ⌊q + 1 / 2⌋ := fun _ _ h => Int.floor_mono (add_le_add_left h _)
  have hlow : ⌊(0 : ℚ) + 1 / 2⌋ = 0 := by norm_num
  have hhigh : ⌊(255 : ℚ) + 1 / 2⌋ = 255 := by norm_num
  rw [docRound, hmono.map_max, hmono.map_min, hlow, hhigh]

/-- Settles O46: the clamp moves outside the rounding, and the rounded quotient is one floor division. -/
theorem quantMatchesTheDocument : Obligations.QuantMatchesTheDocument := by
  intro num den hden
  have hquot : (num : ℚ) / (den : ℚ) + 1 / 2 = ((2 * num + den : ℤ) : ℚ) / ((2 * den : ℤ) : ℚ) := by
    have : (den : ℚ) ≠ 0 := by exact_mod_cast hden.ne'
    push_cast
    field_simp
  rw [quant_toNat, docRound_eq_clamp, hquot, floor_intCast_div (by omega)]

/-- The quantised value depends on the quotient alone. -/
theorem quant_mul_left {c : Int} (hc : 0 < c) (num den : Int) : quant (c * num) (c * den) = quant num den := by
  have hnum : 2 * (c * num) + c * den = c * (2 * num + den) := by ring
  have hden : 2 * (c * den) = c * (2 * den) := by ring
  rw [quant, quant, hnum, hden, Int.mul_ediv_mul_of_pos _ _ hc]

theorem quant_mono {num num' den : Int} (hden : 0 < den) (h : num ≤ num') :
    (quant num den).toNat ≤ (quant num' den).toNat := by
  have hquot : (2 * num + den) / (2 * den) ≤ (2 * num' + den) / (2 * den) := Int.ediv_le_ediv (by omega) (by omega)
  have hclamp := max_le_max_left 0 (min_le_min_left 255 hquot)
  rw [← quant_toNat, ← quant_toNat] at hclamp
  exact_mod_cast hclamp

/-! ### The adaptive blend -/

/-- The blend is affine in the centre tap (43_resampler.md R238). -/
theorem blendNum_adaptive (t1 : Byte) (dark light : Int) :
    blendNum true t1 dark light = 255 * dark + t1.toNat * (light - dark) := by
  rw [blendNum, if_pos rfl]
  ring

theorem blendDen_adaptive (div : Nat) : blendDen true div = 255 * (div : ℤ) := rfl

theorem blendDen_adaptive_pos {div : Nat} (hdiv : 1 ≤ div) : 0 < blendDen true div := by
  rw [blendDen_adaptive]
  omega

/-- The integer blend is the exact rational (43_resampler.md R233). -/
theorem blend_eq_interpolation (div : Nat) (t1 : Byte) (dark light : Int) (hdiv : 1 ≤ div) :
    (blendNum true t1 dark light : ℚ) / (blendDen true div : ℚ)
      = (t1.toNat : ℚ) / 255 * ((light : ℚ) / (div : ℚ)) + (1 - (t1.toNat : ℚ) / 255) * ((dark : ℚ) / (div : ℚ)) := by
  have : (div : ℚ) ≠ 0 := by positivity
  rw [blendNum_adaptive, blendDen_adaptive]
  push_cast
  field_simp
  ring

theorem quant_blend_dark (div : Nat) (dark light : Int) :
    quant (blendNum true 0 dark light) (blendDen true div) = quant dark div := by
  have hnum : blendNum true 0 dark light = 255 * dark := by simp [blendNum_adaptive]
  rw [hnum, blendDen_adaptive, quant_mul_left (by decide)]

theorem quant_blend_light (div : Nat) (dark light : Int) :
    quant (blendNum true 255 dark light) (blendDen true div) = quant light div := by
  have hnum : blendNum true 255 dark light = 255 * light := by
    rw [blendNum_adaptive, show ((255 : Byte).toNat : ℤ) = 255 from rfl]
    ring
  rw [hnum, blendDen_adaptive, quant_mul_left (by decide)]

theorem blendNum_mono {t t' : Byte} {dark light : Int} (hlight : dark ≤ light) (ht : t.toNat ≤ t'.toNat) :
    blendNum true t dark light ≤ blendNum true t' dark light := by
  rw [blendNum_adaptive, blendNum_adaptive]
  gcongr

/-- Settles O47: the blend is affine in the centre tap, and quantising keeps its order and forgets the factor 255. -/
theorem blendFromDarkToLight : Obligations.BlendFromDarkToLight :=
  ⟨blend_eq_interpolation,
    fun div dark light _ => ⟨quant_blend_dark div dark light, quant_blend_light div dark light⟩,
    fun _ _ _ _ _ hdiv hlight ht => quant_mono (blendDen_adaptive_pos hdiv) (blendNum_mono hlight ht)⟩

/-! ### Position and phase -/

/-- `N / (2 * D)` is the source position, measured from the centre of pixel 0 (43_resampler.md R220). -/
theorem docSourcePos_sub_half (i S : Nat) {D : Nat} (P : Nat) (hD : 1 ≤ D) :
    docSourcePos i S D - 1 / 2 = ((pos i S D P).n : ℚ) / ((2 * D : ℤ) : ℚ) := by
  have : (D : ℚ) ≠ 0 := by positivity
  rw [docSourcePos, pos]
  push_cast
  field_simp

/-- The half-phase term undoes the half pixel between the source position and the window's anchor, up to whole turns of the phase
table (43_resampler.md R222). -/
theorem floor_fract_half_bias (x : ℚ) (P : ℕ) :
    ⌊(x - (⌊x⌋ : ℚ)) * (P : ℚ) + (P : ℚ) / 2⌋ % (P : ℤ) = ⌊(x - 1 / 2) * (P : ℚ)⌋ % (P : ℤ) := by
  have hturns : (x - (⌊x⌋ : ℚ)) * (P : ℚ) + (P : ℚ) / 2 = (x - 1 / 2) * (P : ℚ) + (((1 - ⌊x⌋) * P : ℤ) : ℚ) := by
    push_cast
    ring
  rw [hturns, Int.floor_add_intCast, Int.add_mul_emod_self_right]

/-- Scaling the remainder gives the scaled quotient, up to multiples of the scale. -/
theorem mul_ediv_emod_eq {m : ℤ} (hm : 0 < m) {P : ℤ} (hP : 0 < P) (n : ℤ) : (n * P / m) % P = n % m * P / m := by
  have hdecomp : n * P = n % m * P + n / m * P * m := by
    calc n * P = (n % m + m * (n / m)) * P := by rw [Int.emod_add_mul_ediv]
      _ = n % m * P + n / m * P * m := by ring
  have hnonneg : 0 ≤ n % m * P / m :=
    Int.ediv_nonneg (mul_nonneg (Int.emod_nonneg n hm.ne') hP.le) hm.le
  have hlt : n % m * P / m < P := by
    rw [Int.ediv_lt_iff_lt_mul hm, mul_comm P]
    exact mul_lt_mul_of_pos_right (Int.emod_lt_of_pos n hm) hP
  rw [hdecomp, Int.add_mul_ediv_right _ _ hm.ne', Int.add_mul_emod_self_right, Int.emod_eq_of_lt hnonneg hlt]

theorem pos_base_eq_docBase (i S : Nat) {D : Nat} (P : Nat) (hD : 1 ≤ D) : (pos i S D P).base = docBase i S D := by
  rw [docBase, docSourcePos_sub_half i S P hD, floor_intCast_div (by omega)]
  rfl

/-- The phase of the model, which is never negative, as an integer. -/
theorem pos_phase (i S : Nat) {D : Nat} (P : Nat) (hD : 1 ≤ D) :
    ((pos i S D P).phase : ℤ) = (pos i S D P).n % (2 * D) * P / (2 * D) := by
  have hrem : 0 ≤ (pos i S D P).n % (2 * D) := Int.emod_nonneg _ (by omega)
  exact Int.toNat_of_nonneg (Int.ediv_nonneg (mul_nonneg hrem (by omega)) (by omega))

theorem pos_phase_eq_docPhase (i S : Nat) {D P : Nat} (hD : 1 ≤ D) (hP : 1 ≤ P) :
    ((pos i S D P).phase : ℤ) = docPhase i S D P := by
  have hscaled : (docSourcePos i S D - 1 / 2) * (P : ℚ) = (((pos i S D P).n * P : ℤ) : ℚ) / ((2 * D : ℤ) : ℚ) := by
    rw [docSourcePos_sub_half i S P hD, div_mul_eq_mul_div]
    push_cast
    rfl
  rw [docPhase, floor_fract_half_bias, hscaled, floor_intCast_div (by omega), mul_ediv_emod_eq (by omega) (by omega),
    pos_phase i S P hD]

theorem legalPhases_pos {P : Nat} (h : legalPhases P = true) : 1 ≤ P := by
  have hmem : P ∈ [4, 8, 16, 64, 256] := (legalPhases_iff P).1 h
  simp only [List.mem_cons, List.not_mem_nil, or_false] at hmem
  omega

/-- Settles O44: both floors are floor divisions by `2 * D`, and the half-phase term leaves the phase as the scaled remainder. -/
theorem positionMatchesTheDocument : Obligations.PositionMatchesTheDocument :=
  fun i S _ P _ hD hP => ⟨pos_base_eq_docBase i S P hD, pos_phase_eq_docPhase i S hD (legalPhases_pos hP)⟩

/-! ### The skipped pass -/

theorem State.wfW_of_frame {s : State} {f : Frame} (h : s.wf = some f) : s.wfW = f.w := by
  simp [State.wfW, h]

theorem State.wfH_of_frame {s : State} {f : Frame} (h : s.wf = some f) : s.wfH = f.h := by
  simp [State.wfH, h]

/-- At equal extents the stage does nothing (43_resampler.md R218). -/
theorem stageHresample_skips {s : State} {f : Frame} (hf : s.wf = some f) (heq : f.w = s.csr.dstW.toNat) :
    stageHresample s = s := by
  simp [stageHresample, hf, heq]

/-- See `stageHresample_skips`. -/
theorem stageVresample_skips {s : State} {f : Frame} (hf : s.wf = some f) (heq : f.h = s.csr.dstH.toNat) :
    stageVresample s = s := by
  simp [stageVresample, hf, heq]

/-- `HRESAMPLE` as the dispatch runs it. -/
theorem exec_hresample (s : State) : exec .hresample s = execHresample s := rfl

/-- `VRESAMPLE` as the dispatch runs it. -/
theorem exec_vresample (s : State) : exec .vresample s = execVresample s := rfl

/-- The tests that are left pass without a filter (47_pipeline.md R324). -/
theorem exec_hresample_skips {s : State} {f : Frame} (hf : s.wf = some f) (hw : 1 ≤ f.w)
    (hlim : exceeds s.lim.maxExtent f.w = false) (heq : f.w = s.csr.dstW.toNat) : exec .hresample s = .next s.complete := by
  have hneeds : ∀ c ∈ hresampleNeeds s, c.1 = true := by
    simp [hresampleNeeds, State.wfW_of_frame hf, hf, ← heq, hw, hlim]
  rw [exec_hresample, execHresample]
  exact runCommand_ok s s _ _ hneeds (congrArg Except.ok (stageHresample_skips hf heq))

/-- See `exec_hresample_skips`. -/
theorem exec_vresample_skips {s : State} {f : Frame} (hf : s.wf = some f) (hh : 1 ≤ f.h)
    (hlim : exceeds s.lim.maxExtent f.h = false) (heq : f.h = s.csr.dstH.toNat) : exec .vresample s = .next s.complete := by
  have hneeds : ∀ c ∈ vresampleNeeds s, c.1 = true := by
    simp [vresampleNeeds, State.wfH_of_frame hf, hf, ← heq, hh, hlim]
  rw [exec_vresample, execVresample]
  exact runCommand_ok s s _ _ hneeds (congrArg Except.ok (stageVresample_skips hf heq))

/-- A command with nothing to do changes the status only. -/
theorem complete_frameCommand (s : State) : FrameCommand s s.complete where
  completed := complete_completed s s ⟨rfl, rfl, rfl, rfl, rfl, rfl, rfl, rfl⟩
  tables := rfl
  sel := rfl
  pl := rfl

/-- Settles O50: at equal extents no test asks for a filter and the stage leaves the state as it is. -/
theorem equalExtentsSkipThePass : Obligations.EqualExtentsSkipThePass := by
  intro s f hf
  exact ⟨fun hw hlim heq => ⟨s.complete, exec_hresample_skips hf hw hlim heq, complete_frameCommand s, rfl⟩,
    fun hh hlim heq => ⟨s.complete, exec_vresample_skips hf hh hlim heq, complete_frameCommand s, rfl⟩⟩

end Sys2Proof.Machine
end

section
/-! `GAMMA` (45_gamma_compositor.md R280, R281). First the look-up of one value and of one pixel, with no machine; then the command
whose tests pass. -/

namespace Sys2Proof.Machine

/-! ### The look-up -/

/-- Three full channel tables (10_state.md R39). -/
theorem GammaTable.wf_iff (g : GammaTable) : g.wf = true ↔ g.r.length = 256 ∧ g.g.length = 256 ∧ g.b.length = 256 := by
  simp [GammaTable.wf, and_assoc]

/-- Every 8-bit value is a legal index of a full table (45_gamma_compositor.md R280). -/
theorem getElem?_eq_gammaLookup {lut : List Byte} (hfull : lut.length = 256) (v : Byte) :
    lut[v.toNat]? = some (gammaLookup lut v) := by
  have hv : v.toNat < lut.length := hfull ▸ v.isLt
  rw [gammaLookup, List.getD_eq_getElem _ _ hv, List.getElem?_eq_getElem hv]

/-- Each channel comes from its own table at its own value (45_gamma_compositor.md R281). -/
theorem gammaPixel_entries {g : GammaTable} (hg : g.wf = true) (p : Pixel) :
    g.r[p.r.toNat]? = some (gammaPixel g p).r ∧ g.g[p.g.toNat]? = some (gammaPixel g p).g ∧
      g.b[p.b.toNat]? = some (gammaPixel g p).b ∧ (gammaPixel g p).a = p.a := by
  obtain ⟨hred, hgreen, hblue⟩ := g.wf_iff.1 hg
  exact ⟨getElem?_eq_gammaLookup hred p.r, getElem?_eq_gammaLookup hgreen p.g, getElem?_eq_gammaLookup hblue p.b, rfl⟩

/-! ### The command -/

/-- A stage that writes the frame and the sequencer only makes a command that changes the frame and the status only. -/
theorem frameStage_frameCommand {s t : State} (hframe : t = { s with wf := t.wf, seq := t.seq }) :
    FrameCommand s t.complete := by
  rw [hframe]
  exact ⟨complete_completed s _ ⟨rfl, rfl, rfl, rfl, rfl, rfl, rfl, rfl⟩, rfl, rfl, rfl⟩

/-- `GAMMA` as the dispatch runs it. -/
theorem exec_gamma (s : State) : exec .gamma s = execGamma s := rfl

/-- With a frame and a table both tests pass (47_pipeline.md R324). -/
theorem exec_gamma_completes {s : State} {f : Frame} {g : GammaTable} (hf : s.wf = some f) (hg : s.tables.gamma = some g) :
    exec .gamma s = .next (stageGamma s).complete := by
  rw [exec_gamma, execGamma]
  exact runCommand_ok s _ _ _ (by simp [hf, hg]) rfl

theorem stageGamma_wf {s : State} {f : Frame} {g : GammaTable} (hf : s.wf = some f) (hg : s.tables.gamma = some g) :
    (stageGamma s).wf = some (gammaFrame g f) := by
  simp [stageGamma, hf, hg]

/-- Settles O43: the stage writes the mapped frame alone, and each of its pixels is the look-up of the pixel that stood there. -/
theorem gammaPixels : Obligations.GammaPixels := by
  intro s f g hf hwf hg hgwf
  refine ⟨(stageGamma s).complete, gammaFrame g f, exec_gamma_completes hf hg, frameStage_frameCommand (stageGamma_frame s),
    stageGamma_wf hf hg, gammaFrame_wf g f hwf, rfl, rfl, fun y x hy hx => ?_⟩
  rw [gammaFrame_at g f hwf y x hy hx]
  exact gammaPixel_entries hgwf (f.at y x)

end Sys2Proof.Machine
end

section
/-! `PLACE` (46_placement.md). First the command: its four instructions, its tests and what it leaves unchanged; then the results
against the document's rational formulas. -/

namespace Sys2Proof.Machine

/-! ### The command -/

/-- The tests of a placement in a legal mode, in order (46_placement.md R292, R293). -/
def placementNeeds (s : State) : Nat → List (Bool × CmdError)
  | 0 => extentNeeds s
  | 1 => extentNeeds s ++ fitNeeds s
  | _ + 2 => (stepModeLegal s.csr.vscaleMode, .invalidStepMode) :: (extentNeeds s ++ vscaleNeeds s)

/-- The result of a placement in a legal mode (46_placement.md R294, R296, R300). -/
def placementResult (r : HostRegs) : Nat → Placement
  | 0 => placeFullResult r
  | 1 => placeFitResult r
  | _ + 2 => placeVscaleResult r

/-- A placement in a legal mode as one command; `exec_placement` ties it to the instructions. -/
def placement (mode : Nat) (s : State) : Host.Outcome State Fault Refusal :=
  runCommand s (placementNeeds s mode) fun s => writePlacement (placementResult s.csr mode) s

/-- The instructions that place, each with the modes it places in (46_placement.md R290; log 15). -/
abbrev placementInstrs : List (Instr × Nat) :=
  [(.place, 0), (.place, 1), (.place, 2), (.placeFull, 0), (.placeFit, 1), (.placeVscale, 2)]

/-- `PLACE` as the dispatch runs it. -/
theorem exec_place (s : State) : exec .place s = execPlace s := rfl

/-- `PLACE` in a legal mode, by the mode register. -/
theorem exec_place_legal (s : State) (hlegal : s.csr.scaleMode.toNat ≤ 2) :
    exec .place s = placement s.csr.scaleMode.toNat s := by
  rw [exec_place, execPlace]
  split
  next hfull => rw [hfull]; rfl
  next hfull =>
    split
    next hfit => rw [hfit]; rfl
    next hfit =>
      have hvscale : s.csr.scaleMode = 2#32 := by bv_omega
      rw [if_pos hvscale, hvscale]; rfl

/-- `PLACE` in any other mode (46_placement.md R291). -/
theorem exec_place_illegal (s : State) (hmode : 2 < s.csr.scaleMode.toNat) :
    exec .place s = .next (s.raise ⟨.invalidScalingMode, 0⟩) := by
  rw [exec_place, execPlace, if_neg (by bv_omega), if_neg (by bv_omega), if_neg (by bv_omega)]

/-- Every placement instruction runs the placement of its mode. -/
theorem exec_placement {s : State} {i : Instr} {mode : Nat} (hmode : s.csr.scaleMode.toNat = mode)
    (hi : (i, mode) ∈ placementInstrs) : exec i s = placement mode s := by
  simp only [List.mem_cons, Prod.mk.injEq, List.not_mem_nil, or_false] at hi
  have hplace (hlegal : mode ≤ 2) : exec .place s = placement mode s := hmode ▸ exec_place_legal s (hmode ▸ hlegal)
  rcases hi with ⟨rfl, rfl⟩ | ⟨rfl, rfl⟩ | ⟨rfl, rfl⟩ | ⟨rfl, rfl⟩ | ⟨rfl, rfl⟩ | ⟨rfl, rfl⟩
  · exact hplace (by decide)
  · exact hplace (by decide)
  · exact hplace (by decide)
  · exact show execPlaceFull s = _ from rfl
  · exact show execPlaceFit s = _ from rfl
  · exact show execPlaceVscale s = _ from rfl

/-- What the body of a placement makes of the state. -/
def State.withPlacement (s : State) (p : Placement) : State :=
  { s.enter .place with pl := some p }

/-- A placement changes its result and the status. -/
theorem withPlacement_completed (s : State) (p : Placement) : Completed s (s.withPlacement p).complete :=
  complete_completed s _ ⟨rfl, rfl, rfl, rfl, rfl, rfl, rfl, rfl⟩

/-- A placement whose tests pass. -/
theorem exec_placement_completes {s : State} {i : Instr} {mode : Nat} (hmode : s.csr.scaleMode.toNat = mode)
    (hi : (i, mode) ∈ placementInstrs) (hneeds : ∀ c ∈ placementNeeds s mode, c.1 = true) :
    exec i s = .next (s.withPlacement (placementResult s.csr mode)).complete := by
  rw [exec_placement hmode hi]
  exact runCommand_ok s _ _ _ hneeds rfl

/-- A placement ends with its first test that fails (46_placement.md R307). -/
theorem exec_placement_refused {s : State} {i : Instr} {mode : Nat} {e : CmdError} (hmode : s.csr.scaleMode.toNat = mode)
    (hi : (i, mode) ∈ placementInstrs) (hfails : firstFailure (placementNeeds s mode) = some e) :
    exec i s = .next (s.raise ⟨e, 0⟩) := by
  rw [exec_placement hmode hi]
  exact runCommand_refused hfails _

/-! ### The tests -/

/-- Tests that pass do not decide. -/
theorem firstFailure_append_of_pass {pre : List (Bool × CmdError)} (hpre : ∀ c ∈ pre, c.1 = true)
    (post : List (Bool × CmdError)) : firstFailure (pre ++ post) = firstFailure post := by
  induction pre with
  | nil => rfl
  | cons c pre ih =>
    obtain ⟨hc, hpre⟩ := List.forall_mem_cons.1 hpre
    rw [List.cons_append, firstFailure, if_pos hc, ih hpre]

/-- One test for each of several words, all with the same error. -/
def testEach (ok : Word → Bool) (e : CmdError) (vs : List Word) : List (Bool × CmdError) :=
  vs.map fun v => (ok v, e)

theorem testEach_pass {ok : Word → Bool} (e : CmdError) {vs : List Word} (hok : ∀ v ∈ vs, ok v = true) :
    ∀ c ∈ testEach ok e vs, c.1 = true :=
  List.forall_mem_map.2 hok

/-- Among tests with one and the same error it does not matter which one fails. -/
theorem firstFailure_testEach {ok : Word → Bool} (e : CmdError) {vs : List Word} (hfails : ∃ v ∈ vs, ok v = false)
    (post : List (Bool × CmdError)) : firstFailure (testEach ok e vs ++ post) = some e := by
  induction vs with
  | nil => simp at hfails
  | cons v vs ih =>
    rw [testEach, List.map_cons, List.cons_append, firstFailure]
    split
    next hv =>
      rcases (List.exists_mem_cons_iff _ _ _).1 hfails with hfail | hfails
      · exact absurd hv (Bool.eq_false_iff.1 hfail)
      · exact ih hfails
    next => rfl

/-- The extents a placement tests (46_placement.md R293). -/
abbrev HostRegs.placeExtents (r : HostRegs) : List Word := [r.srcW, r.srcH, r.outW, r.outH]

theorem extentNeeds_eq (s : State) : extentNeeds s =
    testEach (fun v => !exceeds s.lim.maxExtent v.toNat) .limitExceeded s.csr.placeExtents := rfl

theorem fitNeeds_eq (s : State) : fitNeeds s =
    testEach (fun v => decide (1 ≤ v.toNat)) .notReady [s.csr.srcW, s.csr.srcH] := rfl

theorem vscaleNeeds_eq (s : State) : vscaleNeeds s =
    testEach (fun v => decide (1 ≤ v.toNat)) .notReady [s.csr.srcH, s.csr.aspectNum, s.csr.aspectDen] := rfl

theorem stepModeLegal_iff (v : Word) : stepModeLegal v = true ↔ v.toNat ∈ [1, 2, 3] := by
  simp [stepModeLegal, BitVec.toNat_eq, or_assoc]

theorem extentNeeds_pass {s : State} (hextents : ∀ v ∈ s.csr.placeExtents, exceeds s.lim.maxExtent v.toNat = false) :
    ∀ c ∈ extentNeeds s, c.1 = true := by
  rw [extentNeeds_eq]
  exact testEach_pass _ fun v hv => (Bool.not_eq_true' _).mpr (hextents v hv)

theorem divisorNeeds_pass {vs : List Word} (hvs : ∀ v ∈ vs, 1 ≤ v.toNat) :
    ∀ c ∈ testEach (fun v => decide (1 ≤ v.toNat)) .notReady vs, c.1 = true :=
  testEach_pass _ fun v hv => decide_eq_true (hvs v hv)

theorem firstFailure_extentNeeds {s : State} (hlarge : ∃ v ∈ s.csr.placeExtents, exceeds s.lim.maxExtent v.toNat = true)
    (post : List (Bool × CmdError)) : firstFailure (extentNeeds s ++ post) = some .limitExceeded := by
  obtain ⟨v, hv, hexceeds⟩ := hlarge
  rw [extentNeeds_eq]
  exact firstFailure_testEach _ ⟨v, hv, (Bool.not_eq_false' _).mpr hexceeds⟩ post

/-- With the extents in order, a missing divisor is the error (46_placement.md R293). -/
theorem firstFailure_divisorNeeds {s : State}
    (hextents : ∀ v ∈ s.csr.placeExtents, exceeds s.lim.maxExtent v.toNat = false) (vs : List Word) (hzero : 0#32 ∈ vs) :
    firstFailure (extentNeeds s ++ testEach (fun v => decide (1 ≤ v.toNat)) .notReady vs) = some .notReady := by
  rw [firstFailure_append_of_pass (extentNeeds_pass hextents), ← List.append_nil (testEach _ _ _)]
  exact firstFailure_testEach _ ⟨0#32, hzero, rfl⟩ []

/-- In mode 2 a legal step mode leaves the decision to the tests after it (46_placement.md R307). -/
theorem firstFailure_placementNeeds_two {s : State} (hstep : s.csr.vscaleMode.toNat ∈ [1, 2, 3]) :
    firstFailure (placementNeeds s 2) = firstFailure (extentNeeds s ++ vscaleNeeds s) :=
  if_pos ((stepModeLegal_iff _).2 hstep)

theorem firstFailure_placementNeeds_illegalStep {s : State} (hstep : s.csr.vscaleMode.toNat ∉ [1, 2, 3]) :
    firstFailure (placementNeeds s 2) = some .invalidStepMode :=
  if_neg (mt (stepModeLegal_iff _).1 hstep)

/-- In every mode the extents are the first tests, but for the step mode of mode 2. -/
theorem firstFailure_placementNeeds_tooLarge {s : State} {i : Instr} {mode : Nat} (hi : (i, mode) ∈ placementInstrs)
    (hstep : mode = 2 → s.csr.vscaleMode.toNat ∈ [1, 2, 3])
    (hlarge : ∃ v ∈ s.csr.placeExtents, exceeds s.lim.maxExtent v.toNat = true) :
    firstFailure (placementNeeds s mode) = some .limitExceeded := by
  have hmode : mode = 0 ∨ mode = 1 ∨ mode = 2 := by
    simp only [List.mem_cons, Prod.mk.injEq, List.not_mem_nil, or_false] at hi
    omega
  rcases hmode with rfl | rfl | rfl
  · rw [placementNeeds, ← List.append_nil (extentNeeds s)]
    exact firstFailure_extentNeeds hlarge []
  · exact firstFailure_extentNeeds hlarge _
  · rw [firstFailure_placementNeeds_two (hstep rfl)]
    exact firstFailure_extentNeeds hlarge _

/-- Settles O57: each clause says which test of the placement fails first. -/
theorem placeRefusals : Obligations.PlaceRefusals := by
  intro s i mode step tooLarge
  have hwithin (h : ¬ tooLarge) : ∀ v ∈ s.csr.placeExtents, exceeds s.lim.maxExtent v.toNat = false :=
    fun v hv => Bool.eq_false_of_not_eq_true fun hv' => h ⟨v, hv, hv'⟩
  refine ⟨exec_place_illegal s, fun hi => ⟨fun hmode hstep => ?_, fun hstep hlarge => ?_, fun hmode hextents hzero => ?_,
    fun hmode hstep hextents hzero => ?_⟩⟩
  · exact exec_placement_refused hmode (hmode ▸ hi) (firstFailure_placementNeeds_illegalStep hstep)
  · exact exec_placement_refused rfl hi (firstFailure_placementNeeds_tooLarge hi hstep hlarge)
  · have hfails : firstFailure (placementNeeds s 1) = some .notReady :=
      firstFailure_divisorNeeds (hwithin hextents) [s.csr.srcW, s.csr.srcH] (by simpa [eq_comm (a := 0#32)] using hzero)
    exact exec_placement_refused hmode (hmode ▸ hi) hfails
  · have hfails : firstFailure (placementNeeds s 2) = some .notReady :=
      (firstFailure_placementNeeds_two hstep).trans <|
        firstFailure_divisorNeeds (hwithin hextents) [s.csr.srcH, s.csr.aspectNum, s.csr.aspectDen]
          (by simpa [eq_comm (a := 0#32)] using hzero)
    exact exec_placement_refused hmode (hmode ▸ hi) hfails

/-- Settles O54: the extents are the only tests of mode 0. -/
theorem placeFullscreen : Obligations.PlaceFullscreen := by
  intro s i hi hmode hextents
  have hmode : s.csr.scaleMode.toNat = 0 := by rw [hmode]; rfl
  have hi : (i, 0) ∈ placementInstrs := by rcases hi with rfl | rfl <;> simp
  exact ⟨_, exec_placement_completes hmode hi (extentNeeds_pass hextents), withPlacement_completed s _, rfl, rfl, rfl, rfl⟩

/-! ### Scaled dimensions -/

/-- A natural number scaled by a fraction and rounded down is one division. -/
theorem floor_mul_natCast_div (a n d : ℕ) : ⌊(a : ℚ) * ((n : ℚ) / (d : ℚ))⌋ = ((a * n / d : ℕ) : ℤ) := by
  rw [← mul_div_assoc, ← Nat.cast_mul, Rat.floor_natCast_div_natCast, Int.natCast_div]

/-- Reducing the scale factor keeps its value (10_state.md R32). -/
theorem centred_scale (outW outH w h sn : Nat) {sd : Nat} (hsd : 1 ≤ sd) :
    let p := centred outW outH w h sn sd
    1 ≤ p.sden ∧ Nat.Coprime p.snum p.sden ∧ (p.snum : ℚ) / (p.sden : ℚ) = (sn : ℚ) / (sd : ℚ) := by
  have hgcd : 0 < Nat.gcd sn sd := Nat.gcd_pos_of_pos_right sn hsd
  have hgcd' : (Nat.gcd sn sd : ℚ) ≠ 0 := by positivity
  refine ⟨Nat.div_pos (Nat.gcd_le_right sn hsd) hgcd, Nat.coprime_div_gcd_div_gcd hgcd, ?_⟩
  rw [centred, Nat.cast_div (Nat.gcd_dvd_left sn sd) hgcd', Nat.cast_div (Nat.gcd_dvd_right sn sd) hgcd',
    div_div_div_cancel_right₀ hgcd']

/-- A dimension scaled by at most the ratio of two extents stays within the second. -/
theorem scaled_le_of_ratio_le {a n d out : ℕ} (ha : 1 ≤ a) (hd : 1 ≤ d)
    (hratio : (n : ℚ) / (d : ℚ) ≤ (out : ℚ) / (a : ℚ)) : a * n / d ≤ out := by
  have hcross : n * a ≤ out * d := by
    rw [div_le_div_iff₀ (by positivity) (by positivity)] at hratio
    exact_mod_cast hratio
  exact Nat.div_le_of_le_mul (by linarith)

/-! ### Aspect-fit -/

/-- The scale factor of aspect-fit, as a numerator and a denominator (46_placement.md R296). -/
def fitScale (r : HostRegs) : Nat × Nat :=
  if r.outW.toNat * r.srcH.toNat ≤ r.outH.toNat * r.srcW.toNat then (r.outW.toNat, r.srcW.toNat)
  else (r.outH.toNat, r.srcH.toNat)

/-- The limiting dimension is scaled like the other one: its division is exact (46_placement.md R297). -/
theorem placeFitResult_eq {r : HostRegs} (hw : 1 ≤ r.srcW.toNat) (hh : 1 ≤ r.srcH.toNat) :
    placeFitResult r = centred r.outW.toNat r.outH.toNat (r.srcW.toNat * (fitScale r).1 / (fitScale r).2)
      (r.srcH.toNat * (fitScale r).1 / (fitScale r).2) (fitScale r).1 (fitScale r).2 := by
  rw [placeFitResult, fitScale]
  split
  next => rw [Nat.mul_div_cancel_left _ hw]
  next => rw [Nat.mul_div_cancel_left _ hh]

theorem fitScale_den_pos {r : HostRegs} (hw : 1 ≤ r.srcW.toNat) (hh : 1 ≤ r.srcH.toNat) : 1 ≤ (fitScale r).2 := by
  rw [fitScale]
  split
  next => exact hw
  next => exact hh

theorem fitScale_eq_min {r : HostRegs} (hw : 1 ≤ r.srcW.toNat) (hh : 1 ≤ r.srcH.toNat) :
    ((fitScale r).1 : ℚ) / ((fitScale r).2 : ℚ)
      = min ((r.outW.toNat : ℚ) / (r.srcW.toNat : ℚ)) ((r.outH.toNat : ℚ) / (r.srcH.toNat : ℚ)) := by
  have hcross : (r.outW.toNat : ℚ) / (r.srcW.toNat : ℚ) ≤ (r.outH.toNat : ℚ) / (r.srcH.toNat : ℚ) ↔
      r.outW.toNat * r.srcH.toNat ≤ r.outH.toNat * r.srcW.toNat := by
    rw [div_le_div_iff₀ (by positivity) (by positivity)]
    norm_cast
  rw [fitScale]
  split
  next hwidth => exact (min_eq_left (hcross.2 hwidth)).symm
  next hheight => exact (min_eq_right (le_of_not_ge (mt hcross.1 hheight))).symm

/-- Settles O55: with the limiting dimension written as a division, both dimensions are scaled by the one minimum. -/
theorem placeAspectFit : Obligations.PlaceAspectFit := by
  intro s i hi hmode hextents hw hh
  have hmode : s.csr.scaleMode.toNat = 1 := by rw [hmode]; rfl
  have hi : (i, 1) ∈ placementInstrs := by rcases hi with rfl | rfl <;> simp
  have hneeds : ∀ c ∈ placementNeeds s 1, c.1 = true :=
    List.forall_mem_append.2 ⟨extentNeeds_pass hextents, fitNeeds_eq s ▸ divisorNeeds_pass (by simp [hw, hh])⟩
  have hden := fitScale_den_pos hw hh
  have hscale := fitScale_eq_min hw hh
  refine ⟨_, _, exec_placement_completes hmode hi hneeds, withPlacement_completed s _, rfl, rfl, rfl, rfl, ?_⟩
  rw [placementResult, placeFitResult_eq hw hh]
  obtain ⟨hpos, hcoprime, hreduced⟩ := centred_scale s.csr.outW.toNat s.csr.outH.toNat
    (s.csr.srcW.toNat * (fitScale s.csr).1 / (fitScale s.csr).2)
    (s.csr.srcH.toNat * (fitScale s.csr).1 / (fitScale s.csr).2) (fitScale s.csr).1 hden
  refine ⟨hpos, hcoprime, hreduced.trans hscale, ?_, ?_, ?_, ?_, rfl, rfl⟩
  · rw [hreduced, floor_mul_natCast_div]; rfl
  · rw [hreduced, floor_mul_natCast_div]; rfl
  · exact scaled_le_of_ratio_le hw hden (hscale.trans_le (min_le_left _ _))
  · exact scaled_le_of_ratio_le hh hden (hscale.trans_le (min_le_right _ _))

/-! ### Stepped vertical scale -/

/-- The scaled width after `k` steps (46_placement.md R300). -/
def stepWidth (srcH num den m k : Nat) : Nat :=
  srcH * k * num / (m * den)

/-- The loop ends at the greatest step count up to `K` whose width fits; at 0 the width is 0, which always fits. -/
theorem fitLoop_greatest (srcH num den m outW K : Nat) :
    let c := fitLoop srcH num den m outW K
    c.1 ≤ K ∧ c.2 = stepWidth srcH num den m c.1 ∧ c.2 ≤ outW ∧
      ∀ k, c.1 < k → k ≤ K → outW < stepWidth srcH num den m k := by
  induction K with
  | zero => exact ⟨le_rfl, by simp [fitLoop, stepWidth], Nat.zero_le _, fun k hlt hle => absurd hlt (not_lt.2 hle)⟩
  | succ K ih =>
    simp only [fitLoop]
    split
    next hfits => exact ⟨le_rfl, rfl, hfits, fun k hlt hle => absurd hlt (not_lt.2 hle)⟩
    next hwide =>
      obtain ⟨hle, hwidth, hfits, hgreatest⟩ := ih
      refine ⟨hle.trans (Nat.le_succ K), hwidth, hfits, fun k hlt hk => ?_⟩
      rcases Nat.le_succ_iff.1 hk with hk | rfl
      · exact hgreatest k hlt hk
      · exact not_le.1 hwide

/-- The width formula of the document is one division. -/
theorem floor_stepWidth (srcH num den m k : ℕ) :
    ⌊(srcH : ℚ) * ((k : ℚ) / (m : ℚ)) * ((num : ℚ) / (den : ℚ))⌋ = (stepWidth srcH num den m k : ℤ) := by
  have hquot : (srcH : ℚ) * ((k : ℚ) / (m : ℚ)) * ((num : ℚ) / (den : ℚ))
      = ((srcH * k * num : ℕ) : ℚ) / ((m * den : ℕ) : ℚ) := by
    push_cast
    ring
  rw [hquot, Rat.floor_natCast_div_natCast, stepWidth, Int.natCast_div]

/-- The step counts whose factor fits the height are those up to the loop's start (46_placement.md R300). -/
theorem step_ratio_le_iff {k m outH srcH : ℕ} (hm : 1 ≤ m) (hh : 1 ≤ srcH) :
    (k : ℚ) / (m : ℚ) ≤ (outH : ℚ) / (srcH : ℚ) ↔ k ≤ outH * m / srcH := by
  rw [div_le_div_iff₀ (by positivity) (by positivity), Nat.le_div_iff_mul_le hh]
  norm_cast

/-- What the working registers of `PLACE.VSCALE` hold after the loop. -/
theorem vscaleRegs_greatest {r : HostRegs} {m : Nat} (hm : stepDen r.vscaleMode = m) :
    let v := vscaleRegs r
    let width := stepWidth r.srcH.toNat r.aspectNum.toNat r.aspectDen.toNat m
    v.k ≤ r.outH.toNat * m / r.srcH.toNat ∧ v.sw = width v.k ∧ v.sw ≤ r.outW.toNat ∧
      (∀ k, v.k < k → k ≤ r.outH.toNat * m / r.srcH.toNat → r.outW.toNat < width k) ∧ v.sh = r.srcH.toNat * v.k / m := by
  subst hm
  obtain ⟨hstart, hwidth, hfits, hgreatest⟩ := fitLoop_greatest r.srcH.toNat r.aspectNum.toNat r.aspectDen.toNat
    (stepDen r.vscaleMode) r.outW.toNat (r.outH.toNat * stepDen r.vscaleMode / r.srcH.toNat)
  exact ⟨hstart, hwidth, hfits, hgreatest, rfl⟩

/-- The step modes of 46_placement.md R300 are the legal ones. -/
theorem stepDen_eq {mode : Word} {m : Nat} (hm : (mode, m) ∈ [(1#32, 1), (2#32, 2), (3#32, 4)]) :
    stepDen mode = m ∧ 1 ≤ m ∧ mode.toNat ∈ [1, 2, 3] := by
  simp only [List.mem_cons, Prod.mk.injEq, List.not_mem_nil, or_false] at hm
  rcases hm with ⟨rfl, rfl⟩ | ⟨rfl, rfl⟩ | ⟨rfl, rfl⟩ <;> decide

/-- Settles O56: the loop finds the greatest step count that fits, and its divisions are the document's floors. -/
theorem placeSteppedScale : Obligations.PlaceSteppedScale := by
  intro s i m hi hmode hm hextents hh hnum hden srcH outW outH aspect width
  have hmode : s.csr.scaleMode.toNat = 2 := by rw [hmode]; rfl
  have hi : (i, 2) ∈ placementInstrs := by rcases hi with rfl | rfl <;> simp
  obtain ⟨hstepDen, hm, hstep⟩ := stepDen_eq hm
  have hneeds : ∀ c ∈ placementNeeds s 2, c.1 = true :=
    List.forall_mem_cons.2 ⟨(stepModeLegal_iff _).2 hstep,
      List.forall_mem_append.2 ⟨extentNeeds_pass hextents, vscaleNeeds_eq s ▸ divisorNeeds_pass (by simp [hh, hnum, hden])⟩⟩
  have hwidth (k : ℕ) : width k = stepWidth s.csr.srcH.toNat s.csr.aspectNum.toNat s.csr.aspectDen.toNat m k :=
    floor_stepWidth _ _ _ _ _
  obtain ⟨hstart, hsw, hfits, hgreatest, hsh⟩ := vscaleRegs_greatest hstepDen
  have hratio := (step_ratio_le_iff hm hh).2 hstart
  refine ⟨_, _, (vscaleRegs s.csr).k, exec_placement_completes hmode hi hneeds, withPlacement_completed s _, rfl, rfl, rfl,
    rfl, ?_⟩
  rw [placementResult, placeVscaleResult, hstepDen]
  obtain ⟨hpos, hcoprime, hreduced⟩ := centred_scale s.csr.outW.toNat s.csr.outH.toNat (vscaleRegs s.csr).sw
    (vscaleRegs s.csr).sh (vscaleRegs s.csr).k hm
  refine ⟨hpos, hcoprime, hreduced, hratio, ?_, Nat.cast_le.2 hfits, fun k hk hle => ?_, ?_, ?_, rfl, rfl⟩
  · rw [hwidth, ← hsw]; rfl
  · rw [hwidth, Int.cast_natCast]
    exact Nat.cast_lt.2 (hgreatest k hk ((step_ratio_le_iff hm hh).1 hle))
  · rw [floor_mul_natCast_div, ← hsh]; rfl
  · exact hsh.trans_le (scaled_le_of_ratio_le hh hm hratio)

end Sys2Proof.Machine
end

section
/-! `NOP` and `RUN` (47_pipeline.md R321, R330, R331). `RUN` has three groups of tests, each with one error; past them its stages
run one after the other, and none of them can fail or lose the frame. -/

namespace Sys2Proof.Machine

/-! ### NOP -/

/-- `NOP` as the dispatch runs it: the acknowledgement and nothing else. -/
theorem exec_nop (s : State) : exec .nop s = .next s.ack := rfl

/-- Settles O19: the first row of the code table, and an acknowledgement writes the status alone. -/
theorem nopAcknowledges : Obligations.NopAcknowledges :=
  ⟨fun _ => rfl, exec_nop⟩

/-! ### The tests of `RUN` -/

/-- A group of tests with one and the same error: either all of them pass, or that error is the command's. -/
theorem firstFailure_group {e : CmdError} {group : List (Bool × CmdError)} (he : ∀ c ∈ group, c.2 = e)
    (post : List (Bool × CmdError)) :
    firstFailure (group ++ post) = if ∀ c ∈ group, c.1 = true then firstFailure post else some e := by
  induction group with
  | nil => simp
  | cons c group ih =>
    obtain ⟨rfl, he⟩ := List.forall_mem_cons.1 he
    rw [List.cons_append, firstFailure, ih he]
    simp only [List.forall_mem_cons, ite_and]

/-- What `RUN` asks of the frame and of the destination extents (47_pipeline.md R331). -/
def runExtentNeeds (s : State) : List (Bool × CmdError) :=
  (s.wf.isSome, .notReady) :: testEach (fun v => decide (1 ≤ v.toNat)) .notReady [s.csr.dstW, s.csr.dstH]

/-- The limits of `RUN` (47_pipeline.md R331). -/
def runLimitNeeds (s : State) : List (Bool × CmdError) :=
  testEach (fun v => !exceeds s.lim.maxExtent v.toNat) .limitExceeded [s.csr.dstW, s.csr.dstH]

/-- The tables `RUN` needs: of the enabled stages and of the passes it does not skip (47_pipeline.md R331). -/
def runTableNeeds (s : State) : List (Bool × CmdError) :=
  [(!s.csr.gammaEn || s.tables.gamma.isSome, .notReady),
   (decide (s.wfW = s.csr.dstW.toNat) || s.tables.filtH.isSome, .notReady),
   (decide (s.wfH = s.csr.dstH.toNat) || s.tables.filtV.isSome, .notReady),
   (!s.csr.maskEn || s.tables.mask.isSome, .notReady)]

theorem runNeeds_eq (s : State) : runNeeds s = runExtentNeeds s ++ (runLimitNeeds s ++ (runTableNeeds s ++ [])) := rfl

/-- A test `n ≥ 1` fails at 0 alone. -/
theorem one_le_toNat_iff (v : Word) : 1 ≤ v.toNat ↔ v ≠ 0#32 := by
  simp [Nat.one_le_iff_ne_zero, BitVec.toNat_eq]

theorem runExtentNeeds_pass_iff (s : State) : (∀ c ∈ runExtentNeeds s, c.1 = true) ↔
    ¬ (s.wf = none ∨ s.csr.dstW = 0#32 ∨ s.csr.dstH = 0#32) := by
  simp [runExtentNeeds, testEach, one_le_toNat_iff, Option.isSome_iff_ne_none]

theorem runLimitNeeds_pass_iff (s : State) : (∀ c ∈ runLimitNeeds s, c.1 = true) ↔
    ¬ (exceeds s.lim.maxExtent s.csr.dstW.toNat = true ∨ exceeds s.lim.maxExtent s.csr.dstH.toNat = true) := by
  simp [runLimitNeeds, testEach]

/-- Some stage that is to run lacks its table. -/
abbrev State.lacksTable (s : State) : Prop :=
  (s.csr.ctrl.getLsbD 0 = true ∧ s.tables.gamma = none) ∨ (s.wfW ≠ s.csr.dstW.toNat ∧ s.tables.filtH = none) ∨
    (s.wfH ≠ s.csr.dstH.toNat ∧ s.tables.filtV = none) ∨ (s.csr.ctrl.getLsbD 1 = true ∧ s.tables.mask = none)

theorem runTableNeeds_pass_iff (s : State) : (∀ c ∈ runTableNeeds s, c.1 = true) ↔ ¬ s.lacksTable := by
  simp only [runTableNeeds, List.forall_mem_cons]
  simp [State.lacksTable, HostRegs.gammaEn, HostRegs.maskEn, Option.isSome_iff_ne_none, imp_iff_not_or]

/-! ### The stages of `RUN` -/

theorem stageGamma_wf_isSome (s : State) : (stageGamma s).wf.isSome = s.wf.isSome := by
  unfold stageGamma
  split
  next hframe _ => exact (congrArg Option.isSome hframe).symm
  next => rfl

theorem stageHresample_wf_isSome (s : State) : (stageHresample s).wf.isSome = s.wf.isSome := by
  unfold stageHresample
  split
  next => rfl
  next hframe =>
    split
    next => rfl
    next =>
      split
      next => rfl
      next => exact (congrArg Option.isSome hframe).symm

theorem stageVresample_wf_isSome (s : State) : (stageVresample s).wf.isSome = s.wf.isSome := by
  unfold stageVresample
  split
  next => rfl
  next hframe =>
    split
    next => rfl
    next =>
      split
      next => rfl
      next => exact (congrArg Option.isSome hframe).symm

theorem stageMask_wf_isSome (s : State) : (stageMask s).wf.isSome = s.wf.isSome := by
  unfold stageMask
  split
  next hframe _ _ => exact (congrArg Option.isSome hframe).symm
  next => rfl

/-- A stage neither makes a frame nor loses one: it replaces the frame that is there, or leaves it. -/
theorem doStage_wf_isSome (st : Stage) (s : State) : (doStage st s).wf.isSome = s.wf.isSome := by
  cases st with
  | idle => rfl
  | load => rfl
  | place => rfl
  | gamma => exact stageGamma_wf_isSome s
  | hresample => exact stageHresample_wf_isSome s
  | vresample => exact stageVresample_wf_isSome s
  | selpat => exact congrArg (·.wf.isSome) (stageSelpat_frame s)
  | mask => exact stageMask_wf_isSome s

theorem foldStages_wf_isSome (plan : List Stage) (s : State) :
    (plan.foldl (fun t st => doStage st t) s).wf.isSome = s.wf.isSome := by
  induction plan generalizing s with
  | nil => rfl
  | cons st plan ih => rw [List.foldl_cons, ih, doStage_wf_isSome]

/-- The stages together keep to what a command's body may change. -/
theorem runStages_bodyFrame (s : State) : BodyFrame s (runStages s) := by
  rw [runStages, foldStages_frame]
  exact ⟨rfl, rfl, rfl, rfl, rfl, rfl, rfl, rfl⟩

/-! ### The command -/

/-- `RUN` as the dispatch runs it. -/
theorem exec_run (s : State) : exec .run s = execRun s := rfl

theorem exec_run_refused {s : State} {e : CmdError} (hfails : firstFailure (runNeeds s) = some e) :
    exec .run s = .next (s.raise ⟨e, 0⟩) := by
  rw [exec_run, execRun]
  exact runCommand_refused hfails _

/-- A `RUN` that starts finishes (47_pipeline.md R331). -/
theorem exec_run_completes {s : State} (hneeds : firstFailure (runNeeds s) = none) :
    exec .run s = .next (runStages s).complete := by
  rw [exec_run, execRun]
  exact runCommand_ok s _ _ _ ((firstFailure_none _).1 hneeds) rfl

/-- The three groups of tests one after the other. -/
theorem firstFailure_runNeeds (s : State) : firstFailure (runNeeds s) =
    if ∀ c ∈ runExtentNeeds s, c.1 = true then
      if ∀ c ∈ runLimitNeeds s, c.1 = true then
        if ∀ c ∈ runTableNeeds s, c.1 = true then none else some .notReady
      else some .limitExceeded
    else some .notReady := by
  rw [runNeeds_eq, firstFailure_group (e := .notReady) (by simp [runExtentNeeds, testEach]),
    firstFailure_group (e := .limitExceeded) (by simp [runLimitNeeds, testEach]),
    firstFailure_group (e := .notReady) (by simp [runTableNeeds])]
  rfl

/-- Settles O59: each branch says which group of tests fails first; past them all the stages run and the frame stays. -/
theorem runRefusals : Obligations.RunRefusals := by
  intro s
  have hfirst := firstFailure_runNeeds s
  simp only [runExtentNeeds_pass_iff, runLimitNeeds_pass_iff, runTableNeeds_pass_iff] at hfirst
  split
  next hextent => exact exec_run_refused (hfirst.trans (if_neg (not_not_intro hextent)))
  next hextent =>
    rw [if_pos hextent] at hfirst
    split
    next hlimit => exact exec_run_refused (hfirst.trans (if_neg (not_not_intro hlimit)))
    next hlimit =>
      rw [if_pos hlimit] at hfirst
      split
      next htable => exact exec_run_refused (hfirst.trans (if_neg (not_not_intro htable)))
      next htable =>
        have hframe : (runStages s).wf.isSome = true :=
          (foldStages_wf_isSome _ s).trans (Option.isSome_iff_ne_none.2 fun hnone => hextent (.inl hnone))
        exact ⟨_, exec_run_completes (hfirst.trans (if_pos htable)), complete_completed s _ (runStages_bodyFrame s), hframe⟩

end Sys2Proof.Machine
end

section
/-! Taking an error (60_exceptions.md R364, R366). A command has three ends: `NOP` acknowledges, and any other command completes
or takes one error. Only the last leaves `STATUS.ERR` other than 0. -/

namespace Sys2Proof.Machine

/-! ### The commands as the dispatch runs them -/

/-- `MASK` as the dispatch runs it. -/
theorem exec_mask (s : State) : exec .mask s = execMask s := rfl

/-- `PLACE.FULL` as the dispatch runs it. -/
theorem exec_placeFull (s : State) : exec .placeFull s = fullPlacement s := rfl

/-- `PLACE.FIT` as the dispatch runs it. -/
theorem exec_placeFit (s : State) : exec .placeFit s = fitPlacement s := rfl

/-- `PLACE.VSCALE` as the dispatch runs it. -/
theorem exec_placeVscale (s : State) : exec .placeVscale s = vscalePlacement s := rfl

/-! ### The ends of a command -/

/-- The command takes an error, from the state it started in, or completes. -/
def RaisesOrCompletes (i : Instr) (s : State) : Prop :=
  (∃ e, exec i s = .next (s.raise e)) ∨ (∃ t : State, exec i s = .next t.complete)

/-- A command of tests and a body has these two ends. -/
theorem raisesOrCompletes_of_runCommand {i : Instr} {s : State} {needs : List (Bool × CmdError)}
    {body : State → Except Raise State} (hexec : exec i s = runCommand s needs body) : RaisesOrCompletes i s := by
  unfold RaisesOrCompletes
  rw [hexec]
  rcases runCommand_cases s needs body with ⟨e, -, hrefused⟩ | ⟨e, -, -, hraised⟩ | ⟨t, -, -, hcompleted⟩
  · exact .inl ⟨_, hrefused⟩
  · exact .inl ⟨e, hraised⟩
  · exact .inr ⟨t, hcompleted⟩

/-- `PLACE`: a command of tests and a body in a legal mode, refused in any other. -/
theorem raisesOrCompletes_place (s : State) : RaisesOrCompletes .place s := by
  rcases Nat.lt_or_ge 2 s.csr.scaleMode.toNat with hillegal | hlegal
  · exact .inl ⟨_, exec_place_illegal s hillegal⟩
  · exact raisesOrCompletes_of_runCommand (exec_place_legal s hlegal)

/-- Everything a command can answer. -/
theorem exec_command_ends {i : Instr} (hi : commandInstr i = true) (s : State) :
    exec i s = .next s.ack ∨ RaisesOrCompletes i s := by
  cases i with
  | nop => exact .inl (exec_nop s)
  | ldframe => exact .inr (raisesOrCompletes_of_runCommand (exec_ldframe s))
  | ldfiltH => exact .inr (raisesOrCompletes_of_runCommand (exec_ldfiltH s))
  | ldfiltV => exact .inr (raisesOrCompletes_of_runCommand (exec_ldfiltV s))
  | ldmask => exact .inr (raisesOrCompletes_of_runCommand (exec_ldmask s))
  | ldgamma => exact .inr (raisesOrCompletes_of_runCommand (exec_ldgamma s))
  | gamma => exact .inr (raisesOrCompletes_of_runCommand (exec_gamma s))
  | hresample => exact .inr (raisesOrCompletes_of_runCommand (exec_hresample s))
  | vresample => exact .inr (raisesOrCompletes_of_runCommand (exec_vresample s))
  | selpat => exact .inr (raisesOrCompletes_of_runCommand (exec_selpat s))
  | mask => exact .inr (raisesOrCompletes_of_runCommand (exec_mask s))
  | run => exact .inr (raisesOrCompletes_of_runCommand (exec_run s))
  | place => exact .inr (raisesOrCompletes_place s)
  | placeFull => exact .inr (raisesOrCompletes_of_runCommand (exec_placeFull s))
  | placeFit => exact .inr (raisesOrCompletes_of_runCommand (exec_placeFit s))
  | placeVscale => exact .inr (raisesOrCompletes_of_runCommand (exec_placeVscale s))
  | _ => exact absurd hi (by simp [commandInstr, Instr.format])

/-! ### The error a command ends with -/

/-- A command that leaves an error in `STATUS.ERR` has taken it. -/
theorem exec_command_raised {i : Instr} {s t : State} (hi : commandInstr i = true) (hexec : exec i s = .next t)
    (herr : t.status.err ≠ none) : ∃ e, t = s.raise e := by
  rcases exec_command_ends hi s with hack | ⟨e, hraised⟩ | ⟨u, hcompleted⟩
  · obtain rfl := Host.Outcome.next.inj (hexec.symm.trans hack)
    exact absurd (congrArg Status.err (State.ack_status s)) herr
  · exact ⟨e, Host.Outcome.next.inj (hexec.symm.trans hraised)⟩
  · obtain rfl := Host.Outcome.next.inj (hexec.symm.trans hcompleted)
    exact absurd (congrArg Status.err (State.complete_status u)) herr

/-- Settles O20: the fields are those `State.raise` writes, and of the ends of a command only an error leaves `ERR` set. -/
theorem errorEntry : Obligations.ErrorEntry := by
  refine ⟨fun _ _ => rfl, fun i s t hi hexec herr => ?_⟩
  obtain ⟨e, rfl⟩ := exec_command_raised hi hexec herr
  exact ⟨e.code, rfl, rfl⟩

end Sys2Proof.Machine
end

section
/-! Text lines and words read back (30_encoding.md R96 to R112). First how a stream is cut and trimmed; then one equation per kind
of line of each stream, about the trimmed text alone; then the encoder's words. -/

namespace Sys2Proof.Text

/-! ### Lines and trimming -/

/-- A text without a line terminator is one line (30_encoding.md R96). -/
theorem lines_unterminated {l : Text} (h : ∀ b ∈ l, b ≠ lf ∧ b ≠ cr) : lines l = [l] := by
  induction l with
  | nil => rfl
  | cons b l ih =>
    obtain ⟨⟨hlf, hcr⟩, hl⟩ := List.forall_mem_cons.1 h
    rw [lines, if_neg hlf, if_neg hcr, ih hl]

/-- What follows the first line's bytes is cut on its own, whatever ends the line. -/
theorem lines_append {l tail : Text} {rest : List Text} (h : ∀ b ∈ l, b ≠ lf ∧ b ≠ cr) (htail : lines tail = [] :: rest) :
    lines (l ++ tail) = l :: rest := by
  induction l with
  | nil => exact htail
  | cons b l ih =>
    obtain ⟨⟨hlf, hcr⟩, hl⟩ := List.forall_mem_cons.1 h
    rw [List.cons_append, lines, if_neg hlf, if_neg hcr, ih hl]

theorem lines_lf (rest : Text) : lines (lf :: rest) = [] :: lines rest := by
  rw [lines, if_pos rfl]

theorem lines_cr_lf (rest : Text) : lines (cr :: lf :: rest) = [] :: lines rest := by
  rw [lines, if_neg (by decide), if_pos rfl, List.head?_cons, if_pos rfl, lines_lf]

theorem lines_cr {rest : Text} (h : rest.head? ≠ some lf) : lines (cr :: rest) = [] :: lines rest := by
  rw [lines, if_neg (by decide), if_pos rfl, if_neg h]

/-- Settles O5: each terminator leaves an empty rest of the line in front of the lines after it. -/
theorem linesCutAtTerminators : Obligations.LinesCutAtTerminators := fun _ hl =>
  ⟨lines_unterminated hl, fun rest => lines_append hl (lines_lf rest), fun rest => lines_append hl (lines_cr_lf rest),
    fun _ hrest => lines_append hl (lines_cr hrest)⟩

/-- White space on both sides is dropped (30_encoding.md R98). -/
theorem trim_surrounded {pre post : Text} (t : Text) (hpre : ∀ b ∈ pre, b ∈ Machine.docSpaces)
    (hpost : ∀ b ∈ post, b ∈ Machine.docSpaces) : trim (pre ++ t ++ post) = trim t := by
  rw [trim_append_right _ fun b hb => (mem_docSpaces b).1 (hpost b hb),
    trim_append_left _ fun b hb => (mem_docSpaces b).1 (hpre b hb)]

/-- Trimming a trimmed text changes nothing. -/
@[simp] theorem trim_trim (t : Text) : trim (trim t) = trim t := by
  obtain ⟨pre, post, h, hpre, hpost⟩ := trim_split t
  conv_rhs => rw [h, trim_append_right _ hpost, trim_append_left _ hpre]

/-- A token is trimmed before it is read, so trimming it first makes no difference. -/
@[simp] theorem intToken_trim (t : Text) : intToken (trim t) = intToken t := by
  simp only [intToken, trim_trim]

@[simp] theorem cellToken_trim (t : Text) : cellToken (trim t) = cellToken t := by
  simp only [cellToken, trim_trim]

/-- The tokens of pieces joined by commas (30_encoding.md R100). -/
theorem map_splitCommas_joinCommas {α : Type} {read : Text → Token α} (htrim : ∀ t, read (trim t) = read t)
    {pieces : List Text} (hne : pieces ≠ []) (hcomma : ∀ p ∈ pieces, comma ∉ p) :
    (splitCommas (joinCommas pieces)).map read = pieces.map read := by
  rw [splitCommas, cutCommas_joinCommas hne hcomma, List.map_map]
  exact List.map_congr_left fun p _ => htrim p

end Sys2Proof.Text

namespace Sys2Proof.Machine

/-- A line's kind depends on its trimmed text alone. -/
theorem decode_line_congr {f : Format} (hf : f = .fltLine ∨ f = .mskLine ∨ f = .gamLine) (c : Ctx) {line line' : Text}
    (h : Text.trim line = Text.trim line') : decode f c line = decode f c line' := by
  rcases hf with rfl | rfl | rfl
  · simp only [decode, decodeFlt, h]
  · simp only [decode, decodeMsk, h]
  · simp only [decode, decodeGam, h]

/-- Settles O6: the trimmed text of the line is the same. -/
theorem trimmingIsIgnored : Obligations.TrimmingIsIgnored := fun _ c _ line _ hf hpre hpost =>
  decode_line_congr hf c (Text.trim_surrounded line hpre hpost)

/-! ### Filter lines (30_encoding.md R101) -/

theorem decodeFlt_blank (nb : Nat) {line : Text} (h : Text.trim line = []) : decodeFlt nb line = .fltBlank := by
  simp only [decodeFlt, h]

theorem decodeFlt_10bit {nb : Nat} (hnb : nb < 5) {line : Text} (h : Text.trim line = Text.tok10bit) :
    decodeFlt nb line = .flt10bit := by
  have hnb' : nb + 1 ≤ 5 := hnb
  simp [decodeFlt, h, Text.tok10bit, hnb']

theorem decodeFlt_adaptive {nb : Nat} (hnb : nb < 5) {line : Text} (h : Text.trim line = Text.tokAdaptive) :
    decodeFlt nb line = .fltAdaptive := by
  have hnb' : nb + 1 ≤ 5 := hnb
  simp [decodeFlt, h, Text.tok10bit, Text.tokAdaptive, hnb']

theorem decodeFlt_comment (nb : Nat) {line rest : Text} (h : Text.trim line = Text.hash :: rest) :
    decodeFlt nb line = .fltComment rest := by
  simp [decodeFlt, h, Text.tok10bit, Text.tokAdaptive, Text.hash]

theorem decodeFlt_row {nb : Nat} {line : Text} (hblank : Text.trim line ≠ []) (h10 : ¬ (nb < 5 ∧ Text.trim line = Text.tok10bit))
    (had : ¬ (nb < 5 ∧ Text.trim line = Text.tokAdaptive)) (hcomment : (Text.trim line).head? ≠ some Text.hash) :
    decodeFlt nb line = .fltRow ((Text.splitCommas (Text.trim line)).map Text.intToken) := by
  rw [decodeFlt]
  cases htrim : Text.trim line with
  | nil => exact absurd htrim hblank
  | cons b rest =>
    rw [htrim] at h10 had hcomment
    have hb : b ≠ Text.hash := fun h => hcomment (congrArg some h)
    exact (if_neg h10).trans ((if_neg had).trans (if_neg hb))

/-! ### Mask lines (30_encoding.md R108, 41_mask_loader.md R172) -/

theorem decodeMsk_blank (st : MaskState) {line : Text} (h : Text.trim line = []) : decodeMsk st line = .ok .mskBlank := by
  simp only [decodeMsk, h]

theorem decodeMsk_comment (st : MaskState) {line rest : Text} (h : Text.trim line = Text.hash :: rest) :
    decodeMsk st line = .ok (.mskComment rest) := by
  simp [decodeMsk, h]

theorem decodeMsk_res (st : MaskState) {line rest : Text} (h : Text.trim line = Text.tokResolution ++ rest) :
    decodeMsk st line = .ok (.mskRes (Text.intToken rest)) := by
  simp [decodeMsk, h, Text.tokResolution, Text.hash]

/-- Past comments and `Resolution=` lines the parser's state decides. -/
theorem decodeMsk_data (st : MaskState) {line : Text} (hblank : Text.trim line ≠ [])
    (hcomment : (Text.trim line).head? ≠ some Text.hash) (hres : ¬ Text.tokResolution <+: Text.trim line) :
    decodeMsk st line =
      if st = .done then .error .strayMaskLine
      else if st = .rows then .ok (.mskRow ((Text.splitCommas (Text.trim line)).map Text.cellToken))
      else if Text.trim line = Text.tokV2 then .ok .mskV2
      else .ok (.mskDims ((Text.splitCommas (Text.trim line)).map Text.intToken)) := by
  rw [decodeMsk]
  cases htrim : Text.trim line with
  | nil => exact absurd htrim hblank
  | cons b rest =>
    rw [htrim] at hcomment hres
    have hb : b ≠ Text.hash := fun h => hcomment (congrArg some h)
    have htake : (b :: rest).take 11 ≠ Text.tokResolution := fun h => hres (h ▸ List.take_prefix 11 (b :: rest))
    simp only [if_neg hb, if_neg htake]
    cases st <;> rfl

/-! ### Gamma lines (30_encoding.md R110) -/

theorem decodeGam_blank {line : Text} (h : Text.trim line = []) : decodeGam line = .gamBlank := by
  simp only [decodeGam, h]

theorem decodeGam_comment {line rest : Text} (h : Text.trim line = Text.hash :: rest) : decodeGam line = .gamComment rest := by
  simp [decodeGam, h]

/-- A data line is a three-channel line exactly where it has a comma. -/
theorem decodeGam_data {line : Text} (hblank : Text.trim line ≠ []) (hcomment : (Text.trim line).head? ≠ some Text.hash) :
    decodeGam line =
      if Text.comma ∈ Text.trim line then .gamRgb ((Text.splitCommas (Text.trim line)).map Text.intToken)
      else .gamMono (Text.intToken (Text.trim line)) := by
  rw [decodeGam]
  cases htrim : Text.trim line with
  | nil => exact absurd htrim hblank
  | cons b rest =>
    rw [htrim] at hcomment
    have hb : b ≠ Text.hash := fun h => hcomment (congrArg some h)
    simp only [if_neg hb]

/-! ### The grammar -/

/-- Tokens read one by one as the grammar says. -/
theorem forall₂_readAs {α : Type} {G : Text → α → Prop} {read : Text → Token α} (h : ∀ p, ReadAs G p (read p))
    (pieces : List Text) : List.Forall₂ (ReadAs G) pieces (pieces.map read) := by
  rw [List.forall₂_map_right_iff]
  exact List.forall₂_same.2 fun p _ => h p

/-- A text that starts with `b` is `b` and its tail. -/
theorem eq_cons_tail_of_head? {t : Text} {b : Byte} (h : t.head? = some b) : t = b :: t.tail :=
  (List.cons_head?_tail h).symm

/-- Settles O60: the line's trimmed text is `t`, so each branch is one equation of the decoder, and its tokens are those of the
pieces. -/
theorem linesAndTokens : Obligations.LinesAndTokens := by
  intro c pre t post pieces hpre hpost hhead hlast hne hcomma ht line resolution
  have hends : ∀ b, b ∉ docSpaces → Text.isSpace b = false := fun b hb =>
    Bool.eq_false_of_not_eq_true fun h => hb ((Text.mem_docSpaces b).2 h)
  have htrim : Text.trim line = t :=
    (Text.trim_eq_iff t (fun b hb => hends b (hhead b hb)) fun b hb => hends b (hlast b hb)).2 ⟨pre, post, hpre, hpost, rfl⟩
  have hints : List.Forall₂ (ReadAs DocIntToken) pieces ((Text.splitCommas t).map Text.intToken) := by
    rw [ht, Text.map_splitCommas_joinCommas Text.intToken_trim hne hcomma]
    exact forall₂_readAs Text.intToken_readAs pieces
  have hcells : List.Forall₂ (ReadAs DocCellToken) pieces ((Text.splitCommas t).map Text.cellToken) := by
    rw [ht, Text.map_splitCommas_joinCommas Text.cellToken_trim hne hcomma]
    exact forall₂_readAs Text.cellToken_readAs pieces
  clear_value line
  clear hhead hlast hne hcomma ht
  subst htrim
  refine ⟨?_, ?_, ?_⟩
  · have hflt : decode .fltLine c line = .ok (decodeFlt c.nb line) := rfl
    rw [hflt]
    split
    next hblank => rw [decodeFlt_blank c.nb hblank]
    next hblank =>
      split
      next h10 => rw [decodeFlt_10bit h10.1 h10.2]
      next h10 =>
        split
        next had => rw [decodeFlt_adaptive had.1 had.2]
        next had =>
          split
          next hcomment => rw [decodeFlt_comment c.nb (eq_cons_tail_of_head? hcomment)]
          next hcomment => exact ⟨_, congrArg Except.ok (decodeFlt_row hblank h10 had hcomment), hints⟩
  · have hmsk : decode .mskLine c line = decodeMsk c.maskState line := rfl
    rw [hmsk]
    split
    next hblank => rw [decodeMsk_blank _ hblank]
    next hblank =>
      split
      next hcomment => rw [decodeMsk_comment _ (eq_cons_tail_of_head? hcomment)]
      next hcomment =>
        split
        next hres =>
          obtain ⟨rest, hrest⟩ := hres
          have hdrop : (Text.trim line).drop 11 = rest := by rw [← hrest]; rfl
          exact ⟨_, decodeMsk_res _ hrest.symm, hdrop ▸ Text.intToken_readAs rest⟩
        next hres =>
          rw [decodeMsk_data _ hblank hcomment hres]
          split
          next => rfl
          next =>
            split
            next => exact ⟨_, rfl, hcells⟩
            next =>
              split
              next hv2 => exact if_pos hv2
              next hv2 => exact ⟨_, if_neg hv2, hints⟩
  · have hgam : decode .gamLine c line = .ok (decodeGam line) := rfl
    rw [hgam]
    split
    next hblank => rw [decodeGam_blank hblank]
    next hblank =>
      split
      next hcomment => rw [decodeGam_comment (eq_cons_tail_of_head? hcomment)]
      next hcomment =>
        rw [decodeGam_data hblank hcomment]
        split
        next hcomma => exact ⟨_, congrArg Except.ok (if_pos hcomma), hints⟩
        next hcomma => exact ⟨_, congrArg Except.ok (if_neg hcomma), Text.intToken_readAs _⟩

end Sys2Proof.Machine
end

section
/-! Decoding an encoded instruction (30_encoding.md R94 to R112). A line that was written has no white space at its ends and begins
with a byte of its own kind; a word is its bytes in order. -/

namespace Sys2Proof.Text

/-! ### The text of a line that was written -/

/-- The bytes integers are written with, commas between them. -/
def isIntByte (b : Byte) : Bool :=
  b == comma || b == minus || isDigit b

/-- Such a byte is no white space and begins no comment, and neither a mode token nor a marker consists of such bytes. -/
theorem isIntByte_facts {b : Byte} (h : isIntByte b = true) :
    isSpace b = false ∧ b ≠ hash ∧ b ≠ 0x52#8 ∧ b ≠ 0x61#8 ∧ b ≠ 0x62#8 ∧ b ≠ 0x76#8 := by
  revert b; decide

theorem isIntByte_of_mem_intText {v : Int} {b : Byte} (h : b ∈ intText v) : isIntByte b = true := by
  rcases mem_intText h with rfl | hdigit
  · rfl
  · simp [isIntByte, hdigit]

theorem isIntByte_of_mem_ints {vs : List Int} {b : Byte} (h : b ∈ joinCommas (vs.map intText)) : isIntByte b = true := by
  rcases mem_ints h with rfl | rfl | hdigit
  · rfl
  · rfl
  · simp [isIntByte, hdigit]

/-- A line of cells begins neither as a comment nor as a `Resolution=` line, and has no white space. -/
theorem mem_cells_facts {cs : List CellWord} {b : Byte} (h : b ∈ joinCommas (cs.map cellText)) :
    isSpace b = false ∧ b ≠ hash ∧ b ≠ 0x52#8 := by
  rcases mem_cells h with rfl | ⟨d, hd, rfl⟩
  · decide
  · obtain ⟨-, hspace, -, hhash, -, -, hR⟩ := hexText_facts d hd
    exact ⟨hspace, hhash, hR⟩

theorem joinCommas_ne_nil {ts : List Text} (hne : ts ≠ []) (h : ∀ t ∈ ts, t ≠ []) : joinCommas ts ≠ [] := by
  match ts with
  | [] => exact absurd rfl hne
  | [t] => exact h t (by simp)
  | t :: u :: us => simp [joinCommas]

theorem ints_ne_nil {vs : List Int} (h : vs ≠ []) : joinCommas (vs.map intText) ≠ [] :=
  joinCommas_ne_nil (by simpa using h) (by simpa using fun v _ => intText_ne_nil v)

theorem cells_ne_nil {cs : List CellWord} (h : cs ≠ []) : joinCommas (cs.map cellText) ≠ [] :=
  joinCommas_ne_nil (by simpa using h) (by simp [cellText])

/-- Two or more pieces have a comma between them. -/
theorem comma_mem_joinCommas {ts : List Text} (h : 2 ≤ ts.length) : comma ∈ joinCommas ts := by
  match ts with
  | t :: u :: us => simp [joinCommas]

/-- A text whose first byte is another one is not headed by `b`. -/
theorem head?_ne_of_forall {t : Text} {b : Byte} (h : ∀ x ∈ t, x ≠ b) : t.head? ≠ some b :=
  fun hb => h b (List.mem_of_mem_head? hb) rfl

theorem not_resolution_prefix {t : Text} (h : ∀ x ∈ t, x ≠ 0x52#8) : ¬ tokResolution <+: t :=
  fun hp => h 0x52#8 (hp.subset (by decide)) rfl

/-- A text with a byte of another kind is not `t`. -/
theorem ne_of_mem {t u : Text} {b : Byte} (h : ∀ x ∈ t, x ≠ b) (hb : b ∈ u) : t ≠ u :=
  fun e => h b (e ▸ hb) rfl

/-- A trimmed comment keeps its text (30_encoding.md R98). -/
theorem trim_comment {t : Text} (h : commentWf t = true) : trim (hash :: t) = hash :: t := by
  obtain ⟨-, hlast⟩ := Bool.and_eq_true_iff.1 h
  refine trim_of_ends (by simp [hash, isSpace, cr, lf]) fun b hb => ?_
  cases htail : t.getLast? with
  | none =>
    rw [List.getLast?_eq_none_iff.1 htail] at hb
    obtain rfl := Option.some.inj hb
    rfl
  | some b' =>
    rw [List.getLast?_cons, htail] at hb
    obtain rfl := Option.some.inj hb
    simpa [htail] using hlast

end Sys2Proof.Text

namespace Sys2Proof.Machine

/-! ### Lines written and read -/

/-- Ints written as a line are read back as these ints: the trimmed text, and what it is not. -/
theorem decodeFlt_ints (nb : Nat) {vs : List Int} (hvs : vs ≠ []) :
    decodeFlt nb (Text.joinCommas (vs.map Text.intText)) = .fltRow (vs.map some) := by
  have hbytes : ∀ b ∈ Text.joinCommas (vs.map Text.intText), Text.isIntByte b = true := fun _ => Text.isIntByte_of_mem_ints
  have htrim := Text.trim_of_noSpace fun b hb => (Text.isIntByte_facts (hbytes b hb)).1
  rw [decodeFlt_row, htrim, Text.splitCommas_ints hvs] <;> rw [htrim]
  · exact Text.ints_ne_nil hvs
  · exact fun h => Text.ne_of_mem (b := 0x62#8) (fun b hb => (Text.isIntByte_facts (hbytes b hb)).2.2.2.2.1) (by decide) h.2
  · exact fun h => Text.ne_of_mem (b := 0x61#8) (fun b hb => (Text.isIntByte_facts (hbytes b hb)).2.2.2.1) (by decide) h.2
  · exact Text.head?_ne_of_forall fun b hb => (Text.isIntByte_facts (hbytes b hb)).2.1

theorem decodeMsk_ints {vs : List Int} (hvs : vs ≠ []) :
    decodeMsk .dims (Text.joinCommas (vs.map Text.intText)) = .ok (.mskDims (vs.map some)) := by
  have hbytes : ∀ b ∈ Text.joinCommas (vs.map Text.intText), Text.isIntByte b = true := fun _ => Text.isIntByte_of_mem_ints
  have htrim := Text.trim_of_noSpace fun b hb => (Text.isIntByte_facts (hbytes b hb)).1
  have hv2 : Text.joinCommas (vs.map Text.intText) ≠ Text.tokV2 :=
    Text.ne_of_mem (b := 0x76#8) (fun b hb => (Text.isIntByte_facts (hbytes b hb)).2.2.2.2.2) (by decide)
  rw [decodeMsk_data, htrim, Text.splitCommas_ints hvs, if_neg (by decide), if_neg (by decide), if_neg hv2] <;> rw [htrim]
  · exact Text.ints_ne_nil hvs
  · exact Text.head?_ne_of_forall fun b hb => (Text.isIntByte_facts (hbytes b hb)).2.1
  · exact Text.not_resolution_prefix fun b hb => (Text.isIntByte_facts (hbytes b hb)).2.2.1

theorem decodeMsk_cells {cs : List CellWord} (hcs : cs ≠ []) :
    decodeMsk .rows (Text.joinCommas (cs.map Text.cellText)) = .ok (.mskRow (cs.map some)) := by
  have hbytes : ∀ b ∈ Text.joinCommas (cs.map Text.cellText), _ := fun _ => Text.mem_cells_facts
  have htrim := Text.trim_of_noSpace fun b hb => (hbytes b hb).1
  rw [decodeMsk_data, htrim, Text.splitCommas_cells hcs, if_neg (by decide), if_pos rfl] <;> rw [htrim]
  · exact Text.cells_ne_nil hcs
  · exact Text.head?_ne_of_forall fun b hb => (hbytes b hb).2.1
  · exact Text.not_resolution_prefix fun b hb => (hbytes b hb).2.2

theorem decodeMsk_resolution (st : MaskState) (v : Int) :
    decodeMsk st (Text.tokResolution ++ Text.intText v) = .ok (.mskRes (some v)) := by
  have hmark : ∀ b ∈ Text.tokResolution, Text.isSpace b = false := by decide
  have hspace : ∀ b ∈ Text.tokResolution ++ Text.intText v, Text.isSpace b = false := by
    intro b hb
    rcases List.mem_append.1 hb with hb | hb
    · exact hmark b hb
    · exact Text.intText_noSpace v b hb
  rw [decodeMsk_res st (Text.trim_of_noSpace hspace), Text.intToken_intText]

theorem decodeGam_ints {vs : List Int} (hvs : 2 ≤ vs.length) :
    decodeGam (Text.joinCommas (vs.map Text.intText)) = .gamRgb (vs.map some) := by
  have hne : vs ≠ [] := by rintro rfl; simp at hvs
  have hbytes : ∀ b ∈ Text.joinCommas (vs.map Text.intText), Text.isIntByte b = true := fun _ => Text.isIntByte_of_mem_ints
  have htrim := Text.trim_of_noSpace fun b hb => (Text.isIntByte_facts (hbytes b hb)).1
  have hcomma : Text.comma ∈ Text.joinCommas (vs.map Text.intText) := Text.comma_mem_joinCommas (by simpa using hvs)
  rw [decodeGam_data, htrim, if_pos hcomma, Text.splitCommas_ints hne] <;> rw [htrim]
  · exact Text.ints_ne_nil hne
  · exact Text.head?_ne_of_forall fun b hb => (Text.isIntByte_facts (hbytes b hb)).2.1

theorem decodeGam_int (v : Int) : decodeGam (Text.intText v) = .gamMono (some v) := by
  have htrim := Text.trim_of_noSpace (Text.intText_noSpace v)
  rw [decodeGam_data, htrim, if_neg (Text.intText_noComma v), Text.intToken_intText] <;> rw [htrim]
  · exact Text.intText_ne_nil v
  · exact Text.head?_ne_of_forall fun b hb => (Text.isIntByte_facts (Text.isIntByte_of_mem_intText hb)).2.1

/-! ### Words written and read -/

/-- The bytes of a number that fits them are that number (log 11). -/
theorem leNat_leBytes (k n : Nat) (h : n < 256 ^ k) : leNat (leBytes k n) = n := by
  induction k generalizing n with
  | zero => rw [leBytes, leNat]; omega
  | succ k ih =>
    rw [leBytes, leNat, ih (n / 256) (by rw [pow_succ] at h; omega), BitVec.toNat_ofNat]
    omega

theorem leBytes_length (k n : Nat) : (leBytes k n).length = k := by
  induction k generalizing n with
  | zero => rfl
  | succ k ih => rw [leBytes, List.length_cons, ih]

theorem decodeCell_leBytes (cw : CellWord) : decodeCell (leBytes 2 cw.toNat) = .ok (.mskCell cw) := by
  have hlt : cw.toNat < 2048 := cw.isLt
  have hnat : leNat (leBytes 2 cw.toNat) = cw.toNat := leNat_leBytes 2 _ (by omega)
  rw [decodeCell, if_pos (leBytes_length 2 _), hnat, if_pos hlt, BitVec.ofNat_toNat, BitVec.setWidth_eq]

theorem decodeCoef_leBytes (v : Coef) : decodeCoef (leBytes 4 v.toNat) = .ok (.coef32 v) := by
  have hlt : v.toNat < 4294967296 := v.isLt
  have hnat : leNat (leBytes 4 v.toNat) = v.toNat := leNat_leBytes 4 _ (by omega)
  rw [decodeCoef, if_pos (leBytes_length 4 _), hnat, BitVec.ofNat_toNat, BitVec.setWidth_eq]

/-! ### Every instruction -/

/-- Settles O1: one case per constructor, each by the decoder's equation for what the encoder writes. -/
theorem decodeOfEncode : Obligations.DecodeOfEncode := by
  intro i c hwf hctx
  cases i with
  | nop => rfl
  | ldframe => rfl
  | ldfiltH => rfl
  | ldfiltV => rfl
  | ldmask => rfl
  | ldgamma => rfl
  | gamma => rfl
  | hresample => rfl
  | vresample => rfl
  | selpat => rfl
  | mask => rfl
  | run => rfl
  | place => rfl
  | placeFull =>
    have hmode : c.scaleMode = 0#32 := of_decide_eq_true hctx
    simp [decode, encode, Instr.format, decodeCmdReg, placeVariant, hmode]
  | placeFit =>
    have hmode : c.scaleMode = 1#32 := of_decide_eq_true hctx
    simp [decode, encode, Instr.format, decodeCmdReg, placeVariant, hmode]
  | placeVscale =>
    obtain ⟨hmode, hstep⟩ : c.scaleMode = 2#32 ∧ (c.vscaleMode = 1#32 ∨ c.vscaleMode = 2#32 ∨ c.vscaleMode = 3#32) := by
      simpa [Instr.admittedIn] using hctx
    simp [decode, encode, Instr.format, decodeCmdReg, placeVariant, hmode, hstep]
  | fltBlank => exact congrArg Except.ok (decodeFlt_blank c.nb rfl)
  | flt10bit => exact congrArg Except.ok (decodeFlt_10bit (of_decide_eq_true hctx) (by decide))
  | fltAdaptive => exact congrArg Except.ok (decodeFlt_adaptive (of_decide_eq_true hctx) (by decide))
  | fltComment t => exact congrArg Except.ok (decodeFlt_comment c.nb (Text.trim_comment hwf))
  | fltRow toks =>
    obtain ⟨hlen, hfit⟩ := Bool.and_eq_true_iff.1 hwf
    obtain ⟨vs, rfl⟩ := Laws.legal_values (Laws.legal_of_any hfit)
    have hvs : vs ≠ [] := by rintro rfl; simp at hlen
    rw [encode, Laws.tokens_text]
    exact congrArg Except.ok (decodeFlt_ints c.nb hvs)
  | mskBlank => exact decodeMsk_blank c.maskState (line := []) rfl
  | mskComment t => exact decodeMsk_comment c.maskState (Text.trim_comment hwf)
  | mskRes tok =>
    obtain ⟨v, rfl⟩ : ∃ v, tok = some v := Option.isSome_iff_exists.1 (Option.isSome_of_any hwf)
    exact decodeMsk_resolution c.maskState v
  | mskV2 =>
    have hstate : c.maskState = .dims := of_decide_eq_true hctx
    rw [Instr.format, decode, hstate]
    decide
  | mskDims toks =>
    have hstate : c.maskState = .dims := of_decide_eq_true hctx
    obtain ⟨hlen, hpos⟩ := Bool.and_eq_true_iff.1 hwf
    obtain ⟨vs, rfl⟩ := Laws.legal_values (Laws.legal_of_any hpos)
    have hvs : vs ≠ [] := by rintro rfl; simp at hlen
    rw [encode, Laws.tokens_text, Instr.format, decode, hstate]
    exact decodeMsk_ints hvs
  | mskRow toks =>
    have hstate : c.maskState = .rows := of_decide_eq_true hctx
    obtain ⟨hne, hlegal⟩ := Bool.and_eq_true_iff.1 hwf
    obtain ⟨cs, rfl⟩ := Laws.legal_values hlegal
    have hcs : cs ≠ [] := by rintro rfl; simp at hne
    rw [encode, Laws.tokens_text, Instr.format, decode, hstate]
    exact decodeMsk_cells hcs
  | mskCell cw => exact decodeCell_leBytes cw
  | gamBlank => exact congrArg Except.ok (decodeGam_blank rfl)
  | gamComment t => exact congrArg Except.ok (decodeGam_comment (Text.trim_comment hwf))
  | gamRgb toks =>
    obtain ⟨hlen, hlegal⟩ := Bool.and_eq_true_iff.1 hwf
    obtain ⟨vs, rfl⟩ := Laws.legal_values hlegal
    have hvs : vs.length = 3 := by simpa using hlen
    rw [encode, Laws.tokens_text]
    exact congrArg Except.ok (decodeGam_ints (by omega))
  | gamMono tok =>
    obtain ⟨v, rfl⟩ := Option.isSome_iff_exists.1 hwf
    exact congrArg Except.ok (decodeGam_int v)
  | coef32 v => exact decodeCoef_leBytes v
  | gam8 v => rfl
  | pix32 p => rfl

/-- Settles O2: each word is an evaluation of the decoder. -/
theorem wordsWrittenOut : Obligations.WordsWrittenOut := by
  unfold Obligations.WordsWrittenOut
  decide

end Sys2Proof.Machine
end

section
/-! The host's side of the block (10_state.md R26, R33, R40, R42, R43): what a step does with the next entry of the feed, the register
file as it is written and read, the ports, and platform reset. -/

namespace Sys2Proof.Machine

/-! ### The step -/

/-- Settles O8: an empty feed has no next entry. -/
theorem idleStepHolds : Obligations.IdleStepHolds := step_idle

/-- Only the low 8 bits of a command word are looked at (30_encoding.md R93). -/
theorem State.issue_congr (s : State) {v v' : Word} (h : v.toNat % 256 = v'.toNat % 256) : s.issue v = s.issue v' := by
  have hcode : v.setWidth 8 = v'.setWidth 8 := BitVec.eq_of_toNat_eq (by simpa only [BitVec.toNat_setWidth] using h)
  rw [State.issue, State.issue, hcode]

/-- Settles O4: both steps issue their word in the same state. -/
theorem commandWordHighBits : Obligations.CommandWordHighBits := by
  intro s v v' rest h
  rw [step_cons _ _ _ rfl, step_cons _ _ _ rfl, fetch_writeCmd, fetch_writeCmd, State.issue_congr _ h]

theorem State.issue_ok {s : State} {v : Word} {i : Instr} (h : decode .cmd8 s.ctx [v.setWidth 8] = .ok i) :
    s.issue v = .instr i s := by
  rw [State.issue, h]

theorem State.unitMove_ok {s : State} {f : Format} {bytes : List Byte} {i : Instr}
    (h : decode f (s.unitStart f).ctx bytes = .ok i) : s.unitMove f bytes = .instr i (s.unitStart f) := by
  rw [State.unitMove, h]

/-- The feed is no part of what decoding depends on, so taking an entry off it changes no decoding. -/
theorem step_unit_ok {s : State} {f : Format} {bytes : List Byte} {rest : List FeedItem} {i : Instr}
    (hfeed : s.feed = .unit f bytes :: rest) (h : decode f (s.unitStart f).ctx bytes = .ok i) :
    step s = exec i (({ s with feed := rest } : State).unitStart f) := by
  have hctx : (({ s with feed := rest } : State).unitStart f).ctx = (s.unitStart f).ctx := by cases f <;> rfl
  rw [step_cons s _ rest hfeed, State.fetch, State.unitMove_ok (hctx ▸ h)]

/-- A line moves the line number on (30_encoding.md R97). -/
theorem State.unitStart_line (s : State) {f : Format} (hf : f = .fltLine ∨ f = .mskLine ∨ f = .gamLine) :
    s.unitStart f = { s with ld := nextLine s.ld } := by
  rcases hf with rfl | rfl | rfl <;> rfl

theorem State.unitStart_word (s : State) {f : Format} (hflt : f ≠ .fltLine) (hmsk : f ≠ .mskLine) (hgam : f ≠ .gamLine) :
    s.unitStart f = s := by
  cases f with
  | fltLine => exact absurd rfl hflt
  | mskLine => exact absurd rfl hmsk
  | gamLine => exact absurd rfl hgam
  | _ => rfl

/-- Settles O7: the fetch of an entry that decodes is its instruction, in the state the entry starts from. -/
theorem stepRunsTheDecodedInstruction : Obligations.StepRunsTheDecodedInstruction := by
  refine ⟨fun s v rest i hfeed hdecode => ?_, fun s f bytes rest i hfeed hf hdecode => ?_,
    fun s f bytes rest i hfeed hflt hmsk hgam hdecode => ?_⟩
  · have hissue : ({ s with feed := rest } : State).issue v = .instr i { s with feed := rest } := State.issue_ok hdecode
    rw [step_cons s _ rest hfeed, fetch_writeCmd, hissue]
  · rw [step_unit_ok hfeed (by rw [s.unitStart_line hf]; exact hdecode), State.unitStart_line _ hf]
    rfl
  · rw [step_unit_ok hfeed (by rw [s.unitStart_word hflt hmsk hgam]; exact hdecode), State.unitStart_word _ hflt hmsk hgam]

/-- A move that is done with the fetch. -/
theorem step_done {s t : State} {m : HostMove} {rest : List FeedItem} (hfeed : s.feed = .host m :: rest)
    (hmove : ({ s with feed := rest } : State).hostMove m = .done t) : step s = .next t := by
  rw [step_cons s _ rest hfeed, State.fetch, hmove]

/-! ### The register file -/

/-- What the RW registers read (10_state.md R26); `regRead_rw` ties it to the host's read. -/
def HostRegs.view (r : HostRegs) (n : Nat) : Word :=
  match n with
  | 0x03 => r.ctrl.setWidth 32
  | 0x04 => r.dstW
  | 0x05 => r.dstH
  | 0x06 => r.outW
  | 0x07 => r.outH
  | 0x08 => r.scaleMode
  | 0x09 => r.vscaleMode
  | 0x0A => r.aspectNum
  | 0x0B => r.aspectDen
  | 0x0C => r.srcW
  | 0x0D => r.srcH
  | 0x0E => r.txtLen
  | 0x0F => r.frmW
  | 0x10 => r.frmH
  | _ => 0

/-- A register the host may write. -/
abbrev isRwReg (n : Nat) : Prop := 3 ≤ n ∧ n ≤ 0x10

theorem regRead_rw (s : State) {n : Nat} (h : isRwReg n) : s.regRead n = s.csr.view n := by
  obtain ⟨hlo, hhi⟩ := h
  interval_cases n <;> rfl

/-- `CMD` and the reserved numbers read 0 (10_state.md R26). -/
theorem regRead_reserved (s : State) {n : Nat} (h : n = 0 ∨ 0x20 < n) : s.regRead n = 0#32 := by
  rcases h with rfl | habove
  · rfl
  · obtain ⟨k, rfl⟩ := Nat.exists_eq_add_of_le' habove
    rfl

/-- The other registers do not depend on the RW registers. -/
theorem regRead_other (s : State) (r : HostRegs) {n : Nat} (h : ¬ isRwReg n) :
    ({ s with csr := r } : State).regRead n = s.regRead n := by
  rcases Nat.lt_or_ge n 3 with hlow | hhigh
  · interval_cases n <;> rfl
  · have hrw : 0x10 < n := by_contra fun hle => h ⟨hhigh, Nat.le_of_not_lt hle⟩
    rcases Nat.lt_or_ge 0x20 n with habove | hro
    · rw [regRead_reserved _ (.inr habove), regRead_reserved _ (.inr habove)]
    · interval_cases n <;> rfl

/-- A read-only or reserved number ignores the write (10_state.md R33). -/
theorem HostRegs.write_other (r : HostRegs) {n : Nat} (v : Word) (h : ¬ isRwReg n) : r.write n v = r := by
  rcases Nat.lt_or_ge n 3 with hlow | hhigh
  · interval_cases n <;> rfl
  · obtain ⟨k, rfl⟩ := Nat.exists_eq_add_of_le' (show 0x11 ≤ n from by_contra fun hlt => h ⟨hhigh, by omega⟩)
    rfl

theorem HostRegs.view_write_same (r : HostRegs) {n : Nat} (v : Word) (hlo : 4 ≤ n) (hhi : n ≤ 0x10) :
    (r.write n v).view n = v := by
  interval_cases n <;> rfl

/-- Writing one register leaves what the others read. -/
theorem HostRegs.view_write_ne (r : HostRegs) {n m : Nat} (v : Word) (hm : isRwReg m) (hne : m ≠ n) :
    (r.write n v).view m = r.view m := by
  obtain ⟨hmlo, hmhi⟩ := hm
  by_cases hn : isRwReg n
  · obtain ⟨hnlo, hnhi⟩ := hn
    rcases Nat.lt_or_gt_of_ne hne with hlt | hgt
    · interval_cases n <;> interval_cases m <;> rfl
    · interval_cases n <;> interval_cases m <;> rfl
  · rw [r.write_other v hn]

theorem regRead_hostWrite_ne (s : State) {n m : Nat} (v : Word) (hne : m ≠ n) :
    (s.hostWrite n v).regRead m = s.regRead m := by
  by_cases hm : isRwReg m
  · rw [regRead_rw _ hm, regRead_rw _ hm, State.hostWrite_csr, HostRegs.view_write_ne _ v hm hne]
  · exact regRead_other s _ hm

/-- Of `CTRL` only bits 2..0 exist (10_state.md R26). -/
theorem ctrl_view (v : Word) : (v.setWidth 3).setWidth 32 = v &&& 7#32 := by
  refine BitVec.eq_of_toNat_eq ?_
  have hand : v.toNat &&& 7 = v.toNat % 8 := Nat.and_two_pow_sub_one_eq_mod v.toNat 3
  rw [BitVec.toNat_and, BitVec.toNat_setWidth, BitVec.toNat_setWidth, BitVec.toNat_ofNat, hand]
  omega

/-- What each number writes, and no other operand (10_state.md R26). -/
theorem HostRegs.write_table (r : HostRegs) (n : Nat) (v : Word) (r' : HostRegs) (h : (n, r') ∈ ([
    (0x03, { r with ctrl := v.extractLsb' 0 3 }), (0x04, { r with dstW := v }), (0x05, { r with dstH := v }),
    (0x06, { r with outW := v }), (0x07, { r with outH := v }), (0x08, { r with scaleMode := v }),
    (0x09, { r with vscaleMode := v }), (0x0A, { r with aspectNum := v }), (0x0B, { r with aspectDen := v }),
    (0x0C, { r with srcW := v }), (0x0D, { r with srcH := v }), (0x0E, { r with txtLen := v }),
    (0x0F, { r with frmW := v }), (0x10, { r with frmH := v })] : List (Nat × HostRegs))) : r.write n v = r' := by
  have hctrl : v.setWidth 3 = v.extractLsb' 0 3 := BitVec.setWidth_eq_extractLsb' (by decide)
  simp only [List.mem_cons, Prod.mk.injEq, List.not_mem_nil, or_false] at h
  rcases h with ⟨rfl, rfl⟩ | h
  · rw [HostRegs.write, hctrl]
  · rcases h with ⟨rfl, rfl⟩ | ⟨rfl, rfl⟩ | ⟨rfl, rfl⟩ | ⟨rfl, rfl⟩ | ⟨rfl, rfl⟩ | ⟨rfl, rfl⟩ | ⟨rfl, rfl⟩ | ⟨rfl, rfl⟩ |
      ⟨rfl, rfl⟩ | ⟨rfl, rfl⟩ | ⟨rfl, rfl⟩ | ⟨rfl, rfl⟩ | ⟨rfl, rfl⟩ <;> rfl

/-- Settles O9: the write changes the operand its number names, and what reads back is a view of the operands. -/
theorem hostWriteAndReadBack : Obligations.HostWriteAndReadBack := by
  intro s n v rest hfeed hn
  refine ⟨({ s with feed := rest } : State).hostWrite n v, step_done hfeed (if_neg hn), rfl,
    fun m hm => regRead_hostWrite_ne _ v hm, ?_, fun hlo hhi => ?_, fun hn' => ?_, s.csr.write_table n v⟩
  · rintro rfl
    exact ctrl_view v
  · rw [regRead_rw _ ⟨by omega, hhi⟩]
    exact HostRegs.view_write_same _ v hlo hhi
  · rw [State.hostWrite, HostRegs.write_other _ v (by omega)]

/-! ### The host's reads -/

theorem Frame.inside_iff (f : Frame) (y x : Nat) : f.inside y x = true ↔ y < f.h ∧ x < f.w := by
  simp [Frame.inside]

theorem State.hostPixel_inside {s : State} {f : Frame} {y x : Nat} (hf : s.wf = some f) (hy : y < f.h) (hx : x < f.w) :
    s.hostPixel y x = .done { s with rd := { s.rd with pixel := f.at y x } } := by
  simp only [State.hostPixel, hf, (f.inside_iff y x).2 ⟨hy, hx⟩, if_true]

/-- A pixel that is not there (log 12). -/
theorem State.hostPixel_outside {s : State} {y x : Nat} (h : ∀ f, s.wf = some f → f.h ≤ y ∨ f.w ≤ x) :
    s.hostPixel y x = .fault .pixelOutsideFrame := by
  unfold State.hostPixel
  split
  next => rfl
  next f hf =>
    have hout : ¬ f.inside y x = true := fun hin => by
      have := (f.inside_iff y x).1 hin
      have := h f hf
      omega
    rw [if_neg hout]

theorem State.hostFrameByte_inside {s : State} {f : Frame} {k : Nat} {b : Byte} (hf : s.wf = some f) (hb : f.byte? k = some b) :
    s.hostFrameByte k = .done (s.latchByte b) := by
  simp only [State.hostFrameByte, hf, hb]

/-- A byte that is not there (log 12). -/
theorem State.hostFrameByte_outside {s : State} {k : Nat} (h : ∀ f, s.wf = some f → 4 * (f.w * f.h) ≤ k) :
    s.hostFrameByte k = .fault .pixelOutsideFrame := by
  unfold State.hostFrameByte
  split
  next => rfl
  next f hf => rw [(f.byte?_eq_none k).2 (h f hf)]

/-- The channels of a pixel in their order (20_memory.md R62). -/
theorem Pixel.channel_of_getElem? {p : Pixel} {c : Nat} {b : Byte} (h : [p.r, p.g, p.b, p.a][c]? = some b) :
    c < 4 ∧ p.channel c = b := by
  match c with
  | 0 => exact ⟨by decide, Option.some.inj h⟩
  | 1 => exact ⟨by decide, Option.some.inj h⟩
  | 2 => exact ⟨by decide, Option.some.inj h⟩
  | 3 => exact ⟨by decide, Option.some.inj h⟩
  | _ + 4 => simp at h

/-- Settles O10: each read latches one value, or finds nothing to read in the frame. -/
theorem hostReads : Obligations.HostReads := by
  refine ⟨fun s n rest hfeed => step_done hfeed rfl, fun s n hn => regRead_reserved s hn,
    fun s f y x rest hfeed hf hy hx => step_done hfeed (State.hostPixel_inside hf hy hx),
    fun s y x rest hfeed hout => ?_, fun s f y x c b rest hfeed hf hy hx hb => ?_, fun s k rest hfeed hout => ?_,
    fun s i rest hfeed => ⟨_, fun b' hb => Memory.view_of_read _ hb, step_done hfeed rfl⟩,
    fun s i rest hfeed => ⟨_, fun b' hb => Memory.view_of_read _ hb, step_done hfeed rfl⟩⟩
  · have hfetch : ({ s with feed := rest } : State).hostPixel y x = .fault .pixelOutsideFrame := State.hostPixel_outside hout
    rw [step_cons s _ rest hfeed, State.fetch, State.hostMove, hfetch]
  · obtain ⟨hc, hchannel⟩ := Pixel.channel_of_getElem? hb
    exact step_done hfeed (State.hostFrameByte_inside hf (hchannel ▸ f.byte?_index y x c hy hx hc))
  · have hfetch : ({ s with feed := rest } : State).hostFrameByte k = .fault .pixelOutsideFrame :=
      State.hostFrameByte_outside hout
    rw [step_cons s _ rest hfeed, State.fetch, State.hostMove, hfetch]

/-! ### The ports -/

/-- Reading a port after a block was written to it. -/
theorem Memory.read_writeRange (vs : List Byte) : ∀ (m : Memory) (i k : Nat), Memory.read (Memory.writeRange m i vs) k =
    if i ≤ k ∧ k < i + vs.length then vs[k - i]? else Memory.read m k := by
  induction vs with
  | nil => intro m i k; rw [if_neg (by simp), Memory.writeRange]
  | cons v vs ih =>
    intro m i k
    rw [Memory.writeRange, ih, List.length_cons]
    rcases Nat.lt_trichotomy k i with hlt | rfl | hgt
    · rw [if_neg (by omega), if_neg (by omega), Memory.read_write_other m i k v (by omega)]
    · rw [if_neg (by omega), if_pos (by omega), Memory.read_write_same, Nat.sub_self, List.getElem?_cons_zero]
    · have hindex : k - i = k - (i + 1) + 1 := by omega
      rw [Memory.read_write_other m i k v (by omega), hindex, List.getElem?_cons_succ]
      exact if_congr (by omega) rfl rfl

/-- Settles O11: the step writes the block to its port and does nothing else. -/
theorem portWriteByteByByte : Obligations.PortWriteByteByByte :=
  ⟨fun s i bytes _ hfeed => ⟨_, step_done hfeed rfl, rfl, fun k => Memory.read_writeRange bytes s.txt i k⟩,
    fun s i bytes _ hfeed => ⟨_, step_done hfeed rfl, rfl, fun k => Memory.read_writeRange bytes s.fin i k⟩⟩

/-! ### The layout of the registers -/

/-- Fields one above the other are added. -/
theorem toNat_append_add {m n : Nat} (x : BitVec m) (y : BitVec n) : (x ++ y).toNat = x.toNat * 2 ^ n + y.toNat := by
  rw [BitVec.toNat_append, ← Nat.shiftLeft_add_eq_or_of_lt y.isLt, Nat.shiftLeft_eq]

theorem Status.word_toNat (st : Status) : st.word.toNat = st.errCode.toNat + 256 * st.done.toNat + 512 * st.esticky.toNat := by
  simp only [Status.word, toNat_append_add, BitVec.toNat_ofBool, BitVec.toNat_ofNat]
  omega

theorem filterWarn_eq_any (slot : Option FilterSlot) : filterWarn slot = slot.any FilterSlot.warn := by
  cases slot <;> rfl

theorem State.slotsWord_toNat (s : State) : s.slotsWord.toNat =
    s.tables.filtH.isSome.toNat + 2 * s.tables.filtV.isSome.toNat + 4 * s.tables.mask.isSome.toNat
      + 8 * s.tables.gamma.isSome.toNat + 16 * s.wf.isSome.toNat + 32 * s.pl.isSome.toNat + 64 * s.sel.isSome.toNat
      + 256 * (s.tables.filtH.any FilterSlot.warn).toNat + 512 * (s.tables.filtV.any FilterSlot.warn).toNat := by
  simp only [State.slotsWord, toNat_append_add, BitVec.toNat_ofBool, BitVec.toNat_ofNat, filterWarn_eq_any]
  omega

/-- What a valid filter slot is (10_state.md R35). -/
theorem FilterSlot.wf_iff (f : FilterSlot) : f.wf = true ↔ legalPhases f.nphases = true ∧
    f.rows.length = f.nphases * (if f.adaptive then 2 else 1) ∧ f.warn = rangeWarning f.tenbit f.rows := by
  simp only [FilterSlot.wf, Bool.and_eq_true, decide_eq_true_iff, and_assoc]

theorem legalPhases_le {P : Nat} (h : legalPhases P = true) : P ≤ 256 := by
  have hmem : P ∈ [4, 8, 16, 64, 256] := (legalPhases_iff P).1 h
  simp only [List.mem_cons, List.not_mem_nil, or_false] at hmem
  omega

theorem FilterSlot.desc_toNat {f : FilterSlot} (hf : f.wf = true) : f.desc.toNat =
    f.nphases + 65536 * f.tenbit.toNat + 131072 * f.adaptive.toNat + 262144 * f.rows.length := by
  obtain ⟨hphases, hrows, -⟩ := f.wf_iff.1 hf
  have hle : f.nphases ≤ 256 := legalPhases_le hphases
  have hlen : f.rows.length ≤ 512 := by split at hrows <;> omega
  simp only [FilterSlot.desc, FilterSlot.nrows, toNat_append_add, BitVec.toNat_ofBool, BitVec.toNat_ofNat]
  omega

/-- A number that fits its register is read as it is (log 8). -/
theorem regView_toNat (reg : Nat) {n : Nat} (h : n < 2 ^ 32) : (regView reg n).toNat = n := by
  rw [regView, if_pos (show n < 4294967296 from h), BitVec.toNat_ofNat, Nat.mod_eq_of_lt h]

theorem regRead_rw_table (s : State) (n : Nat) (v : Word) (h : (n, v) ∈ ([
    (0x03, s.csr.ctrl.setWidth 32), (0x04, s.csr.dstW), (0x05, s.csr.dstH), (0x06, s.csr.outW),
    (0x07, s.csr.outH), (0x08, s.csr.scaleMode), (0x09, s.csr.vscaleMode), (0x0A, s.csr.aspectNum),
    (0x0B, s.csr.aspectDen), (0x0C, s.csr.srcW), (0x0D, s.csr.srcH), (0x0E, s.csr.txtLen),
    (0x0F, s.csr.frmW), (0x10, s.csr.frmH)] : List (Nat × Word))) : s.regRead n = v := by
  simp only [List.mem_cons, Prod.mk.injEq, List.not_mem_nil, or_false] at h
  rcases h with ⟨rfl, rfl⟩ | ⟨rfl, rfl⟩ | ⟨rfl, rfl⟩ | ⟨rfl, rfl⟩ | ⟨rfl, rfl⟩ | ⟨rfl, rfl⟩ | ⟨rfl, rfl⟩ | ⟨rfl, rfl⟩ |
    ⟨rfl, rfl⟩ | ⟨rfl, rfl⟩ | ⟨rfl, rfl⟩ | ⟨rfl, rfl⟩ | ⟨rfl, rfl⟩ | ⟨rfl, rfl⟩ <;> rfl

/-- The selection's registers, while it is valid (10_state.md R38). -/
theorem regRead_sel {s : State} {c : Selection} (h : s.sel = some c) :
    s.regRead 0x17 = regView 0x17 c.idx ∧ s.regRead 0x18 = regView 0x18 c.res ∧
      s.regRead 0x19 = regView 0x19 c.w ∧ s.regRead 0x1A = regView 0x1A c.h := by
  simp [State.regRead, selField, h]

/-- The placement's registers, while it is valid (10_state.md R32). -/
theorem regRead_pl {s : State} {p : Placement} (h : s.pl = some p) :
    s.regRead 0x1B = regView 0x1B p.snum ∧ s.regRead 0x1C = regView 0x1C p.sden ∧ s.regRead 0x1D = regView 0x1D p.w ∧
      s.regRead 0x1E = regView 0x1E p.h ∧ s.regRead 0x1F = regView 0x1F p.left ∧ s.regRead 0x20 = regView 0x20 p.top := by
  simp [State.regRead, plField, h]

/-- Settles O12: each register is a packed word, an operand, or a number viewed through 32 bits. -/
theorem registerLayouts : Obligations.RegisterLayouts := by
  refine ⟨fun s => s.status.word_toNat, fun s => s.slotsWord_toNat, fun s h => ?_, fun s h => ?_, fun s f h hf => ?_,
    fun s f h hf => ?_, regRead_rw_table, fun s h => regView_toNat 0x02 h, fun s h => ⟨?_, ?_⟩,
    fun s f h => ⟨fun hw => ?_, fun hh => ?_⟩, fun s h => ?_, fun s sets h hlen => ?_, fun s h n hn => ?_,
    fun s c n m h hm hlt => ?_, fun s h n hn => ?_, fun s p n m h hm hlt => ?_⟩
  · rw [State.regRead, h, filterDesc_none]
  · rw [State.regRead, h, filterDesc_none]
  · rw [State.regRead, h]; exact FilterSlot.desc_toNat hf
  · rw [State.regRead, h]; exact FilterSlot.desc_toNat hf
  · rw [State.regRead, State.wfW_of_invalid h, regView_zero]
  · rw [State.regRead, State.wfH_of_invalid h, regView_zero]
  · rw [State.regRead, State.wfW_of_frame h, regView_toNat _ hw]
  · rw [State.regRead, State.wfH_of_frame h, regView_toNat _ hh]
  · rw [State.regRead, h, maskNsets_none, regView_zero]
  · rw [State.regRead, h]; exact regView_toNat _ hlen
  · simp only [List.mem_cons, List.not_mem_nil, or_false] at hn
    rcases hn with rfl | rfl | rfl | rfl <;> rw [State.regRead, h, selField_none, regView_zero]
  · obtain ⟨hidx, hres, hw, hh⟩ := regRead_sel h
    simp only [List.mem_cons, Prod.mk.injEq, List.not_mem_nil, or_false] at hm
    rcases hm with ⟨rfl, rfl⟩ | ⟨rfl, rfl⟩ | ⟨rfl, rfl⟩ | ⟨rfl, rfl⟩
    · rw [hidx, regView_toNat _ hlt]
    · rw [hres, regView_toNat _ hlt]
    · rw [hw, regView_toNat _ hlt]
    · rw [hh, regView_toNat _ hlt]
  · simp only [List.mem_cons, List.not_mem_nil, or_false] at hn
    rcases hn with rfl | rfl | rfl | rfl | rfl | rfl <;> rw [State.regRead, h, plField_none, regView_zero]
  · obtain ⟨hsnum, hsden, hw, hh, hleft, htop⟩ := regRead_pl h
    simp only [List.mem_cons, Prod.mk.injEq, List.not_mem_nil, or_false] at hm
    rcases hm with ⟨rfl, rfl⟩ | ⟨rfl, rfl⟩ | ⟨rfl, rfl⟩ | ⟨rfl, rfl⟩ | ⟨rfl, rfl⟩ | ⟨rfl, rfl⟩
    · rw [hsnum, regView_toNat _ hlt]
    · rw [hsden, regView_toNat _ hlt]
    · rw [hw, regView_toNat _ hlt]
    · rw [hh, regView_toNat _ hlt]
    · rw [hleft, regView_toNat _ hlt]
    · rw [htop, regView_toNat _ hlt]

/-- Settles O13: the table of codes, row by row. -/
theorem errorCodes : Obligations.ErrorCodes := ⟨rfl, rfl⟩

/-! ### Reset -/

/-- No register reads what a platform reset keeps. -/
@[simp] theorem regRead_platformReset (s : State) (n : Nat) : s.platformReset.regRead n = 0#32 := regRead_reset n

/-- Settles O15: the move is a platform reset, which keeps the limits and the feed alone. -/
theorem platformReset : Obligations.PlatformReset := fun _ _ hfeed =>
  ⟨_, step_done hfeed rfl, fun n => regRead_platformReset _ n, rfl, rfl, rfl, rfl, rfl, fun _ => rfl, fun _ => rfl, rfl, rfl⟩

/-- After reset no byte of `TXT` counts as written and `TXT_LEN` is 0: the stream is empty. -/
theorem reset_stream : State.reset.stream = some [] := rfl

/-- An empty stream is one blank line, which no loader collects anything from. -/
theorem runLines_empty {f : Format} (hf : f = .fltLine ∨ f = .mskLine ∨ f = .gamLine) (lim : Config.Limits) (r : HostRegs) :
    runLines f lim r (Text.lines []) Loader.start = .ok (nextLine Loader.start) := by
  rcases hf with rfl | rfl | rfl <;> rfl

/-- The commands that need what is invalid after reset. -/
theorem exec_reset_notReady {i : Instr} (hi : i ∈ ([.ldframe, .gamma, .hresample, .vresample, .selpat, .mask, .run] : List Instr)) :
    exec i State.reset = .next (State.reset.raise ⟨.notReady, 0⟩) := by
  simp only [List.mem_cons, List.not_mem_nil, or_false] at hi
  rcases hi with rfl | rfl | rfl | rfl | rfl | rfl | rfl
  · rw [exec_ldframe, execLdframe]; exact runCommand_refused rfl _
  · rw [exec_gamma, execGamma]; exact runCommand_refused rfl _
  · rw [exec_hresample, execHresample]; exact runCommand_refused rfl _
  · rw [exec_vresample, execVresample]; exact runCommand_refused rfl _
  · exact exec_selpat_notReady rfl
  · rw [exec_mask, execMask]; exact runCommand_refused rfl _
  · exact exec_run_refused rfl

/-- Settles O16: the load commands read an empty stream, `PLACE` divides by nothing in mode 0, and the others lack what they
need. -/
theorem firstCommandsAfterReset : Obligations.FirstCommandsAfterReset := by
  have hflt := State.parseFilter_of_lines reset_stream (runLines_empty (.inl rfl) _ _)
  have hmsk := State.parseMask_of_lines reset_stream (runLines_empty (.inr (.inl rfl)) _ _)
  have hgam := State.parseGamma_of_lines reset_stream (runLines_empty (.inr (.inr rfl)) _ _)
  exact ⟨rfl, ⟨_, exec_placement_completes (mode := 0) rfl (by decide) (by decide), rfl, rfl⟩,
    exec_ldfilt_raises false rfl reset_stream hflt, exec_ldfilt_raises true rfl reset_stream hflt,
    exec_ldmask_raises rfl reset_stream hmsk, exec_ldgamma_raises rfl reset_stream hgam, fun _ => exec_reset_notReady⟩

/-- Settles O17: at reset nothing is valid, so nothing has to be complete. -/
theorem resetKeepsTheInvariant : Obligations.ResetKeepsTheInvariant := rfl

end Sys2Proof.Machine
end

section
/-! Lines and load commands. First what single lines and element words do (40_filter_loader.md R142 to R145, 41_mask_loader.md R172 to
R176); then the refusals of `LDFRAME` (47_pipeline.md R324); then the loop over the lines of a stream: as single steps, at the first
line that fails, and with or without a first `Resolution=0` line. -/

namespace Sys2Proof.Machine

/-! ### Lines and words that cannot fail -/

/-- A line or an element whose operation succeeds. -/
theorem exec_line_ok {i : Instr} {s : State} {op : Loader → Except Raise Loader} {l : Loader} (hop : loaderOp s.lim i = some op)
    (hok : op s.ld = .ok l) : exec i s = .next { s with ld := l } := by
  rw [exec_line i s op hop, hok]
  rfl

/-- A line whose operation fails. -/
theorem exec_line_error {i : Instr} {s : State} {op : Loader → Except Raise Loader} {e : Raise}
    (hop : loaderOp s.lim i = some op) (herr : op s.ld = .error e) : exec i s = .next (s.raise e) := by
  rw [exec_line i s op hop, herr]
  rfl

/-- Settles O36: each line's operation, which cannot fail. -/
theorem linesWithoutData : Obligations.LinesWithoutData := by
  refine fun s text => ⟨fun i hi => ?_, exec_line_ok rfl rfl, exec_line_ok rfl rfl, exec_line_ok rfl rfl⟩
  simp only [List.mem_cons, List.not_mem_nil, or_false] at hi
  rcases hi with rfl | rfl | rfl | rfl | rfl | rfl
  · exact exec_line_ok rfl (l := s.ld) rfl
  · exact exec_line_ok rfl (l := s.ld) rfl
  · exact exec_line_ok rfl (l := s.ld) rfl
  · exact exec_line_ok rfl (l := s.ld) rfl
  · exact exec_gamBlank s
  · exact exec_gamComment s text

/-- Settles O42: each element's operation, which cannot fail. -/
theorem elementWords : Obligations.ElementWords := fun _ _ _ _ _ =>
  ⟨exec_line_ok rfl rfl, exec_line_ok rfl rfl, exec_line_ok rfl rfl, exec_line_ok rfl rfl⟩

/-! ### A coefficient row -/

/-- The token count is tested first, then the tokens; both failures are the same error (40_filter_loader.md R145). -/
theorem opFltRow_malformed {toks : List (Token Int)} (l : Loader) (h : toks.length ≠ 4 ∨ none ∈ toks) :
    opFltRow toks l = .error ⟨.malformedCoefficientRow, l.ln⟩ := by
  unfold opFltRow
  split
  next => rfl
  next hcount => rw [(allLegal_none toks).2 (h.resolve_left hcount)]

/-- A value that does not fit `COEF_BITS` (40_filter_loader.md R154). -/
theorem opFltRow_tooLarge {vs : List Int} (l : Loader) (hcount : vs.length = 4) (hlarge : ∃ v ∈ vs, coefFits v = false) :
    opFltRow (vs.map some) l = .error ⟨.limitExceeded, l.ln⟩ := by
  have hall : ¬ vs.all coefFits = true := by
    obtain ⟨v, hv, hfits⟩ := hlarge
    exact fun h => Bool.false_ne_true (hfits.symm.trans (List.all_eq_true.1 h v hv))
  rw [opFltRow, if_neg (by simpa using hcount), allLegal_map]
  exact if_neg hall

theorem coefFits_eq_false_iff (v : Int) :
    coefFits v = false ↔ (decide (v < -2147483648) || decide (2147483647 < v)) = true := by
  simp [coefFits]
  omega

/-- Four values that fit are the row of their coefficient words (30_encoding.md R112). -/
theorem exists_quad_of_fits {vs : List Int} (hcount : vs.length = 4) (hfits : ∀ v ∈ vs, coefFits v = true) :
    ∃ q : Quad Coef, vs = [q.k0.toInt, q.k1.toInt, q.k2.toInt, q.k3.toInt] := by
  obtain ⟨a, b, c, d, rfl⟩ := List.length_eq_four.1 hcount
  refine ⟨⟨coefWord a, coefWord b, coefWord c, coefWord d⟩, ?_⟩
  simp only [coefWord_toInt _ (hfits _ _), List.mem_cons, true_or, or_true]

/-- Settles O37: the row operation's three outcomes, its tokens taken as the values they stand for. -/
theorem fltRowLine : Obligations.FltRowLine := by
  intro s toks
  split
  next hbad => exact exec_line_error rfl (opFltRow_malformed s.ld hbad)
  next hgood =>
    obtain ⟨hcount, hlegal⟩ := not_or.1 hgood
    obtain ⟨vs, hvs⟩ := Option.ne_none_iff_exists'.1 fun hnone => hlegal ((allLegal_none toks).1 hnone)
    obtain rfl := (allLegal_some toks vs).1 hvs
    have hcount : vs.length = 4 := by simpa using hcount
    split
    next hlarge =>
      have hlarge : ∃ v ∈ vs, coefFits v = false := by
        simpa only [List.any_map, List.any_eq_true, Function.comp_apply, Option.any_some, ← coefFits_eq_false_iff] using hlarge
      exact exec_line_error rfl (opFltRow_tooLarge s.ld hcount hlarge)
    next hlarge =>
      have hfits : ∀ v ∈ vs, coefFits v = true := by
        simpa only [List.any_map, List.any_eq_true, Function.comp_apply, Option.any_some, ← coefFits_eq_false_iff, not_exists,
          not_and, Bool.not_eq_false] using hlarge
      obtain ⟨q, rfl⟩ := exists_quad_of_fits hcount hfits
      exact ⟨q, rfl, exec_line_ok rfl (opFltRow_ok q s.ld)⟩

/-! ### Mask headers -/

theorem opMskRes_inBlock (lim : Config.Limits) (tok : Token Int) {l : Loader} (h : l.msk.state = .rows) :
    opMskRes lim tok l = .error ⟨.badMaskStructure, l.ln⟩ :=
  if_pos h

theorem opMskRes_illegal (lim : Config.Limits) {l : Loader} (h : l.msk.state ≠ .rows) :
    opMskRes lim none l = .error ⟨.badToken, l.ln⟩ :=
  if_neg h

/-- The integer of a header outside a block: its sign, then its limit (41_mask_loader.md R174). -/
theorem opMskRes_some (lim : Config.Limits) (v : Int) {l : Loader} (h : l.msk.state ≠ .rows) :
    opMskRes lim (some v) l =
      if v < 0 then .error ⟨.badToken, l.ln⟩
      else if exceeds lim.maxExtent v.toNat then .error ⟨.limitExceeded, l.ln⟩
      else .ok { l with msk := { l.msk with res := v.toNat, state := .dims } } :=
  if_neg h

/-- Settles O38: the clauses are the header operation's cases. -/
theorem mskResLine : Obligations.MskResLine := by
  refine ⟨fun s tok h => exec_line_error rfl (opMskRes_inBlock s.lim tok h),
    fun s h => exec_line_error rfl (opMskRes_illegal s.lim h), fun s v h => ?_⟩
  have hop := opMskRes_some s.lim v h
  split
  next hneg => exact exec_line_error rfl (hop.trans (if_pos hneg))
  next hneg =>
    rw [if_neg hneg] at hop
    split
    next hlarge => exact exec_line_error rfl (hop.trans (if_pos hlarge))
    next hlarge => exact exec_line_ok rfl (hop.trans (if_neg hlarge))

/-- Anything but two integers (41_mask_loader.md R180). -/
theorem opMskDims_missing (lim : Config.Limits) {toks : List (Token Int)} (l : Loader)
    (h : ¬ ∃ w h, toks = [some w, some h]) : opMskDims lim toks l = .error ⟨.missingDimensions, l.ln⟩ := by
  unfold opMskDims
  split
  next w h' => exact absurd ⟨w, h', rfl⟩ h
  next => rfl

/-- Settles O39: the clauses are the cases of the operation of a dimension line. -/
theorem mskDimsLine : Obligations.MskDimsLine := by
  refine ⟨fun s toks h => exec_line_error rfl (opMskDims_missing s.lim s.ld h), fun s w h => ?_⟩
  split
  next hsmall => exact exec_line_error rfl (if_pos hsmall)
  next hsmall =>
    split
    next hlarge => exact exec_line_error rfl ((if_neg hsmall).trans (if_pos hlarge))
    next hlarge => exact exec_line_ok rfl ((if_neg hsmall).trans (if_neg hlarge))

/-! ### The refusals of `LDFRAME` -/

/-- The bytes of a frame cannot be read exactly where one of them was not written (10_state.md R42). -/
theorem State.frameBytes_eq_none_iff (s : State) :
    s.frameBytes = none ↔ ∃ k, k < 4 * s.csr.frmW.toNat * s.csr.frmH.toNat ∧ Memory.read s.fin k = none := by
  rw [← Option.not_isSome_iff_eq_none, State.frameBytes, Memory.readRange_isSome]
  simp only [Nat.zero_add, Classical.not_forall, Option.not_isSome_iff_eq_none, exists_prop]

/-- The tests of `LDFRAME` in their groups (47_pipeline.md R324). -/
theorem ldframeNeeds_eq (s : State) : ldframeNeeds s =
    testEach (fun v => decide (1 ≤ v.toNat)) .notReady [s.csr.frmW, s.csr.frmH] ++
      (testEach (fun v => !exceeds s.lim.maxExtent v.toNat) .limitExceeded [s.csr.frmW, s.csr.frmH] ++
        [(s.frameBytes.isSome, .notReady)]) := rfl

/-- Settles O25: each branch says which group of tests fails first. -/
theorem ldframeRefusals : Obligations.LdframeRefusals := by
  intro s
  rw [exec_ldframe, execLdframe, ldframeNeeds_eq]
  split
  next hzero =>
    exact runCommand_refused (firstFailure_testEach _ ⟨0#32, by simpa [eq_comm (a := 0#32)] using hzero, rfl⟩ _) _
  next hzero =>
    have hextents := divisorNeeds_pass (vs := [s.csr.frmW, s.csr.frmH]) (by simpa [one_le_toNat_iff] using hzero)
    split
    next hlarge =>
      refine runCommand_refused ((firstFailure_append_of_pass hextents _).trans ?_) _
      exact firstFailure_testEach _ (by simpa using hlarge) _
    next hlarge =>
      intro hunwritten
      have hlimits : ∀ c ∈ testEach (fun v => !exceeds s.lim.maxExtent v.toNat) .limitExceeded [s.csr.frmW, s.csr.frmH],
          c.1 = true := testEach_pass _ (by simpa using hlarge)
      refine runCommand_refused
        ((firstFailure_append_of_pass hextents _).trans ((firstFailure_append_of_pass hlimits _).trans ?_)) _
      rw [s.frameBytes_eq_none_iff.2 hunwritten]
      rfl

/-! ### The lines as single steps -/

/-- A line given alone does what it does in its stream. -/
theorem step_line {s : State} {f : Format} (hf : f = .fltLine ∨ f = .mskLine ∨ f = .gamLine) {x : Text} {rest : List FeedItem}
    {l : Loader} (hfeed : s.feed = .unit f x :: rest) (hline : loadLine f s.lim s.csr (nextLine s.ld) x = .ok l) :
    step s = .next { s with feed := rest, ld := l } := by
  rcases loadLine_cases f s.lim s.csr (nextLine s.ld) x hf with ⟨i, op, hdecode, -, hop, heq⟩ | ⟨-, -, heq⟩
  · rw [step_unit_ok hfeed (by rw [s.unitStart_line hf]; exact hdecode), State.unitStart_line _ hf]
    exact exec_line_ok hop (heq.symm.trans hline)
  · exact absurd (heq.symm.trans hline) (by simp)

/-- Settles O35: by induction on the lines, one step for each. -/
theorem loadIsItsLines : Obligations.LoadIsItsLines := by
  intro s f xs rest l hf hfeed hlines
  induction xs generalizing s with
  | nil =>
    obtain rfl := Except.ok.inj hlines
    rw [List.map_nil, List.nil_append] at hfeed
    rw [← hfeed]
    rfl
  | cons x xs ih =>
    rw [runLines_cons] at hlines
    cases hx : loadLine f s.lim s.csr (nextLine s.ld) x with
    | error e => rw [hx] at hlines; cases hlines
    | ok l1 =>
      rw [hx] at hlines
      rw [List.length_cons, run_succ _ _ _ (step_line hf hfeed hx)]
      exact ih { s with feed := xs.map (FeedItem.unit f) ++ rest, ld := l1 } rfl hlines

/-! ### The first line that fails -/

/-- The loop ends at the first line that fails. -/
theorem runLines_error {f : Format} {lim : Config.Limits} {r : HostRegs} {pre post : List Text} {bad : Text} {l0 l : Loader}
    {e : Raise} (hpre : runLines f lim r pre l0 = .ok l) (hbad : loadLine f lim r (nextLine l) bad = .error e) :
    runLines f lim r (pre ++ bad :: post) l0 = .error e := by
  rw [runLines_append, hpre]
  simp only [runLines_cons, hbad]

/-- A load command whose stream fails takes the error of its stream. -/
theorem exec_load_raises {s : State} {f : Format} {i : Instr} {bytes : List Byte} {e : Raise}
    (hi : (f, i) ∈ ([(.fltLine, .ldfiltH), (.fltLine, .ldfiltV), (.mskLine, .ldmask), (.gamLine, .ldgamma)] : List (Format × Instr)))
    (hlen : exceeds s.lim.txtMaxLen s.csr.txtLen.toNat = false) (hstream : s.stream = some bytes) (hparse : s.parse f = .error e) :
    exec i s = .next (s.raise e) := by
  simp only [List.mem_cons, Prod.mk.injEq, List.not_mem_nil, or_false] at hi
  rcases hi with ⟨rfl, rfl⟩ | ⟨rfl, rfl⟩ | ⟨rfl, rfl⟩ | ⟨rfl, rfl⟩
  · exact exec_ldfilt_raises false hlen hstream (by rw [State.parseFilter, hparse])
  · exact exec_ldfilt_raises true hlen hstream (by rw [State.parseFilter, hparse])
  · exact exec_ldmask_raises hlen hstream (by rw [State.parseMask, hparse])
  · exact exec_ldgamma_raises hlen hstream (by rw [State.parseGamma, hparse])

/-- Settles O27: the lines before the bad one have moved the line number to its place, and the loop ends with its error. -/
theorem lineErrorEndsTheLoad : Obligations.LineErrorEndsTheLoad := by
  intro s f i bytes pre post bad l e hi hlen hstream hlines hpre hbad
  have hf : f = .fltLine ∨ f = .mskLine ∨ f = .gamLine := by
    simp only [List.mem_cons, Prod.mk.injEq, List.not_mem_nil, or_false] at hi
    tauto
  have hinfo : e.info = l.ln + 1 := (loadLine_ln f s.lim s.csr (nextLine l) bad hf).2 e hbad
  have hln : l.ln = 0 + pre.length := runLines_ln f s.lim s.csr hf pre _ l hpre
  have hparse : s.parse f = .error e := by
    rw [State.parse, hstream, Option.getD_some, hlines]
    exact runLines_error hpre hbad
  exact ⟨by omega, exec_load_raises hi hlen hstream hparse⟩

/-! ### Legacy mask streams -/

/-- The mask working values a line or a stream ends with, if it does not fail. -/
def mskOf (r : Except Raise Loader) : Option MskWork :=
  match r with
  | .ok l => some l.msk
  | .error _ => none

theorem mskOf_eq_some {r : Except Raise Loader} {m : MskWork} : mskOf r = some m ↔ ∃ l, r = .ok l ∧ l.msk = m := by
  cases r with
  | ok l => simp [mskOf]
  | error e => simp [mskOf]

theorem mskOf_endPattern (lim : Config.Limits) {l l' : Loader} (h : l.msk = l'.msk) :
    mskOf (endPattern lim l) = mskOf (endPattern lim l') := by
  unfold endPattern
  rw [h]
  split
  next =>
    split
    next => rfl
    next => rfl
  next => exact congrArg some h

theorem mskOf_opMskRes (lim : Config.Limits) (tok : Token Int) {l l' : Loader} (h : l.msk = l'.msk) :
    mskOf (opMskRes lim tok l) = mskOf (opMskRes lim tok l') := by
  by_cases hrows : l'.msk.state = .rows
  · rw [opMskRes_inBlock lim tok (h ▸ hrows), opMskRes_inBlock lim tok hrows]; rfl
  · cases tok with
    | none => rw [opMskRes_illegal lim (h ▸ hrows), opMskRes_illegal lim hrows]; rfl
    | some v =>
      rw [opMskRes_some lim v (h ▸ hrows), opMskRes_some lim v hrows, h]
      split
      next => rfl
      next => split <;> rfl

theorem mskOf_opMskDims (lim : Config.Limits) (toks : List (Token Int)) {l l' : Loader} (h : l.msk = l'.msk) :
    mskOf (opMskDims lim toks l) = mskOf (opMskDims lim toks l') := by
  unfold opMskDims
  rw [h]
  split
  next =>
    split
    next => rfl
    next => split <;> rfl
  next => rfl

theorem mskOf_opMskRow (lim : Config.Limits) (toks : List (Token CellWord)) {l l' : Loader} (h : l.msk = l'.msk) :
    mskOf (opMskRow lim toks l) = mskOf (opMskRow lim toks l') := by
  unfold opMskRow
  rw [h]
  split
  next => rfl
  next =>
    split
    next => rfl
    next cws _ => exact mskOf_endPattern lim (by simp only [closeCells, putCells, openCells, h])

/-- What the operation of a mask line does to the mask working values depends on them alone. -/
theorem mskOf_loaderOp (lim : Config.Limits) {i : Instr} {op : Loader → Except Raise Loader} (hi : i.format = .mskLine)
    (hop : loaderOp lim i = some op) {l l' : Loader} (h : l.msk = l'.msk) : mskOf (op l) = mskOf (op l') := by
  cases i with
  | mskBlank => obtain rfl := Option.some.inj hop; exact congrArg some h
  | mskComment t => obtain rfl := Option.some.inj hop; exact congrArg some h
  | mskRes tok => obtain rfl := Option.some.inj hop; exact mskOf_opMskRes lim tok h
  | mskV2 => obtain rfl := Option.some.inj hop; exact congrArg some h
  | mskDims toks => obtain rfl := Option.some.inj hop; exact mskOf_opMskDims lim toks h
  | mskRow toks => obtain rfl := Option.some.inj hop; exact mskOf_opMskRow lim toks h
  | _ => exact absurd hi (by simp [Instr.format])

/-- A line decodes in the state of the mask parser, so what it does depends on the mask working values alone. -/
theorem mskOf_loadLine (lim : Config.Limits) (r : HostRegs) {l l' : Loader} (h : l.msk = l'.msk) (x : Text) :
    mskOf (loadLine .mskLine lim r l x) = mskOf (loadLine .mskLine lim r l' x) := by
  have hdecode' : decode .mskLine (l'.ctx r) x = decode .mskLine (l.ctx r) x :=
    congrArg (fun m : MskWork => decodeMsk m.state x) h.symm
  rcases loadLine_cases .mskLine lim r l x (.inr (.inl rfl)) with ⟨i, op, hdecode, hi, hop, heq⟩ | ⟨-, hstray, heq⟩
  · have heq' : loadLine .mskLine lim r l' x = op l' := by
      rw [loadLine, hdecode', hdecode]
      simp only [hop]
    rw [heq, heq', mskOf_loaderOp lim hi hop h]
  · rw [heq, loadLine_stray lim (hdecode'.trans hstray)]
    rfl

theorem mskOf_runLines (lim : Config.Limits) (r : HostRegs) (xs : List Text) : ∀ {l l' : Loader}, l.msk = l'.msk →
    mskOf (runLines .mskLine lim r xs l) = mskOf (runLines .mskLine lim r xs l') := by
  induction xs with
  | nil => exact fun h => congrArg some h
  | cons x xs ih =>
    intro l l' h
    have hx := mskOf_loadLine lim r (l := nextLine l) (l' := nextLine l') h x
    rw [runLines_cons, runLines_cons]
    cases hl : loadLine .mskLine lim r (nextLine l) x with
    | error e =>
      cases hl' : loadLine .mskLine lim r (nextLine l') x with
      | error e' => rfl
      | ok m' => rw [hl, hl'] at hx; cases hx
    | ok m =>
      cases hl' : loadLine .mskLine lim r (nextLine l') x with
      | error e' => rw [hl, hl'] at hx; cases hx
      | ok m' => rw [hl, hl'] at hx; exact ih (Option.some.inj hx)

/-- No limit is below 0. -/
theorem exceeds_zero (limit : Option Nat) : exceeds limit 0 = false := by
  cases limit <;> rfl

/-- The mask loader starts as after a line `Resolution=0` (30_encoding.md R116). -/
theorem loadLine_resolutionZero (lim : Config.Limits) (r : HostRegs) :
    loadLine .mskLine lim r (nextLine Loader.start) (Text.tokResolution ++ [0x30#8]) = .ok (nextLine Loader.start) := by
  have hdecode : decode .mskLine ((nextLine Loader.start).ctx r) (Text.tokResolution ++ [0x30#8]) = .ok (.mskRes (some 0)) :=
    decodeMsk_resolution .dims 0
  have hop : opMskRes lim (some 0) (nextLine Loader.start) = .ok (nextLine Loader.start) := by
    rw [opMskRes_some lim 0 (by decide), if_neg (by decide), Int.toNat_zero, exceeds_zero, if_neg (by decide)]
    rfl
  rw [loadLine, hdecode]
  exact hop

/-- Settles O32: the header line leaves the start values as they are, but for the line number, which no mask working value
depends on. -/
theorem legacyMaskIsResolutionZero : Obligations.LegacyMaskIsResolutionZero := by
  intro lim r xs m
  have hsame : mskOf (runLines .mskLine lim r xs Loader.start) = mskOf (runLines .mskLine lim r xs (nextLine Loader.start)) :=
    mskOf_runLines lim r xs rfl
  rw [← mskOf_eq_some, ← mskOf_eq_some, runLines_cons, loadLine_resolutionZero, hsame]

end Sys2Proof.Machine
end

section
/-! What every instruction and every step can do (60_exceptions.md R364, R366, 70_reset_and_hazards.md R392). First one inversion
lemma for all commands: a command that completes has loaded one table or frame, placed, or run stages. From it, what instructions
leave unchanged. -/

namespace Sys2Proof.Machine

/-! ### What a completed command has done -/

/-- The stages of a plan one after the other. -/
abbrev State.afterStages (s : State) (plan : List Stage) : State :=
  plan.foldl (fun t st => doStage st t) s

/-- The passes of the plan go to extents of at least 1 (47_pipeline.md R324, R331). -/
structure PlanOk (r : HostRegs) (plan : List Stage) : Prop where
  hresample : .hresample ∈ plan → 1 ≤ r.dstW.toNat
  vresample : .vresample ∈ plan → 1 ≤ r.dstH.toNat

/-- The state a command that completes leaves its body with, and what holds of the table, frame or result it made. -/
inductive CommandResult (i : Instr) (s : State) : State → Prop
  | frame (bs : List Byte) (hw : 1 ≤ s.csr.frmW.toNat) (hh : 1 ≤ s.csr.frmH.toNat)
      (hlen : bs.length = 4 * (s.csr.frmH.toNat * s.csr.frmW.toNat)) : CommandResult i s (s.withLoadedFrame bs)
  | filter (v : Bool) (f : FilterSlot) (hf : f.wf = true) : CommandResult i s (s.withFilter v f)
  | mask (hi : i = .ldmask) (sets : List PatternSet) (hsets : maskWf sets = true) : CommandResult i s (s.withMask sets)
  | gamma (g : GammaTable) (hg : g.wf = true) : CommandResult i s (s.withGamma g)
  | stages (plan : List Stage) (hplan : PlanOk s.csr plan) : CommandResult i s (s.afterStages plan)
  | placement (p : Placement) (hp : p.wf = true) : CommandResult i s (s.withPlacement p)

/-- The command takes an error, or completes with one of these results. -/
def EndsWithResult (i : Instr) (s : State) : Prop :=
  (∃ e, exec i s = .next (s.raise e)) ∨ ∃ t, CommandResult i s t ∧ exec i s = .next t.complete

theorem endsWithResult_of_runCommand {i : Instr} {s : State} {needs : List (Bool × CmdError)}
    {body : State → Except Raise State} (hexec : exec i s = runCommand s needs body)
    (hbody : (∀ c ∈ needs, c.1 = true) → ∀ t, body s = .ok t → CommandResult i s t) : EndsWithResult i s := by
  unfold EndsWithResult
  rw [hexec]
  rcases runCommand_cases s needs body with ⟨e, -, hrefused⟩ | ⟨e, -, -, hraised⟩ | ⟨t, hneeds, ht, hcompleted⟩
  · exact .inl ⟨_, hrefused⟩
  · exact .inl ⟨e, hraised⟩
  · exact .inr ⟨t, hbody ((firstFailure_none _).1 hneeds) t ht, hcompleted⟩

/-! ### The loads -/

theorem endsWithResult_ldframe (s : State) : EndsWithResult .ldframe s := by
  refine endsWithResult_of_runCommand (by rw [exec_ldframe, execLdframe]) fun hneeds t ht => ?_
  obtain ⟨hw, hh, -, -, hread⟩ : 1 ≤ s.csr.frmW.toNat ∧ 1 ≤ s.csr.frmH.toNat ∧ _ ∧ _ ∧ s.frameBytes.isSome = true := by
    simpa [ldframeNeeds] using hneeds
  obtain ⟨bs, hbs⟩ := Option.isSome_iff_exists.1 hread
  have hlen : bs.length = 4 * (s.csr.frmH.toNat * s.csr.frmW.toNat) :=
    (Memory.readRange_some s.fin _ 0 bs hbs).1.trans (by ring)
  obtain rfl : s.withLoadedFrame bs = t := by
    simpa [hbs, putPixels, Loader.start, State.withLoadedFrame] using ht
  exact .frame bs hw hh hlen

/-- Every filter the checks let through is a valid slot (10_state.md R35). -/
theorem filterTable_wf {w : FltWork} {f : FilterSlot} (h : filterTable w = .ok f) : f.wf = true := by
  by_cases hrows : w.rows = []
  · rw [filterTable_empty hrows] at h; cases h
  by_cases hodd : w.adaptive = true ∧ w.rows.length % 2 = 1
  · rw [filterTable_odd hrows hodd] at h; cases h
  rw [filterTable_phases hrows hodd] at h
  split at h
  next hphases =>
    obtain rfl := Except.ok.inj h
    refine (FilterSlot.wf_iff _).2 ⟨(legalPhases_iff _).2 hphases, ?_, rfl⟩
    show w.rows.length = w.rows.length / (if w.adaptive then 2 else 1) * (if w.adaptive then 2 else 1)
    split
    next hadaptive =>
      have heven : w.rows.length % 2 ≠ 1 := fun h => hodd ⟨hadaptive, h⟩
      omega
    next => omega
  next => cases h

theorem State.parseFilter_wf {s : State} {f : FilterSlot} (h : s.parseFilter = .ok f) : f.wf = true := by
  unfold State.parseFilter at h
  split at h
  next => cases h
  next => exact filterTable_wf h

theorem endsWithResult_ldfilt (s : State) (v : Bool) : EndsWithResult (if v then .ldfiltV else .ldfiltH) s := by
  refine endsWithResult_of_runCommand (exec_ldfilt s v) fun _ t ht => ?_
  cases hparse : s.parseFilter with
  | error e => rw [hparse] at ht; cases ht
  | ok f =>
    rw [hparse] at ht
    obtain rfl := Except.ok.inj ht
    exact .filter v f (State.parseFilter_wf hparse)

/-- Every mask the loader commits is a valid slot (10_state.md R37). -/
theorem State.parseMask_wf {s : State} {sets : List PatternSet} (h : s.parseMask = .ok sets) : maskWf sets = true := by
  unfold State.parseMask at h
  split at h
  next => cases h
  next l hlines =>
    obtain ⟨hfull, -⟩ : mskGood l.msk := runLines_mskGood _ _ _ l hlines
    by_cases hrows : l.msk.state = .rows
    · rw [maskTable_incomplete hrows] at h; cases h
    by_cases hempty : l.msk.sets = []
    · rw [maskTable_empty hrows hempty] at h; cases h
    rw [maskTable_sets hrows hempty] at h
    obtain rfl := Except.ok.inj h
    exact (maskWf_iff _).2 ⟨hempty, hfull⟩

theorem endsWithResult_ldmask (s : State) : EndsWithResult .ldmask s := by
  refine endsWithResult_of_runCommand (exec_ldmask s) fun _ t ht => ?_
  cases hparse : s.parseMask with
  | error e => rw [hparse] at ht; cases ht
  | ok sets =>
    rw [hparse] at ht
    obtain rfl := Except.ok.inj ht
    exact .mask rfl sets (State.parseMask_wf hparse)

/-- Every gamma table the loader commits is a valid slot (10_state.md R39). -/
theorem State.parseGamma_wf {s : State} {g : GammaTable} (h : s.parseGamma = .ok g) : g.wf = true := by
  unfold State.parseGamma at h
  split at h
  next => cases h
  next l _ =>
    by_cases hcount : l.gam.lut.length = 256
    · rw [gammaTable_full hcount] at h
      obtain rfl := Except.ok.inj h
      exact channels_wf hcount
    · rw [gammaTable_sizeMismatch hcount] at h; cases h

theorem endsWithResult_ldgamma (s : State) : EndsWithResult .ldgamma s := by
  refine endsWithResult_of_runCommand (exec_ldgamma s) fun _ t ht => ?_
  cases hparse : s.parseGamma with
  | error e => rw [hparse] at ht; cases ht
  | ok g =>
    rw [hparse] at ht
    obtain rfl := Except.ok.inj ht
    exact .gamma g (State.parseGamma_wf hparse)

/-! ### The stages -/

/-- A command of one stage. -/
theorem endsWithResult_stage {i : Instr} {s : State} {needs : List (Bool × CmdError)} (st : Stage)
    (hexec : exec i s = runCommand s needs fun s => .ok (doStage st s))
    (hplan : (∀ c ∈ needs, c.1 = true) → PlanOk s.csr [st]) : EndsWithResult i s := by
  refine endsWithResult_of_runCommand hexec fun hneeds t ht => ?_
  obtain rfl := Except.ok.inj ht
  exact .stages [st] (hplan hneeds)

theorem endsWithResult_gamma (s : State) : EndsWithResult .gamma s :=
  endsWithResult_stage .gamma (exec_gamma s) fun _ => ⟨by simp, by simp⟩

theorem endsWithResult_hresample (s : State) : EndsWithResult .hresample s := by
  refine endsWithResult_stage .hresample (exec_hresample s) fun hneeds => ⟨fun _ => ?_, by simp⟩
  exact of_decide_eq_true (hneeds (decide (1 ≤ s.csr.dstW.toNat), .notReady) (by simp [hresampleNeeds]))

theorem endsWithResult_vresample (s : State) : EndsWithResult .vresample s := by
  refine endsWithResult_stage .vresample (exec_vresample s) fun hneeds => ⟨by simp, fun _ => ?_⟩
  exact of_decide_eq_true (hneeds (decide (1 ≤ s.csr.dstH.toNat), .notReady) (by simp [vresampleNeeds]))

theorem endsWithResult_selpat (s : State) : EndsWithResult .selpat s :=
  endsWithResult_stage .selpat (exec_selpat s) fun _ => ⟨by simp, by simp⟩

theorem endsWithResult_mask (s : State) : EndsWithResult .mask s :=
  endsWithResult_stage .mask (exec_mask s) fun _ => ⟨by simp, by simp⟩

theorem endsWithResult_run (s : State) : EndsWithResult .run s := by
  refine endsWithResult_of_runCommand (exec_run s) fun hneeds t ht => ?_
  obtain rfl := Except.ok.inj ht
  exact .stages (runPlan s)
    ⟨fun _ => of_decide_eq_true (hneeds (decide (1 ≤ s.csr.dstW.toNat), .notReady) (by simp [runNeeds])),
      fun _ => of_decide_eq_true (hneeds (decide (1 ≤ s.csr.dstH.toNat), .notReady) (by simp [runNeeds]))⟩

/-! ### The placements -/

theorem Placement.wf_iff (p : Placement) : p.wf = true ↔ 1 ≤ p.sden ∧ Nat.Coprime p.snum p.sden := by
  simp only [Placement.wf, Bool.and_eq_true, decide_eq_true_iff, Nat.Coprime]

theorem centred_wf (outW outH w h sn : Nat) {sd : Nat} (hsd : 1 ≤ sd) : (centred outW outH w h sn sd).wf = true := by
  obtain ⟨hpos, hcoprime, -⟩ := centred_scale outW outH w h sn hsd
  exact (Placement.wf_iff _).2 ⟨hpos, hcoprime⟩

theorem placeFullResult_wf (r : HostRegs) : (placeFullResult r).wf = true :=
  (Placement.wf_iff _).2 ⟨le_rfl, Nat.coprime_one_right 0⟩

theorem placeFitResult_wf {r : HostRegs} (hw : 1 ≤ r.srcW.toNat) (hh : 1 ≤ r.srcH.toNat) : (placeFitResult r).wf = true := by
  rw [placeFitResult_eq hw hh]
  exact centred_wf _ _ _ _ _ (fitScale_den_pos hw hh)

theorem stepDen_pos (mode : Word) : 1 ≤ stepDen mode := by
  unfold stepDen
  split
  next => decide
  next => split <;> decide

theorem placeVscaleResult_wf (r : HostRegs) : (placeVscaleResult r).wf = true :=
  centred_wf _ _ _ _ _ (stepDen_pos r.vscaleMode)

/-- A placement in each mode, by the instruction that runs it. -/
theorem endsWithResult_fullPlacement {i : Instr} {s : State} (hexec : exec i s = fullPlacement s) : EndsWithResult i s := by
  unfold EndsWithResult
  rw [hexec]
  rcases fullPlacement_frame s with hplaced | hraised
  · exact .inr ⟨s.withPlacement (placeFullResult s.csr), .placement _ (placeFullResult_wf s.csr), hplaced⟩
  · exact .inl hraised

theorem endsWithResult_fitPlacement {i : Instr} {s : State} (hexec : exec i s = fitPlacement s) : EndsWithResult i s := by
  unfold EndsWithResult
  rw [hexec]
  rcases fitPlacement_frame s with ⟨hw, hh, hplaced⟩ | hraised
  · exact .inr ⟨s.withPlacement (placeFitResult s.csr), .placement _ (placeFitResult_wf hw hh), hplaced⟩
  · exact .inl hraised

theorem endsWithResult_vscalePlacement {i : Instr} {s : State} (hexec : exec i s = vscalePlacement s) : EndsWithResult i s := by
  unfold EndsWithResult
  rw [hexec]
  rcases vscalePlacement_frame s with hplaced | hraised
  · exact .inr ⟨s.withPlacement (placeVscaleResult s.csr), .placement _ (placeVscaleResult_wf s.csr), hplaced⟩
  · exact .inl hraised

/-- `PLACE`: the mode register chooses the placement, or is illegal (46_placement.md R290, R291). -/
theorem endsWithResult_place (s : State) : EndsWithResult .place s := by
  have hexec : exec .place s = execPlace s := exec_place s
  unfold execPlace at hexec
  split at hexec
  next => exact endsWithResult_fullPlacement hexec
  next =>
    split at hexec
    next => exact endsWithResult_fitPlacement hexec
    next =>
      split at hexec
      next => exact endsWithResult_vscalePlacement hexec
      next => exact .inl ⟨_, hexec⟩

/-! ### Every instruction -/

/-- Every command but `NOP`. -/
theorem exec_command_result {i : Instr} (hi : commandInstr i = true) (hnop : i ≠ .nop) (s : State) : EndsWithResult i s := by
  cases i with
  | nop => exact absurd rfl hnop
  | ldframe => exact endsWithResult_ldframe s
  | ldfiltH => exact endsWithResult_ldfilt s false
  | ldfiltV => exact endsWithResult_ldfilt s true
  | ldmask => exact endsWithResult_ldmask s
  | ldgamma => exact endsWithResult_ldgamma s
  | gamma => exact endsWithResult_gamma s
  | hresample => exact endsWithResult_hresample s
  | vresample => exact endsWithResult_vresample s
  | selpat => exact endsWithResult_selpat s
  | mask => exact endsWithResult_mask s
  | run => exact endsWithResult_run s
  | place => exact endsWithResult_place s
  | placeFull => exact endsWithResult_fullPlacement (exec_placeFull s)
  | placeFit => exact endsWithResult_fitPlacement (exec_placeFit s)
  | placeVscale => exact endsWithResult_vscalePlacement (exec_placeVscale s)
  | _ => exact absurd hi (by simp [commandInstr, Instr.format])

/-- The four ends of an instruction: a line or element changes the loader's working values, `NOP` acknowledges, a command
completes with a result, and anything but `NOP` may take an error instead. -/
inductive ExecEnd (i : Instr) (s : State) : State → Prop
  | loader (hi : commandInstr i = false) (l : Loader) : ExecEnd i s { s with ld := l }
  | ack (hi : i = .nop) : ExecEnd i s s.ack
  | raise (e : Raise) : ExecEnd i s (s.raise e)
  | complete (hi : commandInstr i = true) (t : State) (ht : CommandResult i s t) : ExecEnd i s t.complete

/-- No instruction stops the machine. -/
theorem exec_ends (i : Instr) (s : State) : ∃ t, exec i s = .next t ∧ ExecEnd i s t := by
  cases hi : commandInstr i with
  | false =>
    obtain ⟨op, hop⟩ : ∃ op, loaderOp s.lim i = some op := by
      rw [← Option.isSome_iff_exists, ← Option.not_isNone, loaderOp_isNone, hi]; rfl
    rcases loaderStep_cases s (op s.ld) with ⟨l, -, hok⟩ | ⟨e, -, herr⟩
    · exact ⟨_, (exec_line i s op hop).trans hok, .loader hi l⟩
    · exact ⟨_, (exec_line i s op hop).trans herr, .raise e⟩
  | true =>
    by_cases hnop : i = .nop
    · exact ⟨s.ack, by rw [hnop, exec_nop], .ack hnop⟩
    · rcases exec_command_result hi hnop s with ⟨e, hraised⟩ | ⟨t, ht, hcompleted⟩
      · exact ⟨_, hraised, .raise e⟩
      · exact ⟨_, hcompleted, .complete hi t ht⟩

theorem execEnd_of_next {i : Instr} {s t : State} (h : exec i s = .next t) : ExecEnd i s t := by
  obtain ⟨u, hu, hend⟩ := exec_ends i s
  obtain rfl := Host.Outcome.next.inj (h.symm.trans hu)
  exact hend

/-! ### What instructions leave unchanged -/

theorem afterStages_bodyFrame (s : State) (plan : List Stage) : BodyFrame s (s.afterStages plan) := by
  rw [State.afterStages, foldStages_frame]
  exact ⟨rfl, rfl, rfl, rfl, rfl, rfl, rfl, rfl⟩

theorem CommandResult.bodyFrame {i : Instr} {s t : State} (h : CommandResult i s t) : BodyFrame s t := by
  cases h with
  | frame => exact ⟨rfl, rfl, rfl, rfl, rfl, rfl, rfl, rfl⟩
  | filter => exact ⟨rfl, rfl, rfl, rfl, rfl, rfl, rfl, rfl⟩
  | mask => exact ⟨rfl, rfl, rfl, rfl, rfl, rfl, rfl, rfl⟩
  | gamma => exact ⟨rfl, rfl, rfl, rfl, rfl, rfl, rfl, rfl⟩
  | stages plan => exact afterStages_bodyFrame s plan
  | placement => exact ⟨rfl, rfl, rfl, rfl, rfl, rfl, rfl, rfl⟩

theorem ack_completed (s : State) : Completed s s.ack :=
  ⟨rfl, id, rfl, fun _ => rfl, fun _ => rfl, rfl, rfl, rfl, rfl⟩

/-- Settles O21: of the four ends of an instruction a command has three, and two of them complete. -/
theorem commandCompletesOrRaises : Obligations.CommandCompletesOrRaises := by
  intro i s hi
  obtain ⟨t, hexec, hend⟩ := exec_ends i s
  cases hend with
  | loader hi' => exact absurd (hi.symm.trans hi') (by decide)
  | ack => exact .inl ⟨_, hexec, ack_completed s⟩
  | raise e => exact .inr ⟨e, hexec⟩
  | complete _ t ht => exact .inl ⟨_, hexec, complete_completed s t ht.bodyFrame⟩

/-- What no instruction changes, whatever it ends with: the ports and the RW registers, and the model's own fields but the draw
counter. -/
structure HostSideKept (s t : State) : Prop where
  txt : t.txt = s.txt
  fin : t.fin = s.fin
  csr : t.csr = s.csr
  feed : t.feed = s.feed
  lim : t.lim = s.lim
  rd : t.rd = s.rd
  resets : t.resets = s.resets

theorem ExecEnd.hostSideKept {i : Instr} {s t : State} (h : ExecEnd i s t) : HostSideKept s t := by
  cases h with
  | loader => exact ⟨rfl, rfl, rfl, rfl, rfl, rfl, rfl⟩
  | ack => exact ⟨rfl, rfl, rfl, rfl, rfl, rfl, rfl⟩
  | raise => exact ⟨rfl, rfl, rfl, rfl, rfl, rfl, rfl⟩
  | complete _ t ht =>
    have hframe := ht.bodyFrame
    exact ⟨hframe.txt, hframe.fin, hframe.csr, hframe.feed, hframe.lim, hframe.rd, hframe.resets⟩

/-- Settles O23: no end of an instruction writes a port or an RW register, and what these registers read is a view of them. -/
theorem instructionsKeepPortsAndRegisters : Obligations.InstructionsKeepPortsAndRegisters := by
  intro i s t hexec
  have hkept := (execEnd_of_next hexec).hostSideKept
  refine ⟨fun k => by rw [hkept.txt], fun k => by rw [hkept.fin], fun n hlo hhi => ?_, hkept.feed, hkept.lim, hkept.rd,
    hkept.resets⟩
  rw [regRead_rw t ⟨hlo, hhi⟩, regRead_rw s ⟨hlo, hhi⟩, hkept.csr]

end Sys2Proof.Machine
end

section
/-! The invariant and what only reset clears (10_state.md R22 to R40, 70_reset_and_hazards.md R392). First the step, taken apart once:
the moves that are done with the fetch, and the instructions. Then both statements, end by end. -/

namespace Sys2Proof.Machine

/-! ### The step -/

/-- What a move that is done with the fetch makes of the state: it takes an error, changes an operand or the host's latch, writes
a port, or resets. -/
inductive MoveResult (it : FeedItem) (s : State) : State → Prop
  | raise (e : Raise) : MoveResult it s (s.raise e)
  | registers (r : HostRegs) (rd : HostRead) : MoveResult it s { s with csr := r, rd := rd }
  | txt (i : Nat) (bytes : List Byte) : MoveResult it s { s with txt := s.txt.writeRange i bytes }
  | fin (i : Nat) (bytes : List Byte) : MoveResult it s { s with fin := s.fin.writeRange i bytes }
  | reset (hit : it = .host .reset) : MoveResult it s s.platformReset

/-- The entry carries a word of a format, and the word is the instruction in some context: a write to `CMD` its code, a unit its
own bytes. -/
def Carries (it : FeedItem) (i : Instr) : Prop :=
  (∃ v c, it = .host (.writeReg 0 v) ∧ decode .cmd8 c [v.setWidth 8] = .ok i) ∨
    ∃ f c bytes, it = .unit f bytes ∧ decode f c bytes = .ok i

/-- What the fetch answers, but for faults and refusals. -/
inductive FetchResult (it : FeedItem) (s : State) : Fetched → Prop
  | done (t : State) (ht : MoveResult it s t) : FetchResult it s (.done t)
  | instr (i : Instr) (l : Loader) (hi : Carries it i) : FetchResult it s (.instr i { s with ld := l })
  | fault (f : Fault) : FetchResult it s (.fault f)
  | refused (r : Refusal) : FetchResult it s (.refused r)

theorem issue_result (s : State) (v : Word) : FetchResult (.host (.writeReg 0 v)) s (s.issue v) := by
  unfold State.issue
  split
  next i hdecode => exact .instr i s.ld (.inl ⟨v, s.ctx, rfl, hdecode⟩)
  next =>
    split
    next e _ => exact .done _ (.raise e)
    next => exact .refused _

/-- A unit changes the line number before it is decoded. -/
theorem State.unitStart_eq (s : State) (f : Format) : s.unitStart f = { s with ld := (s.unitStart f).ld } := by
  cases f <;> rfl

theorem unitMove_result (s : State) (f : Format) (bytes : List Byte) : FetchResult (.unit f bytes) s (s.unitMove f bytes) := by
  unfold State.unitMove
  split
  next i hdecode =>
    rw [s.unitStart_eq f]
    exact .instr i _ (.inr ⟨f, _, bytes, rfl, hdecode⟩)
  next =>
    split
    next e _ =>
      have hraise : (s.unitStart f).raise e = s.raise e := by rw [s.unitStart_eq f]; rfl
      rw [hraise]
      exact .done _ (.raise e)
    next => exact .refused _

/-- Everything the fetch can answer. -/
theorem fetch_result (s : State) (it : FeedItem) : FetchResult it s (s.fetch it) := by
  cases it with
  | unit f bytes => exact unitMove_result s f bytes
  | host m =>
    cases m with
    | writeReg n v =>
      by_cases hn : n = 0
      · subst hn
        exact issue_result s v
      · have hwrite : s.fetch (.host (.writeReg n v)) = .done (s.hostWrite n v) := if_neg hn
        rw [hwrite]
        exact .done _ (.registers _ s.rd)
    | readReg n => exact .done _ (.registers s.csr _)
    | writeTxt i bytes => exact .done _ (.txt i bytes)
    | writeFin i bytes => exact .done _ (.fin i bytes)
    | readTxt i => exact .done _ (.registers s.csr _)
    | readFin i => exact .done _ (.registers s.csr _)
    | readPixel y x =>
      show FetchResult _ s (s.hostPixel y x)
      unfold State.hostPixel
      split
      next => exact .fault _
      next =>
        split
        next => exact .done _ (.registers s.csr _)
        next => exact .fault _
    | readFrameByte k =>
      show FetchResult _ s (s.hostFrameByte k)
      unfold State.hostFrameByte
      split
      next => exact .fault _
      next =>
        split
        next => exact .fault _
        next => exact .done _ (.registers s.csr _)
    | reset => exact .done _ (.reset rfl)

/-- The ways a step answers a next state: it holds the state, it is done with the fetch, or it ends an instruction. -/
inductive StepEnd (s : State) : State → Prop
  | idle : StepEnd s s
  | move (it : FeedItem) (rest : List FeedItem) (hfeed : s.feed = it :: rest) (t : State)
      (ht : MoveResult it { s with feed := rest } t) : StepEnd s t
  | instr (it : FeedItem) (rest : List FeedItem) (hfeed : s.feed = it :: rest) (i : Instr) (l : Loader) (hi : Carries it i)
      (t : State) (ht : ExecEnd i { s with feed := rest, ld := l } t) : StepEnd s t

theorem stepEnd_of_next {s t : State} (h : step s = .next t) : StepEnd s t := by
  cases hfeed : s.feed with
  | nil =>
    obtain rfl := Host.Outcome.next.inj ((step_idle s hfeed).symm.trans h)
    exact .idle
  | cons it rest =>
    rw [step_cons s it rest hfeed] at h
    have hresult := fetch_result { s with feed := rest } it
    generalize ({ s with feed := rest } : State).fetch it = fetched at h hresult
    cases hresult with
    | done u hu =>
      obtain rfl := Host.Outcome.next.inj h
      exact .move it rest hfeed _ hu
    | instr i l hi => exact .instr it rest hfeed i l hi t (execEnd_of_next h)
    | fault => cases h
    | refused => cases h

/-! ### The invariant -/

/-- The invariant but for the sequencer, which moves inside a command: every part of the state is valid. -/
structure State.Valid (s : State) : Prop where
  txt : s.txt.wf = true
  fin : s.fin.wf = true
  status : s.status.wf = true
  filtH : s.tables.filtH.all FilterSlot.wf = true
  filtV : s.tables.filtV.all FilterSlot.wf = true
  mask : s.tables.mask.all maskWf = true
  gamma : s.tables.gamma.all GammaTable.wf = true
  sel : selWf s.tables.mask s.sel = true
  pl : s.pl.all Placement.wf = true
  wf : s.wf.all Frame.wf = true

theorem inv_iff (s : State) : s.Inv ↔ s.seq = .idle ∧ s.Valid := by
  simp only [State.Inv, State.wellFormed, Bool.and_eq_true, decide_eq_true_iff]
  constructor
  · rintro ⟨⟨⟨⟨⟨⟨⟨⟨⟨⟨htxt, hfin⟩, hseq⟩, hstatus⟩, hfiltH⟩, hfiltV⟩, hmask⟩, hgamma⟩, hsel⟩, hpl⟩, hwf⟩
    exact ⟨hseq, htxt, hfin, hstatus, hfiltH, hfiltV, hmask, hgamma, hsel, hpl, hwf⟩
  · rintro ⟨hseq, htxt, hfin, hstatus, hfiltH, hfiltV, hmask, hgamma, hsel, hpl, hwf⟩
    exact ⟨⟨⟨⟨⟨⟨⟨⟨⟨⟨htxt, hfin⟩, hseq⟩, hstatus⟩, hfiltH⟩, hfiltV⟩, hmask⟩, hgamma⟩, hsel⟩, hpl⟩, hwf⟩

/-- Taking an error leaves a legal status and changes nothing else that the invariant speaks of. -/
theorem State.Valid.raise {s : State} (h : s.Valid) (e : Raise) : (s.raise e).Inv :=
  (inv_iff _).2 ⟨rfl, { h with status := rfl }⟩

/-- So does completing. -/
theorem State.Valid.complete {s : State} (h : s.Valid) : s.complete.Inv :=
  (inv_iff _).2 ⟨rfl, { h with status := rfl }⟩

/-! ### The stages -/

theorem State.Valid.frame_wf {s : State} (h : s.Valid) {f : Frame} (hf : s.wf = some f) : f.wf = true := by
  simpa [hf] using h.wf

theorem State.Valid.mask_wf {s : State} (h : s.Valid) {sets : List PatternSet} (hsets : s.tables.mask = some sets) :
    maskWf sets = true := by
  simpa [hsets] using h.mask

/-- A stage that puts a full frame in place of another keeps the state valid. -/
theorem State.Valid.withFrame {s : State} (h : s.Valid) (st : Stage) {f : Frame} (hf : f.wf = true) :
    ({ s.enter st with wf := some f } : State).Valid :=
  { h with wf := hf }

theorem State.Valid.enter {s : State} (h : s.Valid) (st : Stage) : (s.enter st).Valid := { h with }

theorem stageGamma_valid {s : State} (h : s.Valid) : (stageGamma s).Valid := by
  unfold stageGamma
  split
  next f t hf _ => exact h.withFrame _ (gammaFrame_wf t f (h.frame_wf hf))
  next => exact h.enter _

theorem stageHresample_valid {s : State} (h : s.Valid) (hdst : 1 ≤ s.csr.dstW.toNat) : (stageHresample s).Valid := by
  unfold stageHresample
  split
  next => exact h
  next fr hfr =>
    split
    next => exact h
    next =>
      split
      next => exact h
      next f _ => exact h.withFrame _ (hresampleFrame_wf f _ fr (h.frame_wf hfr) hdst s.csr.dstW.isLt)

theorem stageVresample_valid {s : State} (h : s.Valid) (hdst : 1 ≤ s.csr.dstH.toNat) : (stageVresample s).Valid := by
  unfold stageVresample
  split
  next => exact h
  next fr hfr =>
    split
    next => exact h
    next =>
      split
      next => exact h
      next f _ => exact h.withFrame _ (vresampleFrame_wf f _ fr (h.frame_wf hfr) hdst s.csr.dstH.isLt)

/-- The latch `SELPAT` writes names a set of the slot (10_state.md R38). -/
theorem selWf_selectSet (T : Nat) {sets : List PatternSet} (h : maskWf sets = true) :
    ∃ c, selectSet T sets = some c ∧ selWf (some sets) (some (latchOf c)) = true := by
  obtain ⟨hne, -⟩ := (maskWf_iff sets).1 h
  obtain ⟨n, p, hselect, hget, -⟩ := selectSet_spec T hne
  refine ⟨(n, p), hselect, ?_⟩
  simp only [selWf, show (latchOf (n, p)).idx = n from rfl, hget, decide_true]

theorem stageSelpat_valid {s : State} (h : s.Valid) : (stageSelpat s).Valid := by
  unfold stageSelpat
  split
  next => exact h.enter _
  next sets hsets =>
    obtain ⟨c, hselect, hsel⟩ := selWf_selectSet s.csr.outH.toNat (h.mask_wf hsets)
    refine { h with sel := ?_ }
    rw [hselect, State.enter_tables, hsets]
    exact hsel

theorem stageMask_valid {s : State} (h : s.Valid) : (stageMask s).Valid := by
  unfold stageMask
  split
  next f sets sel hf _ _ => exact h.withFrame _ (maskFrame_wf _ _ _ _ f (h.frame_wf hf))
  next => exact h.enter _

/-- No stage writes an operand. -/
theorem doStage_csr (st : Stage) (s : State) : (doStage st s).csr = s.csr := by
  rw [doStage_frame]

theorem doStage_valid {s : State} (h : s.Valid) {st : Stage} (hst : PlanOk s.csr [st]) : (doStage st s).Valid := by
  cases st with
  | idle => exact h
  | load => exact h
  | place => exact h
  | gamma => exact stageGamma_valid h
  | hresample => exact stageHresample_valid h (hst.hresample (by simp))
  | vresample => exact stageVresample_valid h (hst.vresample (by simp))
  | selpat => exact stageSelpat_valid h
  | mask => exact stageMask_valid h

/-- Only `SELPAT` writes the selection, and from a valid mask it always finds a set. -/
theorem doStage_sel_isSome {s : State} (h : s.Valid) (st : Stage) (hsel : s.sel.isSome = true) :
    (doStage st s).sel.isSome = true := by
  cases st with
  | idle => exact hsel
  | load => exact hsel
  | place => exact hsel
  | gamma => rw [doStage, stageGamma_frame]; exact hsel
  | hresample => rw [doStage, stageHresample_frame]; exact hsel
  | vresample => rw [doStage, stageVresample_frame]; exact hsel
  | mask => rw [doStage, stageMask_frame]; exact hsel
  | selpat =>
    rw [doStage]
    cases hmask : s.tables.mask with
    | none => rw [stageSelpat, hmask]; exact hsel
    | some sets =>
      obtain ⟨c, hselect, -⟩ := selWf_selectSet s.csr.outH.toNat (h.mask_wf hmask)
      rw [stageSelpat_sel hmask, hselect]
      rfl

/-- The stages of a plan keep the state valid and do not lose the selection. -/
theorem afterStages_valid (plan : List Stage) : ∀ {s : State}, s.Valid → PlanOk s.csr plan →
    (s.afterStages plan).Valid ∧ (s.sel.isSome = true → (s.afterStages plan).sel.isSome = true) := by
  induction plan with
  | nil => exact fun h _ => ⟨h, id⟩
  | cons st plan ih =>
    intro s h hplan
    have hfirst : PlanOk s.csr [st] :=
      ⟨fun hm => hplan.hresample (by simp_all), fun hm => hplan.vresample (by simp_all)⟩
    have hrest : PlanOk (doStage st s).csr plan := by
      rw [doStage_csr]
      exact ⟨fun hm => hplan.hresample (List.mem_cons_of_mem _ hm), fun hm => hplan.vresample (List.mem_cons_of_mem _ hm)⟩
    obtain ⟨hvalid, hsel⟩ := ih (doStage_valid h hfirst) hrest
    exact ⟨hvalid, fun hs => hsel (doStage_sel_isSome h st hs)⟩

/-! ### Every step keeps the invariant -/

theorem CommandResult.valid {i : Instr} {s t : State} (h : CommandResult i s t) (hs : s.Valid) : t.Valid := by
  cases h with
  | frame bs hw hh hlen =>
    exact hs.withFrame _ (frameOf_wf hw hh s.csr.frmW.isLt s.csr.frmH.isLt (pixelsOf_length bs _ hlen).ge)
  | filter v f hf =>
    cases v with
    | false => exact { hs with filtH := hf }
    | true => exact { hs with filtV := hf }
  | mask _ sets hsets => exact { hs with mask := hsets, sel := rfl }
  | gamma g hg => exact { hs with gamma := hg }
  | stages plan hplan => exact (afterStages_valid plan hs hplan).1
  | placement p hp => exact { hs with pl := hp }

theorem ExecEnd.inv {i : Instr} {s t : State} (h : ExecEnd i s t) (hs : s.Inv) : t.Inv := by
  obtain ⟨hseq, hvalid⟩ := (inv_iff s).1 hs
  cases h with
  | loader => exact (inv_iff _).2 ⟨hseq, { hvalid with }⟩
  | ack => exact (inv_iff _).2 ⟨hseq, { hvalid with status := rfl }⟩
  | raise e => exact hvalid.raise e
  | complete _ t ht => exact (ht.valid hvalid).complete

theorem MoveResult.inv {it : FeedItem} {s t : State} (h : MoveResult it s t) (hs : s.Inv) : t.Inv := by
  obtain ⟨hseq, hvalid⟩ := (inv_iff s).1 hs
  cases h with
  | raise e => exact hvalid.raise e
  | registers => exact (inv_iff _).2 ⟨hseq, { hvalid with }⟩
  | txt i bytes => exact (inv_iff _).2 ⟨hseq, { hvalid with txt := Memory.writeRange_wf _ i bytes hvalid.txt }⟩
  | fin i bytes => exact (inv_iff _).2 ⟨hseq, { hvalid with fin := Memory.writeRange_wf _ i bytes hvalid.fin }⟩
  | reset => exact resetKeepsTheInvariant

/-- Settles O18: the invariant says nothing of the feed, and each end of a step keeps it. -/
theorem stepKeepsTheInvariant : Obligations.StepKeepsTheInvariant := by
  intro s t hs hstep
  cases stepEnd_of_next hstep with
  | idle => exact hs
  | move it rest _ _ ht => exact ht.inv hs
  | instr it rest _ i l _ _ ht => exact ht.inv hs

/-! ### What only reset clears -/

/-- `ESTICKY`, the slots, the frame and the placement result stay set or valid. -/
structure StaysValid (s t : State) : Prop where
  esticky : s.status.esticky = true → t.status.esticky = true
  filtH : s.tables.filtH.isSome = true → t.tables.filtH.isSome = true
  filtV : s.tables.filtV.isSome = true → t.tables.filtV.isSome = true
  mask : s.tables.mask.isSome = true → t.tables.mask.isSome = true
  gamma : s.tables.gamma.isSome = true → t.tables.gamma.isSome = true
  wf : s.wf.isSome = true → t.wf.isSome = true
  pl : s.pl.isSome = true → t.pl.isSome = true

theorem StaysValid.refl (s : State) : StaysValid s s := ⟨id, id, id, id, id, id, id⟩

theorem StaysValid.raise (s : State) (e : Raise) : StaysValid s (s.raise e) := ⟨fun _ => rfl, id, id, id, id, id, id⟩

/-- No stage touches a slot, the placement result or the status, and none loses the frame. -/
theorem afterStages_staysValid (s : State) (plan : List Stage) : StaysValid s (s.afterStages plan) := by
  have hwf := foldStages_wf_isSome plan s
  rw [State.afterStages, foldStages_frame]
  exact ⟨id, id, id, id, id, hwf.symm ▸ id, id⟩

theorem CommandResult.staysValid {i : Instr} {s t : State} (h : CommandResult i s t) : StaysValid s t := by
  cases h with
  | frame => exact ⟨id, id, id, id, id, fun _ => rfl, id⟩
  | filter v f =>
    cases v with
    | false => exact ⟨id, fun _ => rfl, id, id, id, id, id⟩
    | true => exact ⟨id, id, fun _ => rfl, id, id, id, id⟩
  | mask => exact ⟨id, id, id, fun _ => rfl, id, id, id⟩
  | gamma => exact ⟨id, id, id, id, fun _ => rfl, id, id⟩
  | stages plan => exact afterStages_staysValid s plan
  | placement => exact ⟨id, id, id, id, id, id, fun _ => rfl⟩

theorem ExecEnd.staysValid {i : Instr} {s t : State} (h : ExecEnd i s t) : StaysValid s t := by
  cases h with
  | loader => exact { StaysValid.refl s with }
  | ack => exact { StaysValid.refl s with }
  | raise e => exact StaysValid.raise s e
  | complete _ t ht => exact { ht.staysValid with }

theorem MoveResult.staysValid {it : FeedItem} {s t : State} (h : MoveResult it s t) (hit : it ≠ .host .reset) :
    StaysValid s t := by
  cases h with
  | raise e => exact StaysValid.raise s e
  | registers => exact { StaysValid.refl s with }
  | txt => exact { StaysValid.refl s with }
  | fin => exact { StaysValid.refl s with }
  | reset h => exact absurd h hit

/-! ### What clears the selection -/

/-- Of the results only a loaded mask clears the selection. -/
theorem CommandResult.sel_isSome {i : Instr} {s t : State} (h : CommandResult i s t) (hs : s.Valid) (hi : i ≠ .ldmask)
    (hsel : s.sel.isSome = true) : t.sel.isSome = true := by
  cases h with
  | frame => exact hsel
  | filter => exact hsel
  | mask hi' => exact absurd hi' hi
  | gamma => exact hsel
  | stages plan hplan => exact (afterStages_valid plan hs hplan).2 hsel
  | placement => exact hsel

theorem ExecEnd.sel_isSome {i : Instr} {s t : State} (h : ExecEnd i s t) (hs : s.Valid) (hi : i ≠ .ldmask)
    (hsel : s.sel.isSome = true) : t.sel.isSome = true := by
  cases h with
  | loader => exact hsel
  | ack => exact hsel
  | raise => exact hsel
  | complete _ t ht => exact ht.sel_isSome hs hi hsel

theorem MoveResult.sel_isSome {it : FeedItem} {s t : State} (h : MoveResult it s t) (hit : it ≠ .host .reset)
    (hsel : s.sel.isSome = true) : t.sel.isSome = true := by
  cases h with
  | raise => exact hsel
  | registers => exact hsel
  | txt => exact hsel
  | fin => exact hsel
  | reset h => exact absurd h hit

theorem decodeCmd_ldmask {code : Byte} (h : decodeCmd code = .ok .ldmask) : code = 0x12#8 := by
  unfold decodeCmd at h
  split at h
  case h_5 hcode => exact BitVec.eq_of_toNat_eq hcode
  all_goals simp at h

theorem decodeCmdReg_ldmask {c : Ctx} {code : Byte} (h : decodeCmdReg c code = .ok .ldmask) : code = 0x12#8 := by
  unfold decodeCmdReg at h
  split at h
  next =>
    have hplace : placeVariant c ≠ .ldmask := by
      unfold placeVariant
      split
      next => simp
      next =>
        split
        next => simp
        next => split <;> simp
    exact absurd (Except.ok.inj h) hplace
  next => exact decodeCmd_ldmask h

/-- What a filter line decodes to is a filter line. -/
theorem decodeFlt_format (nb : Nat) (line : Text) : (decodeFlt nb line).format = .fltLine := by
  unfold decodeFlt
  split
  next => rfl
  next =>
    split
    next => rfl
    next =>
      split
      next => rfl
      next => split <;> rfl

theorem decodeMsk_format {st : MaskState} {line : Text} {i : Instr} (h : decodeMsk st line = .ok i) : i.format = .mskLine := by
  by_cases hblank : Text.trim line = []
  · rw [decodeMsk_blank st hblank] at h; cases h; rfl
  by_cases hcomment : (Text.trim line).head? = some Text.hash
  · rw [decodeMsk_comment st (eq_cons_tail_of_head? hcomment)] at h; cases h; rfl
  by_cases hres : Text.tokResolution <+: Text.trim line
  · obtain ⟨rest, hrest⟩ := hres
    rw [decodeMsk_res st hrest.symm] at h; cases h; rfl
  rw [decodeMsk_data st hblank hcomment hres] at h
  split at h
  next => cases h
  next =>
    split at h
    next => cases h; rfl
    next => split at h <;> cases h <;> rfl

theorem decodeGam_format (line : Text) : (decodeGam line).format = .gamLine := by
  unfold decodeGam
  split
  next => rfl
  next =>
    split
    next => rfl
    next => split <;> rfl

/-- `LDMASK` is written as its code in one of the two command formats (30_encoding.md R94). -/
theorem decode_ldmask {f : Format} {c : Ctx} {bytes : List Byte} (h : decode f c bytes = .ok .ldmask) :
    (f = .cmd8 ∨ f = .cmd8reg) ∧ bytes = [0x12#8] := by
  cases f with
  | cmd8 =>
    match bytes with
    | [code] => exact ⟨.inl rfl, by rw [decodeCmd_ldmask h]⟩
    | [] => cases h
    | _ :: _ :: _ => cases h
  | cmd8reg =>
    match bytes with
    | [code] => exact ⟨.inr rfl, by rw [decodeCmdReg_ldmask h]⟩
    | [] => cases h
    | _ :: _ :: _ => cases h
  | fltLine => exact absurd (congrArg Instr.format (Except.ok.inj h)) (by rw [decodeFlt_format]; decide)
  | mskLine => exact absurd (decodeMsk_format h) (by decide)
  | gamLine => exact absurd (congrArg Instr.format (Except.ok.inj h)) (by rw [decodeGam_format]; decide)
  | cell11 =>
    rw [decode, decodeCell] at h
    split at h
    next => split at h <;> cases h
    next => cases h
  | coef32 =>
    rw [decode, decodeCoef] at h
    split at h <;> cases h
  | gam8 =>
    rw [decode] at h
    unfold decodeGam8 at h
    split at h <;> cases h
  | pix32 =>
    rw [decode] at h
    unfold decodePix at h
    split at h <;> cases h

/-- The entries that issue `LDMASK`. -/
theorem carries_ldmask {it : FeedItem} (h : Carries it .ldmask) :
    (∃ v : Word, it = .host (.writeReg 0 v) ∧ v.toNat % 256 = 0x12) ∨ it = .unit .cmd8 [0x12#8] ∨ it = .unit .cmd8reg [0x12#8] := by
  rcases h with ⟨v, c, rfl, hdecode⟩ | ⟨f, c, bytes, rfl, hdecode⟩
  · obtain ⟨-, hbytes⟩ := decode_ldmask hdecode
    refine .inl ⟨v, rfl, ?_⟩
    have hcode := congrArg BitVec.toNat (List.singleton_inj.1 hbytes)
    rwa [BitVec.toNat_setWidth] at hcode
  · obtain ⟨rfl | rfl, rfl⟩ := decode_ldmask hdecode
    · exact .inr (.inl rfl)
    · exact .inr (.inr rfl)

/-- Settles O22: each end of a step but a reset keeps what is valid, and of the instructions only `LDMASK` clears the selection. -/
theorem onlyResetClears : Obligations.OnlyResetClears := by
  intro s t hstep hreset
  obtain ⟨hstays, hsel⟩ : StaysValid s t ∧ (s.Inv → s.sel.isSome = true → t.sel = none →
      ∃ it, s.feed.head? = some it ∧ Carries it .ldmask) := by
    cases stepEnd_of_next hstep with
    | idle => exact ⟨StaysValid.refl s, fun _ hsel hnone => absurd hsel (by simp [hnone])⟩
    | move it rest hfeed _ ht =>
      have hit : it ≠ .host .reset := fun h => hreset (by rw [hfeed, h]; rfl)
      refine ⟨{ ht.staysValid hit with }, fun _ hsel hnone => ?_⟩
      exact absurd (ht.sel_isSome hit hsel) (by simp [hnone])
    | instr it rest hfeed i l hi _ ht =>
      refine ⟨{ ht.staysValid with }, fun hs hsel hnone => ⟨it, by rw [hfeed]; rfl, ?_⟩⟩
      by_cases hldmask : i = .ldmask
      · exact hldmask ▸ hi
      · exact absurd (ht.sel_isSome { ((inv_iff s).1 hs).2 with } hldmask hsel) (by simp [hnone])
  refine ⟨hstays.esticky, hstays.filtH, hstays.filtV, hstays.mask, hstays.gamma, hstays.wf, hstays.pl,
    fun hs hsome hnone => ?_⟩
  obtain ⟨it, hhead, hcarries⟩ := hsel hs hsome hnone
  rw [hhead]
  rcases carries_ldmask hcarries with ⟨v, rfl, hv⟩ | rfl | rfl
  · exact .inl ⟨v, rfl, hv⟩
  · exact .inr (.inl rfl)
  · exact .inr (.inr rfl)

end Sys2Proof.Machine
end

section
/-! Tables written out as streams and loaded again (30_encoding.md R115, R117, 95_test_vectors.md E2). First one written line in the
loop, by the round trip of the encoder; then each table's lines by induction over its rows, entries or sets. -/

namespace Sys2Proof.Machine

/-! ### Written lines in the loop -/

@[simp] theorem nextLine_flt (l : Loader) : (nextLine l).flt = l.flt := rfl

@[simp] theorem nextLine_msk (l : Loader) : (nextLine l).msk = l.msk := rfl

@[simp] theorem nextLine_gam (l : Loader) : (nextLine l).gam = l.gam := rfl

/-- A written line does what its instruction does. -/
theorem runLines_encode {lim : Config.Limits} {r : HostRegs} {i : Instr} {op : Loader → Except Raise Loader} {l l' : Loader}
    (hwf : i.wf = true) (hctx : i.admittedIn (l.ctx r) = true) (hop : loaderOp lim i = some op) (hok : op (nextLine l) = .ok l')
    (xs : List Text) : runLines i.format lim r (encode i :: xs) l = runLines i.format lim r xs l' := by
  have hline : loadLine i.format lim r (nextLine l) (encode i) = .ok l' := by
    rw [loadLine, decodeOfEncode i ((nextLine l).ctx r) hwf hctx]
    simp only [hop, hok]
  rw [runLines_cons, hline]

/-- The lines after a part that is processed without error. -/
theorem runLines_append_ok {f : Format} {lim : Config.Limits} {r : HostRegs} {xs : List Text} {l l' : Loader}
    (h : runLines f lim r xs l = .ok l') (ys : List Text) : runLines f lim r (xs ++ ys) l = runLines f lim r ys l' := by
  rw [runLines_append, h]

/-- The empty text after the last line end is a blank line. -/
theorem runLines_last {f : Format} (hf : f = .fltLine ∨ f = .mskLine ∨ f = .gamLine) (lim : Config.Limits) (r : HostRegs)
    (l : Loader) : runLines f lim r [[]] l = .ok (nextLine l) := by
  rcases hf with rfl | rfl | rfl <;> rfl

/-- The lines of a stream that was written from instructions, one for each and one blank. -/
theorem runLines_written {f : Format} (hf : f = .fltLine ∨ f = .mskLine ∨ f = .gamLine) {lim : Config.Limits} {r : HostRegs}
    {ls : List Text} (hone : ∀ x ∈ ls, Laws.oneLine x) {l l' : Loader} (h : runLines f lim r ls l = .ok l') :
    runLines f lim r (Text.lines (joinLines ls)) l = .ok (nextLine l') := by
  rw [Text.lines_joinLines hone, runLines_append_ok h, runLines_last hf]

/-! ### Filters -/

theorem rowInstr_wf (q : Quad Coef) : (rowInstr q).wf = true := by
  simp [rowInstr, Instr.wf, coefFits_toInt]

/-- The rows written out are appended one by one. -/
theorem runLines_rows (lim : Config.Limits) (r : HostRegs) (rows : List (Quad Coef)) : ∀ l : Loader,
    ∃ l', runLines .fltLine lim r ((rows.map rowInstr).map encode) l = .ok l' ∧ l'.flt.tenbit = l.flt.tenbit ∧
      l'.flt.adaptive = l.flt.adaptive ∧ l'.flt.rows = l.flt.rows ++ rows := by
  induction rows with
  | nil => exact fun l => ⟨l, rfl, rfl, rfl, by simp⟩
  | cons q rows ih =>
    intro l
    obtain ⟨l', hlines, h10, had, hrows⟩ := ih { nextLine l with flt :=
      { l.flt with rows := l.flt.rows ++ [q], nb := l.flt.nb + 1, cur := [] } }
    refine ⟨l', ?_, h10, had, by rw [hrows]; simp⟩
    exact (runLines_encode (rowInstr_wf q) rfl rfl (opFltRow_ok q (nextLine l)) _).trans hlines

/-- The mode tokens a filter is written with (95_test_vectors.md E2). -/
def modeInstrs (tenbit adaptive : Bool) : List Instr :=
  (if tenbit then [.flt10bit] else []) ++ (if adaptive then [.fltAdaptive] else [])

theorem filterInstrs_eq (f : FilterSlot) : filterInstrs f = modeInstrs f.tenbit f.adaptive ++ f.rows.map rowInstr := rfl

/-- The mode tokens set their flags and nothing else that a filter is made of. -/
theorem runLines_modes (lim : Config.Limits) (r : HostRegs) (tenbit adaptive : Bool) :
    ∃ l, runLines .fltLine lim r ((modeInstrs tenbit adaptive).map encode) Loader.start = .ok l ∧ l.flt.tenbit = tenbit ∧
      l.flt.adaptive = adaptive ∧ l.flt.rows = [] := by
  cases tenbit with
  | false =>
    cases adaptive with
    | false => exact ⟨_, rfl, rfl, rfl, rfl⟩
    | true => exact ⟨_, runLines_encode (i := .fltAdaptive) rfl rfl rfl rfl [], rfl, rfl, rfl⟩
  | true =>
    cases adaptive with
    | false => exact ⟨_, runLines_encode (i := .flt10bit) rfl rfl rfl rfl [], rfl, rfl, rfl⟩
    | true =>
      exact ⟨_, (runLines_encode (i := .flt10bit) rfl rfl rfl rfl [encode .fltAdaptive]).trans
        (runLines_encode (i := .fltAdaptive) rfl rfl rfl rfl []), rfl, rfl, rfl⟩

theorem filterInstrs_oneLine (f : FilterSlot) : ∀ x ∈ (filterInstrs f).map encode, Laws.oneLine x := by
  have hmodes : ∀ i ∈ modeInstrs f.tenbit f.adaptive, Laws.oneLine (encode i) := by
    intro i hi
    simp only [modeInstrs, List.mem_append, List.mem_ite_nil_right, List.mem_singleton] at hi
    rcases hi with ⟨-, rfl⟩ | ⟨-, rfl⟩
    · exact Laws.OneLine.flt10bit rfl (.inl rfl)
    · exact Laws.OneLine.fltAdaptive rfl (.inl rfl)
  rw [filterInstrs_eq, List.forall_mem_map]
  intro i hi
  rcases List.mem_append.1 hi with hi | hi
  · exact hmodes i hi
  · obtain ⟨q, -, rfl⟩ := List.mem_map.1 hi
    exact Laws.OneLine.fltRow _ (rowInstr_wf q) (.inl rfl)

/-- The checks let through the rows and flags of a valid filter, and find its warning again (40_filter_loader.md R148 to R153). -/
theorem filterTable_of_wf {f : FilterSlot} (hf : f.wf = true) {w : FltWork} (h10 : w.tenbit = f.tenbit)
    (had : w.adaptive = f.adaptive) (hrows : w.rows = f.rows) : filterTable w = .ok f := by
  obtain ⟨hphases, hlen, hwarn⟩ := f.wf_iff.1 hf
  have hslot : w.slot = f := by
    cases f
    simp only [FltWork.slot, h10, had, hrows] at hwarn ⊢
    rw [hwarn]
  have hpos : 1 ≤ f.nphases := legalPhases_pos hphases
  have hne : w.rows ≠ [] := by
    intro hempty
    rw [← hrows, hempty] at hlen
    split at hlen <;> simp at hlen <;> omega
  have heven : ¬ (w.adaptive = true ∧ w.rows.length % 2 = 1) := by
    rintro ⟨hadaptive, hodd⟩
    rw [← hrows, ← had, if_pos hadaptive] at hlen
    omega
  rw [filterTable_phases hne heven, hslot, if_pos ((legalPhases_iff _).1 hphases)]

/-- Settles O29: the mode tokens set the flags, each row is appended as written, and the checks let through a valid filter. -/
theorem filterTextRoundTrip : Obligations.FilterTextRoundTrip := by
  intro s v f hf hlen hstream
  obtain ⟨l1, hmodes, h10, had, hempty⟩ := runLines_modes s.lim s.csr f.tenbit f.adaptive
  obtain ⟨l2, hrows, h10', had', hrows'⟩ := runLines_rows s.lim s.csr f.rows l1
  have hlines : runLines .fltLine s.lim s.csr ((filterInstrs f).map encode) Loader.start = .ok l2 := by
    rw [filterInstrs_eq, List.map_append, runLines_append_ok hmodes, hrows]
  have hparse : s.parseFilter = .ok f :=
    (State.parseFilter_of_lines hstream (runLines_written (.inl rfl) (filterInstrs_oneLine f) hlines)).trans
      (filterTable_of_wf hf (h10'.trans h10) (had'.trans had) (by simpa [hempty] using hrows'))
  exact ⟨_, exec_ldfilt_loads v hlen hstream hparse, withFilter_completed s v f, rfl, rfl, rfl, rfl⟩

/-! ### Gamma tables -/

/-- A byte written as a number is stored as it was (30_encoding.md R111). -/
theorem gamByte_natCast (v : Byte) : gamByte (v.toNat : ℤ) = v := by
  have hlt : v.toNat < 256 := v.isLt
  have hclamp := gamByte_toNat (v.toNat : ℤ)
  exact BitVec.eq_of_toNat_eq (by omega)

/-- Entry `v` of the three channel tables. -/
def GammaTable.entry (t : GammaTable) (v : Nat) : Chan Byte :=
  ⟨t.r.getD v 0, t.g.getD v 0, t.b.getD v 0⟩

theorem opGamRgb_gammaInstr (t : GammaTable) (v : Nat) {l : Loader} (hroom : l.gam.lut.length ≠ 256) :
    opGamRgb [some (t.r.getD v 0).toNat, some (t.g.getD v 0).toNat, some (t.b.getD v 0).toNat] l
      = .ok (l.withGamEntry (t.entry v)) := by
  rw [opGamRgb_stores hroom, gamByte_natCast, gamByte_natCast, gamByte_natCast]
  rfl

/-- The first `n` lines store the first `n` entries. -/
theorem runLines_entries (lim : Config.Limits) (r : HostRegs) (t : GammaTable) : ∀ n ≤ 256,
    ∃ l, runLines .gamLine lim r ((List.range n).map fun v => encode (gammaInstr t v)) Loader.start = .ok l ∧
      l.gam.lut = (List.range n).map t.entry := by
  intro n
  induction n with
  | zero => exact fun _ => ⟨Loader.start, rfl, rfl⟩
  | succ n ih =>
    intro hn
    obtain ⟨l, hlines, hlut⟩ := ih (by omega)
    have hroom : (nextLine l).gam.lut.length ≠ 256 := by
      rw [nextLine_gam, hlut, List.length_map, List.length_range]
      omega
    refine ⟨(nextLine l).withGamEntry (t.entry n), ?_, ?_⟩
    · rw [List.range_succ, List.map_append, runLines_append_ok hlines]
      exact runLines_encode (i := gammaInstr t n) rfl rfl rfl (opGamRgb_gammaInstr t n hroom) []
    · rw [List.range_succ, List.map_append, ← hlut]
      rfl

/-- A list is its entries in order. -/
theorem map_getD_range {α : Type} (xs : List α) (d : α) : (List.range xs.length).map (xs.getD · d) = xs := by
  refine List.ext_getElem (by simp) fun k hk hk' => ?_
  simp [List.getElem?_eq_getElem hk']

theorem channels_of_entries {t : GammaTable} (ht : t.wf = true) {w : GamWork} (h : w.lut = (List.range 256).map t.entry) :
    w.channels = t := by
  obtain ⟨hr, hg, hb⟩ := t.wf_iff.1 ht
  have hmap {sel : Chan Byte → Byte} {lut : List Byte} (hsel : ∀ v, sel (t.entry v) = lut.getD v 0) (hlen : lut.length = 256) :
      w.lut.map sel = lut := by
    rw [h, List.map_map, ← hlen]
    exact (List.map_congr_left fun v _ => hsel v).trans (map_getD_range lut 0)
  rw [GamWork.channels, hmap (fun _ => rfl) hr, hmap (fun _ => rfl) hg, hmap (fun _ => rfl) hb]

/-- Settles O34: the 256 lines store the 256 entries, whose channels are the table. -/
theorem gammaTextRoundTrip : Obligations.GammaTextRoundTrip := by
  intro s g hg hlen hstream
  obtain ⟨l, hlines, hlut⟩ := runLines_entries s.lim s.csr g 256 le_rfl
  have hone : ∀ x ∈ (List.range 256).map fun v => encode (gammaInstr g v), Laws.oneLine x :=
    List.forall_mem_map.2 fun v _ => Laws.OneLine.gamRgb _ rfl (.inr (.inr rfl))
  have hparse : s.parseGamma = .ok g :=
    (State.parseGamma_of_lines hstream (runLines_written (.inr (.inr rfl)) hone hlines)).trans
      ((gammaTable_full (by rw [nextLine_gam, hlut, List.length_map, List.length_range])).trans
        (congrArg Except.ok (channels_of_entries hg hlut)))
  exact ⟨_, exec_ldgamma_loads hlen hstream hparse, withGamma_completed s g, rfl, rfl, rfl, rfl⟩

/-! ### Pattern sets -/

/-- What a complete pattern is (10_state.md R37). -/
theorem PatternSet.wf_iff (p : PatternSet) :
    p.wf = true ↔ 1 ≤ p.w ∧ 1 ≤ p.h ∧ p.cells.length = p.h ∧ ∀ row ∈ p.cells, row.length = p.w := by
  simp only [PatternSet.wf, Bool.and_eq_true, decide_eq_true_iff, List.all_eq_true, and_assoc]

theorem mskRow_wf {row : List CellWord} (h : row ≠ []) : (Instr.mskRow (row.map some)).wf = true := by
  simp [Instr.wf, h]

/-- The rows of a block, from some row on: each is stored, and the last one adds the pattern to the sets. -/
theorem runLines_cells {lim : Config.Limits} (r : HostRegs) (rows : List (List CellWord)) : ∀ l : Loader, rows ≠ [] →
    l.msk.state = .rows → 1 ≤ l.msk.w → (∀ row ∈ rows, row.length = l.msk.w) → l.msk.cells.length + rows.length = l.msk.h →
    lim.maskMaxSets ≠ some l.msk.sets.length →
    ∃ l', runLines .mskLine lim r ((rows.map fun row => .mskRow (row.map some)).map encode) l = .ok l' ∧
      l'.msk.sets = l.msk.sets ++ [⟨l.msk.res, l.msk.w, l.msk.h, l.msk.cells ++ rows⟩] ∧ l'.msk.state = .done := by
  induction rows with
  | nil => exact fun _ hne => absurd rfl hne
  | cons row rows ih =>
    intro l _ hstate hw hlens hcount hroom
    obtain ⟨hlen, hlens⟩ := List.forall_mem_cons.1 hlens
    have hrow : row ≠ [] := List.ne_nil_of_length_pos (by omega)
    have hctx : (Instr.mskRow (row.map some)).admittedIn (l.ctx r) = true := decide_eq_true hstate
    rw [List.length_cons] at hcount
    by_cases hrest : rows = []
    · subst hrest
      have hlast := opMskRow_last lim (row := row) (l := nextLine l) hlen hcount
      rw [nextLine_msk, if_neg hroom] at hlast
      exact ⟨_, runLines_encode (mskRow_wf hrow) hctx rfl hlast [], rfl, rfl⟩
    · have hinner : l.msk.cells.length + 1 ≠ l.msk.h := by
        have := List.length_pos_of_ne_nil hrest
        omega
      have hop := opMskRow_inner lim (row := row) (l := nextLine l) hlen hinner
      obtain ⟨l', hlines, hsets, hdone⟩ := ih ((nextLine l).withCellRow row) hrest hstate hw hlens
        (by rw [withCellRow_cells_length, nextLine_msk]; show _ = l.msk.h; omega) hroom
      refine ⟨l', (runLines_encode (mskRow_wf hrow) hctx rfl hop _).trans hlines, ?_, hdone⟩
      rw [hsets]
      simp [Loader.withCellRow, nextLine]

/-- A pattern set within the limits, after the sets before it (41_mask_loader.md R172). -/
theorem runLines_set {lim : Config.Limits} (r : HostRegs) {p : PatternSet} (hp : p.wf = true)
    (hres : exceeds lim.maxExtent p.res = false) (hmaxW : exceeds lim.maskMaxW p.w = false)
    (hmaxH : exceeds lim.maskMaxH p.h = false) (l : Loader) (hstate : l.msk.state ≠ .rows)
    (hroom : lim.maskMaxSets ≠ some l.msk.sets.length) :
    ∃ l', runLines .mskLine lim r ((setInstrs p).map encode) l = .ok l' ∧ l'.msk.sets = l.msk.sets ++ [p] ∧
      l'.msk.state = .done := by
  obtain ⟨hw, hh, hcells, hrows⟩ := p.wf_iff.1 hp
  have hopRes : opMskRes lim (some (p.res : ℤ)) (nextLine l) =
      .ok { nextLine l with msk := { l.msk with res := p.res, state := .dims } } := by
    rw [opMskRes_some lim _ (l := nextLine l) hstate, if_neg (by omega), Int.toNat_natCast, hres]
    rfl
  have hopDims (k : Loader) : opMskDims lim [some (p.w : ℤ), some (p.h : ℤ)] k =
      .ok { k with msk := { k.msk with w := p.w, h := p.h, cells := [], cur := [], state := .rows } } := by
    have hlimits : ¬ (exceeds lim.maskMaxW p.w = true ∨ exceeds lim.maskMaxH p.h = true) := by simp [hmaxW, hmaxH]
    simp only [opMskDims, Int.toNat_natCast]
    rw [if_neg (by omega), if_neg hlimits]
  have hwfDims : (Instr.mskDims [some (p.w : ℤ), some (p.h : ℤ)]).wf = true := by
    simp [Instr.wf]
    omega
  have hwfRes : (Instr.mskRes (some (p.res : ℤ))).wf = true := by simp [Instr.wf]
  obtain ⟨l', hlines, hsets, hdone⟩ := runLines_cells (lim := lim) r p.cells
    { nextLine (nextLine (nextLine l)) with msk :=
      { l.msk with res := p.res, w := p.w, h := p.h, cells := [], cur := [], state := .rows } }
    (List.ne_nil_of_length_pos (by omega)) rfl hw hrows (by simpa using hcells) hroom
  refine ⟨l', ?_, by rw [hsets]; rfl, hdone⟩
  exact (runLines_encode hwfRes rfl rfl hopRes _).trans
    ((runLines_encode (i := .mskV2) rfl rfl rfl rfl _).trans
      ((runLines_encode hwfDims rfl rfl (hopDims _) _).trans hlines))

/-- The sets of a stream one after the other. -/
theorem runLines_sets {lim : Config.Limits} (r : HostRegs) (sets : List PatternSet) : ∀ l : Loader,
    (∀ p ∈ sets, p.wf = true) →
    (∀ p ∈ sets, exceeds lim.maxExtent p.res = false ∧ exceeds lim.maskMaxW p.w = false ∧ exceeds lim.maskMaxH p.h = false) →
    exceeds lim.maskMaxSets (l.msk.sets.length + sets.length) = false → l.msk.state ≠ .rows →
    ∃ l', runLines .mskLine lim r ((sets.flatMap setInstrs).map encode) l = .ok l' ∧ l'.msk.sets = l.msk.sets ++ sets ∧
      l'.msk.state ≠ .rows := by
  induction sets with
  | nil => exact fun l _ _ _ hstate => ⟨l, rfl, (List.append_nil _).symm, hstate⟩
  | cons p sets ih =>
    intro l hwf hlimits hroom hstate
    obtain ⟨hp, hwf⟩ := List.forall_mem_cons.1 hwf
    obtain ⟨⟨hres, hmaxW, hmaxH⟩, hlimits⟩ := List.forall_mem_cons.1 hlimits
    have hfree : lim.maskMaxSets ≠ some l.msk.sets.length := by
      intro hfull
      simp [exceeds, hfull] at hroom
    obtain ⟨l1, hset, hsets1, hdone⟩ := runLines_set r hp hres hmaxW hmaxH l hstate hfree
    obtain ⟨l', hlines, hsets, hend⟩ := ih l1 hwf hlimits
      (by rw [hsets1, List.length_append, List.length_singleton, Nat.add_assoc, Nat.add_comm 1]; exact hroom) (by simp [hdone])
    refine ⟨l', ?_, by rw [hsets, hsets1, List.append_assoc]; rfl, hend⟩
    rw [List.flatMap_cons, List.map_append, runLines_append_ok hset, hlines]

theorem setInstrs_oneLine {p : PatternSet} (hp : p.wf = true) : ∀ i ∈ setInstrs p, Laws.oneLine (encode i) := by
  obtain ⟨hw, hh, -, hrows⟩ := p.wf_iff.1 hp
  intro i hi
  simp only [setInstrs, List.cons_append, List.nil_append, List.mem_cons, List.mem_map] at hi
  rcases hi with rfl | rfl | rfl | ⟨row, hrow, rfl⟩
  · exact Laws.OneLine.mskRes _ (by simp [Instr.wf]) (.inr (.inl rfl))
  · exact Laws.OneLine.mskV2 rfl (.inr (.inl rfl))
  · exact Laws.OneLine.mskDims _ (by simp [Instr.wf]; omega) (.inr (.inl rfl))
  · exact Laws.OneLine.mskRow _ (mskRow_wf (List.ne_nil_of_length_pos (by rw [hrows row hrow]; omega))) (.inr (.inl rfl))

/-- Settles O31: by induction over the sets, each block adds its set, and the list is not empty. -/
theorem maskTextRoundTrip : Obligations.MaskTextRoundTrip := by
  intro s sets hsets hlimits hmax hlen hstream
  obtain ⟨hne, hwf⟩ := (maskWf_iff sets).1 hsets
  obtain ⟨l, hlines, hloaded, hstate⟩ := runLines_sets (lim := s.lim) s.csr sets Loader.start hwf hlimits
    (by simpa [Loader.start] using hmax) (by decide)
  have hloaded : l.msk.sets = sets := hloaded
  have hone : ∀ x ∈ (sets.flatMap setInstrs).map encode, Laws.oneLine x := by
    refine List.forall_mem_map.2 fun i hi => ?_
    obtain ⟨p, hp, hi⟩ := List.mem_flatMap.1 hi
    exact setInstrs_oneLine (hwf p hp) i hi
  have hparse : s.parseMask = .ok sets :=
    (State.parseMask_of_lines hstream (runLines_written (.inr (.inl rfl)) hone hlines)).trans
      ((maskTable_sets (w := l.msk) hstate (by rw [hloaded]; exact hne)).trans (congrArg Except.ok hloaded))
  exact ⟨_, exec_ldmask_loads hlen hstream hparse, withMask_completed s sets, rfl, rfl, rfl, rfl⟩

end Sys2Proof.Machine
end

section
/-! The stages against the document (43_resampler.md R216 to R242, 44_mask_compositor.md R260 to R269) and their refusals
(47_pipeline.md R324). First positions and one resampled channel, with no machine; then the commands. -/

namespace Sys2Proof.Machine

/-! ### The ranges of position and phase -/

theorem pos_n_bounds {i S D : Nat} (P : Nat) (hS : 1 ≤ S) (hi : i < D) :
    -(D : ℤ) < (pos i S D P).n ∧ (pos i S D P).n < S * (2 * (D : ℤ)) := by
  have hn : (pos i S D P).n = (2 * (i : ℤ) + 1) * S - D := rfl
  have hpos : 0 < (2 * (i : ℤ) + 1) * S := by positivity
  have hle : (2 * (i : ℤ) + 1) * S ≤ 2 * (D : ℤ) * S := mul_le_mul_of_nonneg_right (by omega) (by omega)
  rw [hn]
  constructor
  · omega
  · linarith

/-- The base is the numerator's floor division (43_resampler.md R220). -/
theorem pos_base (i S D P : Nat) : (pos i S D P).base = (pos i S D P).n / (2 * (D : ℤ)) := rfl

theorem pos_base_bounds {i S D : Nat} (P : Nat) (hS : 1 ≤ S) (hi : i < D) :
    -1 ≤ (pos i S D P).base ∧ (pos i S D P).base < S := by
  obtain ⟨hlow, hhigh⟩ := pos_n_bounds P hS hi
  rw [pos_base]
  exact ⟨(Int.le_ediv_iff_mul_le (by omega)).2 (by omega), (Int.ediv_lt_iff_lt_mul (by omega)).2 hhigh⟩

/-- Only where the image grows does a position lie before the first sample (43_resampler.md R223). -/
theorem pos_base_neg {i S D P : Nat} (hbase : (pos i S D P).base = -1) : S < D := by
  have hneg : (pos i S D P).n < 0 := by
    by_contra hn
    have : 0 ≤ (pos i S D P).base := Int.ediv_nonneg (not_lt.1 hn) (by omega)
    omega
  have hn : (pos i S D P).n = (2 * (i : ℤ) + 1) * S - D := rfl
  have hle : 1 * (S : ℤ) ≤ (2 * (i : ℤ) + 1) * S := mul_le_mul_of_nonneg_right (by omega) (by omega)
  omega

theorem pos_rem_bounds (i S : Nat) {D : Nat} (P : Nat) (hD : 1 ≤ D) :
    0 ≤ (pos i S D P).rem ∧ (pos i S D P).rem < 2 * (D : ℤ) :=
  ⟨Int.emod_nonneg _ (by omega), Int.emod_lt_of_pos _ (by omega)⟩

theorem pos_phase_lt (i S : Nat) {D P : Nat} (hD : 1 ≤ D) (hP : 1 ≤ P) : (pos i S D P).phase < P := by
  obtain ⟨-, hrem⟩ := pos_rem_bounds i S P hD
  have hlt : (pos i S D P).rem * P / (2 * (D : ℤ)) < P := by
    rw [Int.ediv_lt_iff_lt_mul (by omega), mul_comm (P : ℤ)]
    exact mul_lt_mul_of_pos_right hrem (by omega)
  exact (Int.toNat_lt_of_ne_zero (by omega)).2 hlt

/-- The clamp of a tap coordinate (43_resampler.md R224). -/
theorem clampInt_eq {v hi : Int} (h : 0 ≤ hi) : clampInt v 0 hi = max 0 (min hi v) := by
  unfold clampInt
  split
  next => omega
  next => split <;> omega

theorem tapCoord_lt (base : Int) {S : Nat} (k : Nat) (hS : 1 ≤ S) : tapCoord base S k < S := by
  rw [tapCoord, clampInt_eq (by omega)]
  omega

/-- Settles O45: the numerator lies between `-D` and `2 * D * S`, and the rest are remainders and a clamp. -/
theorem positionRanges : Obligations.PositionRanges := by
  intro i S D P hS hi hP
  obtain ⟨hlow, hhigh⟩ := pos_base_bounds P hS hi
  obtain ⟨hrem, hrem'⟩ := pos_rem_bounds i S P (show 1 ≤ D by omega)
  exact ⟨hlow, by omega, pos_phase_lt i S (by omega) hP, hrem, hrem', pos_base_neg, fun k _ => tapCoord_lt _ k hS⟩

/-! ### One channel of a resampled element -/

theorem tapCoord_eq_docTap (i : Nat) {S D : Nat} (P k : Nat) (hS : 1 ≤ S) (hD : 1 ≤ D) :
    tapCoord (pos i S D P).base S k = docTap i S D k := by
  rw [tapCoord, clampInt_eq (by omega), pos_base_eq_docBase i S P hD, docTap]

theorem FilterSlot.div_pos (f : FilterSlot) : 1 ≤ f.div := by
  unfold FilterSlot.div
  split <;> decide

/-- A sum of products over the divisor of the mode (43_resampler.md R230, R232). -/
theorem docOutput_eq (f : FilterSlot) (row : Quad Coef) (t : Quad Byte) :
    docOutput f row t.k0 t.k1 t.k2 t.k3 = (mac row t : ℚ) / (f.div : ℚ) := by
  have hdiv : (f.div : ℚ) = if f.tenbit then 256 else 128 := by
    unfold FilterSlot.div
    split <;> norm_num
  rw [docOutput, mac, hdiv]
  push_cast
  rfl

/-- The output of one channel is the document's blend of the dark and the light output, rounded (43_resampler.md R232, R233,
R240). -/
theorem channelOut_toNat (f : FilterSlot) (dark light : Quad Coef) (t : Quad Byte) :
    ((channelOut f dark light t).toNat : ℤ) =
      docRound (if f.adaptive then
          (t.k1.toNat : ℚ) / 255 * docOutput f light t.k0 t.k1 t.k2 t.k3
            + (1 - (t.k1.toNat : ℚ) / 255) * docOutput f dark t.k0 t.k1 t.k2 t.k3
        else docOutput f dark t.k0 t.k1 t.k2 t.k3) := by
  have hdiv := f.div_pos
  simp only [docOutput_eq]
  cases had : f.adaptive with
  | true =>
    rw [channelOut, had, quantMatchesTheDocument _ _ (blendDen_adaptive_pos hdiv), blend_eq_interpolation _ _ _ _ hdiv]
    rfl
  | false =>
    have hden : blendDen false f.div = (f.div : ℤ) := rfl
    rw [channelOut, had, blendNum_plain, hden, quantMatchesTheDocument _ _ (by omega), Int.cast_natCast]
    rfl

/-- One channel of one element, from the samples of its line (43_resampler.md R219 to R241). -/
theorem channelOut_eq_docSample {f : FilterSlot} (hf : f.wf = true) {S D : Nat} (hS : 1 ≤ S) (hD : 1 ≤ D) (i : Nat)
    (line : List Pixel) (ch : Pixel → Byte) :
    ((channelOut f (f.row (pos i S D f.nphases).phase) (f.row (f.nphases + (pos i S D f.nphases).phase))
      (tapsOf line (taps (pos i S D f.nphases).base S) ch)).toNat : ℤ) =
      docSample f f.nphases S D (fun j => ch (line.getD j Pixel.absent)) i := by
  obtain ⟨hphases, -, -⟩ := f.wf_iff.1 hf
  have hphase : (docPhase i S D f.nphases).toNat = (pos i S D f.nphases).phase := by
    rw [← pos_phase_eq_docPhase i S hD (legalPhases_pos hphases), Int.toNat_natCast]
  rw [channelOut_toNat]
  simp only [docSample, hphase, ← tapCoord_eq_docTap i f.nphases _ hS hD]
  rfl

/-- One output pixel of a pass (43_resampler.md R219 to R242). -/
theorem outPixel_matches {f : FilterSlot} (hf : f.wf = true) {S D : Nat} (hS : 1 ≤ S) (hD : 1 ≤ D) (i : Nat)
    (line : List Pixel) :
    let p := outPixel (resampleElem f S D line i)
    (p.r.toNat : ℤ) = docSample f f.nphases S D (fun j => (line.getD j Pixel.absent).r) i ∧
      (p.g.toNat : ℤ) = docSample f f.nphases S D (fun j => (line.getD j Pixel.absent).g) i ∧
      (p.b.toNat : ℤ) = docSample f f.nphases S D (fun j => (line.getD j Pixel.absent).b) i ∧ p.a = 255#8 := by
  simp only [outPixel, resampleElem_q]
  exact ⟨channelOut_eq_docSample hf hS hD i line Pixel.r, channelOut_eq_docSample hf hS hD i line Pixel.g,
    channelOut_eq_docSample hf hS hD i line Pixel.b, rfl⟩

/-! ### The two passes -/

theorem stageHresample_wf {s : State} {f : Frame} {fl : FilterSlot} (hf : s.wf = some f) (hfl : s.tables.filtH = some fl)
    (hne : f.w ≠ s.csr.dstW.toNat) : (stageHresample s).wf = some (hresampleFrame fl s.csr.dstW.toNat f) := by
  simp [stageHresample, hf, hfl, hne]

theorem stageVresample_wf {s : State} {f : Frame} {fl : FilterSlot} (hf : s.wf = some f) (hfl : s.tables.filtV = some fl)
    (hne : f.h ≠ s.csr.dstH.toNat) : (stageVresample s).wf = some (vresampleFrame fl s.csr.dstH.toNat f) := by
  simp [stageVresample, hf, hfl, hne]

/-- `HRESAMPLE` with every test passed (47_pipeline.md R324). -/
theorem exec_hresample_completes {s : State} (hf : s.wf.isSome = true) (hdst : 1 ≤ s.csr.dstW.toNat)
    (hlim : exceeds s.lim.maxExtent s.csr.dstW.toNat = false)
    (hfilt : s.wfW ≠ s.csr.dstW.toNat → s.tables.filtH.isSome = true) :
    exec .hresample s = .next (stageHresample s).complete := by
  have hneeds : ∀ c ∈ hresampleNeeds s, c.1 = true := by
    simpa [hresampleNeeds, hf, hdst, hlim] using or_iff_not_imp_left.2 hfilt
  rw [exec_hresample, execHresample]
  exact runCommand_ok s _ _ _ hneeds rfl

/-- See `exec_hresample_completes`. -/
theorem exec_vresample_completes {s : State} (hf : s.wf.isSome = true) (hdst : 1 ≤ s.csr.dstH.toNat)
    (hlim : exceeds s.lim.maxExtent s.csr.dstH.toNat = false)
    (hfilt : s.wfH ≠ s.csr.dstH.toNat → s.tables.filtV.isSome = true) :
    exec .vresample s = .next (stageVresample s).complete := by
  have hneeds : ∀ c ∈ vresampleNeeds s, c.1 = true := by
    simpa [vresampleNeeds, hf, hdst, hlim] using or_iff_not_imp_left.2 hfilt
  rw [exec_vresample, execVresample]
  exact runCommand_ok s _ _ _ hneeds rfl

/-- Settles O48: the frame's rows are resampled line by line, and each output pixel is the document's sample of its row. -/
theorem hresampleMatchesTheDocument : Obligations.HresampleMatchesTheDocument := by
  intro s f fl hf hwf hfl hflwf hdst hlim hne
  obtain ⟨hw, -⟩ := f.wf_iff.1 hwf
  refine ⟨(stageHresample s).complete, hresampleFrame fl s.csr.dstW.toNat f,
    exec_hresample_completes (by simp [hf]) hdst hlim (by simp [hfl]), frameStage_frameCommand (stageHresample_frame s),
    stageHresample_wf hf hfl hne, hresampleFrame_wf fl _ f hwf hdst s.csr.dstW.isLt, rfl, rfl, fun y i hy hi => ?_⟩
  have hat := hresampleFrame_at fl s.csr.dstW.toNat f hwf y i hy hi
  rw [hat]
  exact outPixel_matches hflwf hw hdst i (f.px.getD y [])

/-- A sample of a column; where the frame has no row, both sides are the absent pixel. -/
theorem Frame.column_getD_eq_at (f : Frame) (x j : Nat) : (f.column x).getD j Pixel.absent = f.at j x :=
  List.getD_map (n := j) f.px [] fun row => row.getD x Pixel.absent

/-- Settles O49: the frame's columns are resampled line by line, and each output pixel is the document's sample of its column. -/
theorem vresampleMatchesTheDocument : Obligations.VresampleMatchesTheDocument := by
  intro s f fl hf hwf hfl hflwf hdst hlim hne
  obtain ⟨-, hh, -⟩ := f.wf_iff.1 hwf
  refine ⟨(stageVresample s).complete, vresampleFrame fl s.csr.dstH.toNat f,
    exec_vresample_completes (by simp [hf]) hdst hlim (by simp [hfl]), frameStage_frameCommand (stageVresample_frame s),
    stageVresample_wf hf hfl hne, vresampleFrame_wf fl _ f hwf hdst s.csr.dstH.isLt, rfl, rfl, fun i x hi hx => ?_⟩
  have hat := vresampleFrame_at fl s.csr.dstH.toNat f i x hi hx
  rw [hat]
  have hpixel := outPixel_matches hflwf hh hdst i (f.column x)
  simp only [Frame.column_getD_eq_at] at hpixel
  exact hpixel

/-! ### The refusals -/

/-- Among tests with one and the same error it does not matter which one fails. -/
theorem firstFailure_same {e : CmdError} {group : List (Bool × CmdError)} (he : ∀ c ∈ group, c.2 = e)
    (hfails : ¬ ∀ c ∈ group, c.1 = true) : firstFailure group = some e := by
  rw [← List.append_nil group, firstFailure_group he, if_neg hfails]

/-- The tests of a resampling pass: of the frame and the extent, then of the limit, then of the filter (47_pipeline.md R324). -/
theorem firstFailure_passNeeds (frame : Option Frame) (filter : Bool) (limit : Option Nat) (dst : Word) :
    firstFailure [(frame.isSome, .notReady), (decide (1 ≤ dst.toNat), .notReady), (!exceeds limit dst.toNat, .limitExceeded),
      (filter, .notReady)] =
    if frame = none ∨ dst = 0#32 then some .notReady
    else if exceeds limit dst.toNat = true then some .limitExceeded
    else if filter = false then some .notReady else none := by
  simp only [firstFailure, one_le_toNat_iff]
  cases frame with
  | none => simp
  | some f =>
    by_cases hdst : dst = 0#32
    · simp [hdst]
    · cases hlim : exceeds limit dst.toNat with
      | true => simp [hdst]
      | false => cases filter <;> simp [hdst]

/-- Settles O51: each clause says which test of the command fails first. -/
theorem stageRefusals : Obligations.StageRefusals := by
  refine ⟨fun s h => ?_, fun s h => exec_selpat_notReady h, fun s h => ?_, fun s => ?_, fun s => ?_⟩
  · rw [exec_gamma, execGamma]
    refine runCommand_refused (firstFailure_same (e := .notReady) (by simp) ?_) _
    simp only [List.forall_mem_cons]
    simpa [imp_iff_not_or] using h
  · rw [exec_mask, execMask]
    refine runCommand_refused (firstFailure_same (e := .notReady) (by simp) ?_) _
    simp only [List.forall_mem_cons]
    simpa [imp_iff_not_or] using h
  · have hfirst : firstFailure (hresampleNeeds s) = _ := firstFailure_passNeeds _ _ _ _
    rw [exec_hresample, execHresample]
    split
    next hready => exact runCommand_refused (hfirst.trans (if_pos hready)) _
    next hready =>
      rw [if_neg hready] at hfirst
      split
      next hlarge => exact runCommand_refused (hfirst.trans (if_pos hlarge)) _
      next hlarge =>
        rw [if_neg hlarge] at hfirst
        exact fun hne hnone => runCommand_refused (hfirst.trans (if_pos (by simp [hne, hnone]))) _
  · have hfirst : firstFailure (vresampleNeeds s) = _ := firstFailure_passNeeds _ _ _ _
    rw [exec_vresample, execVresample]
    split
    next hready => exact runCommand_refused (hfirst.trans (if_pos hready)) _
    next hready =>
      rw [if_neg hready] at hfirst
      split
      next hlarge => exact runCommand_refused (hfirst.trans (if_pos hlarge)) _
      next hlarge =>
        rw [if_neg hlarge] at hfirst
        exact fun hne hnone => runCommand_refused (hfirst.trans (if_pos (by simp [hne, hnone]))) _

/-! ### The shadow mask -/

/-- The four bits of a selector that stands in a cell word from bit `lo` on (44_mask_compositor.md R263, R265). -/
theorem weighted_extractLsb' (cw : CellWord) (lo : Nat) (v : Byte) : weighted (cw.extractLsb' lo 4) v = docWeight cw lo v := by
  simp [weighted, docWeight, Nat.shiftRight_eq_div_pow]

/-- A darkened value never leaves the range of a byte (44_mask_compositor.md R265). -/
theorem docWeight_le (cw : CellWord) (lo : Nat) (v : Byte) : docWeight cw lo v ≤ 255 := by
  have hv : v.toNat < 256 := v.isLt
  have hterm (n : Nat) (b : Bool) : n * b.toNat ≤ n := by cases b <;> simp
  have h4 := hterm (v.toNat >>> 4) (cw.getLsbD lo)
  have h3 := hterm (v.toNat >>> 3) (cw.getLsbD (lo + 1))
  have h2 := hterm (v.toNat >>> 2) (cw.getLsbD (lo + 2))
  have h1 := hterm (v.toNat >>> 1) (cw.getLsbD (lo + 3))
  simp only [docWeight]
  omega

/-- One channel under a cell (44_mask_compositor.md R264, R265, R268). -/
theorem newValue_clamped (cw : CellWord) (bit : Nat) (v : Byte) :
    (gamByte (newValue (cw.getLsbD bit) (!cw.getLsbD bit) (cellFields cw) v)).toNat = docMaskChannel cw bit v := by
  have hle := docWeight_le cw 0 v
  have hclamp := gamByte_toNat (newValue (cw.getLsbD bit) (!cw.getLsbD bit) (cellFields cw) v)
  have hadd : addTerm (cellFields cw) v = docWeight cw 4 v := congrArg Nat.cast (weighted_extractLsb' cw 4 v)
  have hsub : subTerm (cellFields cw) v = v.toNat - docWeight cw 0 v :=
    congrArg (fun n : Nat => (v.toNat : ℤ) - n) (weighted_extractLsb' cw 0 v)
  rw [newValue, hadd, hsub] at hclamp
  rw [newValue, hadd, hsub, docMaskChannel]
  cases hbit : cw.getLsbD bit with
  | true =>
    simp only [hbit, Bool.not_true, Bool.toNat_true, Bool.toNat_false, Nat.cast_one, Nat.cast_zero, one_mul, zero_mul,
      ↓reduceIte] at hclamp ⊢
    omega
  | false =>
    simp only [hbit, Bool.not_false, Bool.toNat_true, Bool.toNat_false, Nat.cast_one, Nat.cast_zero, one_mul, zero_mul,
      Bool.false_eq_true, ↓reduceIte] at hclamp ⊢
    omega

/-- Every channel of a masked pixel; alpha stays (44_mask_compositor.md R264, R269). -/
theorem maskPixel_channels (cw : CellWord) (my mx : Nat) (p : Pixel) :
    (maskPixel cw my mx p).r.toNat = docMaskChannel cw 10 p.r ∧ (maskPixel cw my mx p).g.toNat = docMaskChannel cw 9 p.g ∧
      (maskPixel cw my mx p).b.toNat = docMaskChannel cw 8 p.b ∧ (maskPixel cw my mx p).a = p.a :=
  ⟨newValue_clamped cw 10 p.r, newValue_clamped cw 9 p.g, newValue_clamped cw 8 p.b, rfl⟩

/-- The tiled coordinates name a cell of a full grid (44_mask_compositor.md R262). -/
theorem PatternSet.cellAt_mem {p : PatternSet} (hp : p.wf = true) (my mx : Nat) :
    ∃ row, p.cells[my % p.h]? = some row ∧ row[mx % p.w]? = some (p.cellAt p.w p.h my mx) := by
  obtain ⟨hw, hh, hcells, hrows⟩ := p.wf_iff.1 hp
  have hy : my % p.h < p.cells.length := (Nat.mod_lt my hh).trans_eq hcells.symm
  have hx : mx % p.w < p.cells[my % p.h].length := (Nat.mod_lt mx hw).trans_eq (hrows _ (List.getElem_mem hy)).symm
  refine ⟨_, List.getElem?_eq_getElem hy, ?_⟩
  rw [PatternSet.cellAt, List.getD_eq_getElem _ _ hy, List.getD_eq_getElem _ _ hx, List.getElem?_eq_getElem hx]

/-- `MASK` with every test passed (47_pipeline.md R324). -/
theorem exec_mask_completes {s : State} (hf : s.wf.isSome = true) (hmask : s.tables.mask.isSome = true)
    (hsel : s.sel.isSome = true) : exec .mask s = .next (stageMask s).complete := by
  rw [exec_mask, execMask]
  exact runCommand_ok s _ _ _ (by simp [hf, hmask, hsel]) rfl

theorem stageMask_wf {s : State} {f : Frame} {sets : List PatternSet} {sel : Selection} (hf : s.wf = some f)
    (hmask : s.tables.mask = some sets) (hsel : s.sel = some sel) :
    (stageMask s).wf = some (maskFrame (selectedSet sets sel) sel.w sel.h s.csr.mask2x f) := by
  simp [stageMask, hf, hmask, hsel]

/-- Settles O53: the stage writes the masked frame alone, each pixel under the cell its tiled coordinates name. -/
theorem maskPixels : Obligations.MaskPixels := by
  intro s f sets n p hf hwf hmask hsets hp hsel
  have hset : selectedSet sets ⟨n, p.res, p.w, p.h⟩ = p := by
    rw [selectedSet, List.getD_eq_getElem?_getD, hp, Option.getD_some]
  have hpwf : p.wf = true := ((maskWf_iff sets).1 hsets).2 p (List.mem_of_getElem? hp)
  have hstage := stageMask_wf hf hmask hsel
  rw [hset] at hstage
  refine ⟨(stageMask s).complete, _, exec_mask_completes (by simp [hf]) (by simp [hmask]) (by simp [hsel]),
    frameStage_frameCommand (stageMask_frame s), hstage, maskFrame_wf p _ _ _ f hwf, rfl, rfl, fun y x hy hx => ?_⟩
  obtain ⟨row, hrow, hcell⟩ := p.cellAt_mem hpwf (maskCoord s.csr.mask2x y) (maskCoord s.csr.mask2x x)
  rw [maskFrame_at p p.w p.h s.csr.mask2x f hwf y x hy hx]
  exact ⟨row, _, hrow, hcell, maskPixel_channels _ _ _ (f.at y x)⟩

end Sys2Proof.Machine
end

section
/-! `RUN` against its stages' commands (47_pipeline.md R330). Stages read nothing that completing a command writes, so the
commands one after the other do what the stages one after the other do; and `RUN` leaves out just the passes that change
nothing. -/

namespace Sys2Proof.Machine

/-! ### What one stage writes -/

theorem doStage_tables (st : Stage) (s : State) : (doStage st s).tables = s.tables := by
  rw [doStage_frame]

theorem doStage_lim (st : Stage) (s : State) : (doStage st s).lim = s.lim := by
  rw [doStage_frame]

theorem doStage_bodyFrame (st : Stage) (s : State) : BodyFrame s (doStage st s) :=
  afterStages_bodyFrame s [st]

/-- Only `SELPAT` writes the selection. -/
theorem doStage_sel {st : Stage} (hst : st ≠ .selpat) (s : State) : (doStage st s).sel = s.sel := by
  cases st with
  | idle => rfl
  | load => rfl
  | place => rfl
  | gamma => rw [doStage, stageGamma_frame]
  | hresample => rw [doStage, stageHresample_frame]
  | vresample => rw [doStage, stageVresample_frame]
  | selpat => exact absurd rfl hst
  | mask => rw [doStage, stageMask_frame]

/-- `SELPAT` finds a set in every valid mask. -/
theorem stageSelpat_sel_isSome {s : State} {sets : List PatternSet} (hmask : s.tables.mask = some sets)
    (hsets : maskWf sets = true) : (stageSelpat s).sel.isSome = true := by
  obtain ⟨c, hselect, -⟩ := selWf_selectSet s.csr.outH.toNat hsets
  rw [stageSelpat_sel hmask, hselect]
  rfl

/-- The extents of the frame (10_state.md R40); `doStage_extents` says which stage changes which. -/
theorem State.extents_of_wf {s t : State} (h : t.wf = s.wf) : t.wfW = s.wfW ∧ t.wfH = s.wfH := by
  rw [State.wfW, State.wfH, h]
  exact ⟨rfl, rfl⟩

theorem stageGamma_extents (s : State) : (stageGamma s).wfW = s.wfW ∧ (stageGamma s).wfH = s.wfH := by
  unfold stageGamma
  split
  next hframe _ => rw [State.wfW_of_frame hframe, State.wfH_of_frame hframe]; exact ⟨rfl, rfl⟩
  next => exact ⟨rfl, rfl⟩

theorem stageMask_extents (s : State) : (stageMask s).wfW = s.wfW ∧ (stageMask s).wfH = s.wfH := by
  unfold stageMask
  split
  next hframe _ _ => rw [State.wfW_of_frame hframe, State.wfH_of_frame hframe]; exact ⟨rfl, rfl⟩
  next => exact ⟨rfl, rfl⟩

theorem stageHresample_wfH (s : State) : (stageHresample s).wfH = s.wfH := by
  unfold stageHresample
  split
  next => rfl
  next hframe =>
    split
    next => rfl
    next =>
      split
      next => rfl
      next => rw [State.wfH_of_frame hframe]; rfl

theorem stageVresample_wfW (s : State) : (stageVresample s).wfW = s.wfW := by
  unfold stageVresample
  split
  next => rfl
  next hframe =>
    split
    next => rfl
    next =>
      split
      next => rfl
      next => rw [State.wfW_of_frame hframe]; rfl

/-- Only `HRESAMPLE` changes the width. -/
theorem doStage_wfW {st : Stage} (hst : st ≠ .hresample) (s : State) : (doStage st s).wfW = s.wfW := by
  cases st with
  | idle => rfl
  | load => rfl
  | place => rfl
  | gamma => exact (stageGamma_extents s).1
  | hresample => exact absurd rfl hst
  | vresample => exact stageVresample_wfW s
  | selpat => rw [doStage, stageSelpat_frame]; rfl
  | mask => exact (stageMask_extents s).1

/-- Only `VRESAMPLE` changes the height. -/
theorem doStage_wfH {st : Stage} (hst : st ≠ .vresample) (s : State) : (doStage st s).wfH = s.wfH := by
  cases st with
  | idle => rfl
  | load => rfl
  | place => rfl
  | gamma => exact (stageGamma_extents s).2
  | hresample => exact stageHresample_wfH s
  | vresample => exact absurd rfl hst
  | selpat => rw [doStage, stageSelpat_frame]; rfl
  | mask => exact (stageMask_extents s).2

/-- After the pass the frame has the width asked for (43_resampler.md R216, R218). -/
theorem stageHresample_wfW {s : State} (hframe : s.wf.isSome = true)
    (hfilt : s.wfW ≠ s.csr.dstW.toNat → s.tables.filtH.isSome = true) : (stageHresample s).wfW = s.csr.dstW.toNat := by
  obtain ⟨f, hf⟩ := Option.isSome_iff_exists.1 hframe
  rw [State.wfW_of_frame hf] at hfilt
  by_cases heq : f.w = s.csr.dstW.toNat
  · rw [stageHresample_skips hf heq, State.wfW_of_frame hf, heq]
  · obtain ⟨fl, hfl⟩ := Option.isSome_iff_exists.1 (hfilt heq)
    rw [State.wfW_of_frame (stageHresample_wf hf hfl heq)]
    rfl

/-- See `stageHresample_wfW`. -/
theorem stageVresample_wfH {s : State} (hframe : s.wf.isSome = true)
    (hfilt : s.wfH ≠ s.csr.dstH.toNat → s.tables.filtV.isSome = true) : (stageVresample s).wfH = s.csr.dstH.toNat := by
  obtain ⟨f, hf⟩ := Option.isSome_iff_exists.1 hframe
  rw [State.wfH_of_frame hf] at hfilt
  by_cases heq : f.h = s.csr.dstH.toNat
  · rw [stageVresample_skips hf heq, State.wfH_of_frame hf, heq]
  · obtain ⟨fl, hfl⟩ := Option.isSome_iff_exists.1 (hfilt heq)
    rw [State.wfH_of_frame (stageVresample_wf hf hfl heq)]
    rfl

/-! ### What a plan writes -/

theorem afterStages_append (s : State) (pre post : List Stage) :
    s.afterStages (pre ++ post) = (s.afterStages pre).afterStages post :=
  List.foldl_append

/-- A quantity that each stage of the plan leaves unchanged is the same after the plan. -/
theorem afterStages_keeps {α : Type} (get : State → α) {plan : List Stage}
    (hkeep : ∀ st ∈ plan, ∀ s, get (doStage st s) = get s) (s : State) : get (s.afterStages plan) = get s := by
  induction plan generalizing s with
  | nil => rfl
  | cons st plan ih =>
    obtain ⟨hst, hplan⟩ := List.forall_mem_cons.1 hkeep
    exact (ih hplan (doStage st s)).trans (hst s)

theorem afterStages_wfW {plan : List Stage} (hplan : .hresample ∉ plan) (s : State) : (s.afterStages plan).wfW = s.wfW :=
  afterStages_keeps State.wfW (fun _ hst => doStage_wfW fun heq => hplan (heq ▸ hst)) s

theorem afterStages_wfH {plan : List Stage} (hplan : .vresample ∉ plan) (s : State) : (s.afterStages plan).wfH = s.wfH :=
  afterStages_keeps State.wfH (fun _ hst => doStage_wfH fun heq => hplan (heq ▸ hst)) s

theorem afterStages_sel {plan : List Stage} (hplan : .selpat ∉ plan) (s : State) : (s.afterStages plan).sel = s.sel :=
  afterStages_keeps State.sel (fun _ hst => doStage_sel fun heq => hplan (heq ▸ hst)) s

theorem afterStages_csr (s : State) (plan : List Stage) : (s.afterStages plan).csr = s.csr :=
  (afterStages_bodyFrame s plan).csr

/-! ### What the stages of `RUN` need -/

/-- All that `RUN` with the registers `r` needs, in a shape that each stage and completing a command keep (47_pipeline.md R324,
R331). -/
structure RunReady (r : HostRegs) (s : State) : Prop where
  csr : s.csr = r
  frame : s.wf.isSome = true
  dstW : 1 ≤ r.dstW.toNat
  dstH : 1 ≤ r.dstH.toNat
  limW : exceeds s.lim.maxExtent r.dstW.toNat = false
  limH : exceeds s.lim.maxExtent r.dstH.toNat = false
  gamma : r.gammaEn = true → s.tables.gamma.isSome = true
  filtH : s.wfW ≠ r.dstW.toNat → s.tables.filtH.isSome = true
  filtV : s.wfH ≠ r.dstH.toNat → s.tables.filtV.isSome = true
  mask : r.maskEn = true → ∃ sets, s.tables.mask = some sets ∧ maskWf sets = true

theorem RunReady.complete {r : HostRegs} {s : State} (h : RunReady r s) : RunReady r s.complete :=
  { h with }

/-- The width is the frame's own or already the one asked for. -/
theorem RunReady.doStage_wfW {r : HostRegs} {s : State} (h : RunReady r s) (st : Stage)
    (hne : (doStage st s).wfW ≠ r.dstW.toNat) : s.wfW ≠ r.dstW.toNat := by
  by_cases hst : st = .hresample
  · subst hst
    obtain rfl := h.csr
    exact absurd (stageHresample_wfW h.frame h.filtH) hne
  · rwa [← Machine.doStage_wfW hst s]

/-- See `RunReady.doStage_wfW`. -/
theorem RunReady.doStage_wfH {r : HostRegs} {s : State} (h : RunReady r s) (st : Stage)
    (hne : (doStage st s).wfH ≠ r.dstH.toNat) : s.wfH ≠ r.dstH.toNat := by
  by_cases hst : st = .vresample
  · subst hst
    obtain rfl := h.csr
    exact absurd (stageVresample_wfH h.frame h.filtV) hne
  · rwa [← Machine.doStage_wfH hst s]

theorem RunReady.doStage {r : HostRegs} {s : State} (h : RunReady r s) (st : Stage) : RunReady r (doStage st s) where
  csr := (doStage_csr st s).trans h.csr
  frame := (doStage_wf_isSome st s).trans h.frame
  dstW := h.dstW
  dstH := h.dstH
  limW := by rw [doStage_lim]; exact h.limW
  limH := by rw [doStage_lim]; exact h.limH
  gamma := by rw [doStage_tables]; exact h.gamma
  filtH hne := by rw [doStage_tables]; exact h.filtH (h.doStage_wfW st hne)
  filtV hne := by rw [doStage_tables]; exact h.filtV (h.doStage_wfH st hne)
  mask := by rw [doStage_tables]; exact h.mask

theorem RunReady.afterStages {r : HostRegs} (plan : List Stage) : ∀ {s : State}, RunReady r s → RunReady r (s.afterStages plan) := by
  induction plan with
  | nil => exact id
  | cons st plan ih => exact fun h => ih (h.doStage st)

/-- What the state a statement speaks of gives. -/
theorem runReady_of_inv {s : State} (hinv : s.Inv) (hframe : s.wf.isSome = true) (hw : 1 ≤ s.csr.dstW.toNat)
    (hh : 1 ≤ s.csr.dstH.toNat) (hlimW : exceeds s.lim.maxExtent s.csr.dstW.toNat = false)
    (hlimH : exceeds s.lim.maxExtent s.csr.dstH.toNat = false)
    (hgamma : s.csr.gammaEn = true → s.tables.gamma.isSome = true)
    (hfiltH : s.wfW ≠ s.csr.dstW.toNat → s.tables.filtH.isSome = true)
    (hfiltV : s.wfH ≠ s.csr.dstH.toNat → s.tables.filtV.isSome = true)
    (hmask : s.csr.maskEn = true → s.tables.mask.isSome = true) : RunReady s.csr s where
  csr := rfl
  frame := hframe
  dstW := hw
  dstH := hh
  limW := hlimW
  limH := hlimH
  gamma := hgamma
  filtH := hfiltH
  filtV := hfiltV
  mask hen := by
    obtain ⟨sets, hsets⟩ := Option.isSome_iff_exists.1 (hmask hen)
    exact ⟨sets, hsets, ((inv_iff s).1 hinv).2.mask_wf hsets⟩

/-- Then every test of `RUN` passes (47_pipeline.md R331). -/
theorem RunReady.exec_run {s : State} (h : RunReady s.csr s) : exec .run s = .next (runStages s).complete := by
  have hgamma := or_iff_not_imp_left.2 fun hen => h.gamma (Bool.eq_true_of_not_eq_false hen)
  have hmask := or_iff_not_imp_left.2 fun hen => (h.mask (Bool.eq_true_of_not_eq_false hen)).elim
    fun _ hsets => Option.isSome_of_mem hsets.1
  have hfiltH := or_iff_not_imp_left.2 h.filtH
  have hfiltV := or_iff_not_imp_left.2 h.filtV
  refine exec_run_completes ((firstFailure_none _).2 ?_)
  simp [runNeeds, h.frame, h.dstW, h.dstH, h.limW, h.limH, hgamma, hmask, hfiltH, hfiltV]

/-! ### The plan with and without the skipped passes -/

/-- The stages of the single-stage commands: both passes, skipped or not (30_encoding.md section 11). -/
def enabledPlan (r : HostRegs) : List Stage :=
  (if r.gammaEn then [.gamma] else []) ++ [.hresample, .vresample] ++ (if r.maskEn then [.selpat, .mask] else [])

/-- Leaving the horizontal pass out at equal widths changes nothing. -/
theorem afterStages_skip_hresample {s : State} (hframe : s.wf.isSome = true) :
    s.afterStages (if s.wfW = s.csr.dstW.toNat then [] else [.hresample]) = stageHresample s := by
  obtain ⟨f, hf⟩ := Option.isSome_iff_exists.1 hframe
  split
  next heq => exact (stageHresample_skips hf ((State.wfW_of_frame hf).symm.trans heq)).symm
  next => rfl

/-- See `afterStages_skip_hresample`. -/
theorem afterStages_skip_vresample {s : State} (hframe : s.wf.isSome = true) :
    s.afterStages (if s.wfH = s.csr.dstH.toNat then [] else [.vresample]) = stageVresample s := by
  obtain ⟨f, hf⟩ := Option.isSome_iff_exists.1 hframe
  split
  next heq => exact (stageVresample_skips hf ((State.wfH_of_frame hf).symm.trans heq)).symm
  next => rfl

/-- The passes a plan made at a state does not leave out do what both passes do. -/
theorem afterStages_passes {s : State} (hframe : s.wf.isSome = true) :
    s.afterStages ((if s.wfW = s.csr.dstW.toNat then [] else [.hresample])
      ++ (if s.wfH = s.csr.dstH.toNat then [] else [.vresample])) = s.afterStages [.hresample, .vresample] := by
  have hpassV := afterStages_skip_vresample ((stageHresample_wf_isSome s).trans hframe)
  rw [stageHresample_wfH, show (stageHresample s).csr = s.csr from doStage_csr .hresample s] at hpassV
  rw [afterStages_append, afterStages_skip_hresample hframe, hpassV]
  rfl

/-- The plan looks at the extents before the first stage; `GAMMA` keeps them, so that each pass finds those the plan saw. -/
theorem runStages_eq_enabledPlan {s : State} (hframe : s.wf.isSome = true) :
    runStages s = s.afterStages (enabledPlan s.csr) := by
  rw [runStages, runPlan, enabledPlan, List.append_assoc (if s.csr.gammaEn then [Stage.gamma] else [])]
  simp only [afterStages_append s]
  congr 1
  split
  next =>
    obtain ⟨hwidth, hheight⟩ := stageGamma_extents s
    have hpasses := afterStages_passes ((stageGamma_wf_isSome s).trans hframe)
    rw [hwidth, hheight, show (stageGamma s).csr = s.csr from doStage_csr .gamma s] at hpasses
    exact hpasses
  next => exact afterStages_passes hframe

/-! ### The single-stage commands one after the other -/

/-- The command of a stage (30_encoding.md section 2). -/
def stageInstr : Stage → Instr
  | .gamma => .gamma
  | .hresample => .hresample
  | .vresample => .vresample
  | .selpat => .selpat
  | .mask => .mask
  | .idle => .nop
  | .load => .nop
  | .place => .nop

/-- The command of the stage completes, and has done what the stage does. -/
def CompletesStage (s : State) (st : Stage) : Prop :=
  exec (stageInstr st) s = .next (doStage st s).complete

/-- Each command of the plan completes where the commands before it have led. -/
def PlanCompletes : List Stage → State → Prop
  | [], _ => True
  | st :: plan, s => CompletesStage s st ∧ PlanCompletes plan (doStage st s).complete

theorem RunReady.completes_gamma {r : HostRegs} {s : State} (h : RunReady r s) (hen : r.gammaEn = true) :
    CompletesStage s .gamma := by
  obtain ⟨f, hf⟩ := Option.isSome_iff_exists.1 h.frame
  obtain ⟨g, hg⟩ := Option.isSome_iff_exists.1 (h.gamma hen)
  exact exec_gamma_completes hf hg

theorem RunReady.completes_hresample {r : HostRegs} {s : State} (h : RunReady r s) : CompletesStage s .hresample := by
  obtain rfl := h.csr
  exact exec_hresample_completes h.frame h.dstW h.limW h.filtH

theorem RunReady.completes_vresample {r : HostRegs} {s : State} (h : RunReady r s) : CompletesStage s .vresample := by
  obtain rfl := h.csr
  exact exec_vresample_completes h.frame h.dstH h.limH h.filtV

/-- `SELPAT` latches a set, so that `MASK` finds a selection. -/
theorem RunReady.planCompletes_mask {r : HostRegs} {s : State} (h : RunReady r s) :
    PlanCompletes (if r.maskEn then [.selpat, .mask] else []) s := by
  split
  next hen =>
    obtain ⟨sets, hmask, hsets⟩ := h.mask hen
    have hlater : RunReady r (Machine.doStage .selpat s).complete := (h.doStage .selpat).complete
    obtain ⟨sets', hmask', -⟩ := hlater.mask hen
    exact ⟨exec_selpat_completes hmask,
      exec_mask_completes hlater.frame (Option.isSome_of_mem hmask') (stageSelpat_sel_isSome hmask hsets), trivial⟩
  next => trivial

theorem RunReady.planCompletes_passes {r : HostRegs} {s : State} (h : RunReady r s) :
    PlanCompletes ([.hresample, .vresample] ++ (if r.maskEn then [.selpat, .mask] else [])) s := by
  have hlater : RunReady r (Machine.doStage .hresample s).complete := (h.doStage .hresample).complete
  exact ⟨h.completes_hresample, hlater.completes_vresample, (hlater.doStage .vresample).complete.planCompletes_mask⟩

theorem RunReady.planCompletes {r : HostRegs} {s : State} (h : RunReady r s) : PlanCompletes (enabledPlan r) s := by
  rw [enabledPlan, List.append_assoc]
  cases hen : r.gammaEn with
  | false => exact h.planCompletes_passes
  | true => exact ⟨h.completes_gamma hen, (h.doStage .gamma).complete.planCompletes_passes⟩

/-! ### Completing between the stages changes no result -/

/-- The state without the status, the sequencer and the working registers: what a stage reads, and what it is to leave behind. -/
def State.result (s : State) : State :=
  { s with status := State.reset.status, seq := .idle, ld := Loader.start, work := State.reset.work, freeCount := 0 }

@[simp] theorem State.result_tables (s : State) : s.result.tables = s.tables := rfl

@[simp] theorem State.result_sel (s : State) : s.result.sel = s.sel := rfl

@[simp] theorem State.result_wf (s : State) : s.result.wf = s.wf := rfl

@[simp] theorem State.complete_result (s : State) : s.complete.result = s.result := rfl

/-- The slots, the selection, the placement and the frame, which states with one result share. -/
theorem State.eq_of_result_eq {s t : State} (h : s.result = t.result) :
    s.tables = t.tables ∧ s.sel = t.sel ∧ s.pl = t.pl ∧ s.wf = t.wf := by
  simp only [State.result, State.mk.injEq] at h
  tauto

/-- A stage reads nothing that `State.result` forgets. -/
theorem doStage_result (st : Stage) (s : State) : (doStage st s.result).result = (doStage st s).result := by
  cases st with
  | idle => rfl
  | load => rfl
  | place => rfl
  | gamma =>
    simp only [doStage, stageGamma, State.result_wf, State.result_tables]
    split <;> rfl
  | hresample =>
    simp only [doStage, stageHresample, State.result_wf, State.result_tables]
    split
    next => rfl
    next f _ =>
      by_cases heq : f.w = s.csr.dstW.toNat
      · rw [if_pos heq, if_pos (show f.w = s.result.csr.dstW.toNat from heq)]
        rfl
      · rw [if_neg heq, if_neg (show ¬ f.w = s.result.csr.dstW.toNat from heq)]
        split <;> rfl
  | vresample =>
    simp only [doStage, stageVresample, State.result_wf, State.result_tables]
    split
    next => rfl
    next f _ =>
      by_cases heq : f.h = s.csr.dstH.toNat
      · rw [if_pos heq, if_pos (show f.h = s.result.csr.dstH.toNat from heq)]
        rfl
      · rw [if_neg heq, if_neg (show ¬ f.h = s.result.csr.dstH.toNat from heq)]
        split <;> rfl
  | selpat =>
    simp only [doStage, stageSelpat, State.result_tables]
    split <;> rfl
  | mask =>
    simp only [doStage, stageMask, State.result_wf, State.result_tables, State.result_sel]
    split <;> rfl

theorem doStage_result_congr {s t : State} (h : s.result = t.result) (st : Stage) :
    (doStage st s).result = (doStage st t).result := by
  rw [← doStage_result st s, h, doStage_result st t]

theorem afterStages_result_congr (plan : List Stage) :
    ∀ {s t : State}, s.result = t.result → (s.afterStages plan).result = (t.afterStages plan).result := by
  induction plan with
  | nil => exact id
  | cons st plan ih => exact fun h => ih (doStage_result_congr h st)

theorem Completed.trans {s t u : State} (hst : Completed s t) (htu : Completed t u) : Completed s u where
  status := by rw [htu.status, hst.status]
  seq hidle := htu.seq (hst.seq hidle)
  csr := htu.csr.trans hst.csr
  txt i := (htu.txt i).trans (hst.txt i)
  fin i := (htu.fin i).trans (hst.fin i)
  lim := htu.lim.trans hst.lim
  rd := htu.rd.trans hst.rd
  resets := htu.resets.trans hst.resets
  feed := htu.feed.trans hst.feed

/-- Commands that complete one after the other leave what their stages leave. -/
theorem execAll_stages (plan : List Stage) : ∀ {s : State}, PlanCompletes plan s →
    ∃ u, execAll (plan.map stageInstr) s = .next u ∧ u.result = (s.afterStages plan).result ∧ (plan ≠ [] → Completed s u) := by
  induction plan with
  | nil => exact fun _ => ⟨_, rfl, rfl, fun hne => absurd rfl hne⟩
  | cons st plan ih =>
    rintro s ⟨hfirst, hrest⟩
    obtain ⟨u, hexec, hresult, hcompleted⟩ := ih hrest
    have hst : Completed s (doStage st s).complete := complete_completed s _ (doStage_bodyFrame st s)
    refine ⟨u, ?_, hresult.trans (afterStages_result_congr plan (State.complete_result _)), fun _ => ?_⟩
    · rw [List.map_cons, execAll, hfirst]
      exact hexec
    · cases plan with
      | nil =>
        obtain rfl := Host.Outcome.next.inj hexec
        exact hst
      | cons st' plan => exact hst.trans (hcompleted (List.cons_ne_nil _ _))

theorem enabledPlan_instrs (r : HostRegs) : (enabledPlan r).map stageInstr =
    (if r.gammaEn then [.gamma] else []) ++ [.hresample, .vresample] ++ (if r.maskEn then [.selpat, .mask] else []) := by
  rw [enabledPlan]
  cases r.gammaEn <;> cases r.maskEn <;> rfl

/-! ### What is left after `RUN` -/

/-- Past `HRESAMPLE` no stage changes the width. -/
theorem RunReady.afterStages_wfW {s : State} (h : RunReady s.csr s) :
    (s.afterStages (enabledPlan s.csr)).wfW = s.csr.dstW.toNat := by
  have hgamma : RunReady s.csr (s.afterStages (if s.csr.gammaEn then [.gamma] else [])) := h.afterStages _
  have hwidth := stageHresample_wfW hgamma.frame (by rw [hgamma.csr]; exact hgamma.filtH)
  have hlater : Stage.hresample ∉ [.vresample] ++ (if s.csr.maskEn then [.selpat, .mask] else []) := by
    cases s.csr.maskEn <;> decide
  rw [enabledPlan, afterStages_append, afterStages_append]
  rw [hgamma.csr] at hwidth
  rw [← hwidth]
  exact Machine.afterStages_wfW hlater _

/-- Past `VRESAMPLE` no stage changes the height. -/
theorem RunReady.afterStages_wfH {s : State} (h : RunReady s.csr s) :
    (s.afterStages (enabledPlan s.csr)).wfH = s.csr.dstH.toNat := by
  have hpassH : RunReady s.csr (s.afterStages ((if s.csr.gammaEn then [.gamma] else []) ++ [.hresample])) := h.afterStages _
  have hheight := stageVresample_wfH hpassH.frame (by rw [hpassH.csr]; exact hpassH.filtV)
  have hlater : Stage.vresample ∉ (if s.csr.maskEn then [.selpat, .mask] else []) := by
    cases s.csr.maskEn <;> decide
  rw [hpassH.csr, afterStages_append] at hheight
  rw [enabledPlan, afterStages_append, afterStages_append, Machine.afterStages_wfH hlater, ← hheight]
  rfl

theorem afterStages_enabledPlan_sel {s : State} (hen : s.csr.maskEn = false) :
    (s.afterStages (enabledPlan s.csr)).sel = s.sel := by
  refine afterStages_sel ?_ s
  rw [enabledPlan, hen]
  cases s.csr.gammaEn <;> decide

/-- Settles O58: the plan of `RUN` does what the enabled stages do, and so do their commands, which all complete. -/
theorem runIsItsStages : Obligations.RunIsItsStages := by
  intro s f hinv hf hw hh hlimW hlimH hgamma hfiltH hfiltV hmask
  rw [← State.wfW_of_frame hf] at hfiltH
  rw [← State.wfH_of_frame hf] at hfiltV
  have hready := runReady_of_inv hinv (by rw [hf]; rfl) hw hh hlimW hlimH hgamma hfiltH hfiltV hmask
  have hrun := runStages_eq_enabledPlan hready.frame
  obtain ⟨f', hf'⟩ := Option.isSome_iff_exists.1 (hready.afterStages (enabledPlan s.csr)).frame
  obtain ⟨u, hexec, hresult, hcompleted⟩ := execAll_stages _ hready.planCompletes
  rw [enabledPlan_instrs] at hexec
  obtain ⟨htables, hsel, hpl, hwf⟩ := State.eq_of_result_eq hresult
  refine ⟨(runStages s).complete, u, f', hready.exec_run, complete_completed s _ (runStages_bodyFrame s), ?_, ?_, ?_, ?_, ?_,
    fun hen => ?_, hexec, hcompleted ?_, ?_, ?_, ?_, ?_⟩
  · rw [State.complete_tables, runStages, foldStages_frame]
  · rw [State.complete_pl, runStages, foldStages_frame]
  · rw [State.complete_wf, hrun, hf']
  · rw [← State.wfW_of_frame hf', hready.afterStages_wfW]
  · rw [← State.wfH_of_frame hf', hready.afterStages_wfH]
  · rw [State.complete_sel, hrun, afterStages_enabledPlan_sel hen]
  · simp [enabledPlan]
  · rw [hrun]; exact hwf
  · rw [hrun]; exact hsel
  · rw [hrun]; exact htables
  · rw [hrun]; exact hpl

end Sys2Proof.Machine
end
